-- ==== Sys2Proof/Word.lean ====
section
/-! DEFINITION. The two word types of CVT24: a byte of pixel memory and a 32-bit register word
(00_scope.md R10, 10_state.md R20). -/

namespace Sys2Proof

/-- One byte of pixel memory (10_state.md R50). -/
abbrev Byte := BitVec 8

/-- One 32-bit register word, bit 0 the least significant (00_scope.md R10, 10_state.md R20). -/
abbrev Word := BitVec 32

end Sys2Proof
end

