-- ==== Sys2Proof/Syntax.lean ====
section
/-! DEFINITION. The instructions: the twelve rows of the opcode map and the host command START
(30_encoding.md R115). -/

namespace Sys2Proof

/-- One constructor per row of the opcode table. The operands are the fields the row's mask leaves open
(TYPE, BPP, IS565 of the dispatch word, 30_encoding.md R113; bits 31:1 of the START data, 10_state.md R21):
they are part of the encoding and no meaning reads them (30_encoding.md R118). -/
inductive Instr where
  | rejectNull (type bpp : Nat) (is565 : Bool)
  | unpack1 (is565 : Bool)
  | unpack4 (is565 : Bool)
  | unpack8 (is565 : Bool)
  | unpack555
  | unpack565
  | clone24 (is565 : Bool)
  | copy32 (is565 : Bool)
  | truncRgb16 (bpp : Nat) (is565 : Bool)
  | truncRgba16 (bpp : Nat) (is565 : Bool)
  | toneRgbf (bpp : Nat) (is565 : Bool)
  | toneRgbaf (bpp : Nat) (is565 : Bool)
  | start (ignored : Nat)
deriving DecidableEq, Repr

end Sys2Proof
end

