-- ==== Sys2Proof/WellFormed.lean ====
section
/-! DEFINITION. When an instruction has an encoding: each open field fits its bits of the dispatch word
(30_encoding.md R113) or of the CTRL data (10_state.md R21). -/

namespace Sys2Proof

/-- TYPE is 4 bits, BPP is 8 bits, the ignored part of the START data is 31 bits. -/
def Instr.wellFormed : Instr → Bool
  | .rejectNull type bpp _ => decide (type < 16) && decide (bpp < 256)
  | .unpack1 _ => true
  | .unpack4 _ => true
  | .unpack8 _ => true
  | .unpack555 => true
  | .unpack565 => true
  | .clone24 _ => true
  | .copy32 _ => true
  | .truncRgb16 bpp _ => decide (bpp < 256)
  | .truncRgba16 bpp _ => decide (bpp < 256)
  | .toneRgbf bpp _ => decide (bpp < 256)
  | .toneRgbaf bpp _ => decide (bpp < 256)
  | .start ignored => decide (ignored < 2147483648)

end Sys2Proof
end

