-- ==== Sys2Proof/Decode.lean ====
section
/-! DEFINITION. Decoding of a dispatch word and of the data of a CTRL write, total on every word, with
the words that select nothing rejected by name; and the encoder (30_encoding.md R113 to R117, R231's
enabling condition). -/

namespace Sys2Proof

/-- The two encoded objects of the opcode table: the dispatch word DW (30_encoding.md R113) and the data
of a host write to CTRL (10_state.md R21). The same 32 bits mean different things in the two. -/
inductive Format where
  | dispatch
  | ctrl
deriving DecidableEq, Repr

/-- Why a word selects nothing. -/
inductive DecodeError where
  /-- A dispatch word with PRESENT = 1 and TYPE in 0, 6..15 (30_encoding.md R116). -/
  | unsupportedType
  /-- A dispatch word with PRESENT = 1, TYPE = 1 and a depth that is not 1, 4, 8, 16, 24, 32
  (30_encoding.md R117). -/
  | unsupportedDepth
  /-- CTRL data with bit 0 clear: "writing 0 has no effect" (10_state.md R21). -/
  | noStart
deriving DecidableEq, Repr

/-- Bits `lo + width - 1 .. lo` of a word, as an unsigned integer (00_scope.md R10). -/
def field (w : Word) (lo width : Nat) : Nat := w.toNat / 2 ^ lo % 2 ^ width

/-- The STD rows of the opcode map, by BPP and, at depth 16, by IS565 (30_encoding.md R115). -/
def decodeStd (bpp : Nat) (is565 : Bool) : Except DecodeError Instr :=
  if bpp = 1 then .ok (.unpack1 is565)
  else if bpp = 4 then .ok (.unpack4 is565)
  else if bpp = 8 then .ok (.unpack8 is565)
  else if bpp = 16 then .ok (if is565 then .unpack565 else .unpack555)
  else if bpp = 24 then .ok (.clone24 is565)
  else if bpp = 32 then .ok (.copy32 is565)
  else .error .unsupportedDepth

/-- The opcode map by fields (30_encoding.md R115, R116, R117). -/
def decodeFields (present type bpp : Nat) (is565 : Bool) : Except DecodeError Instr :=
  if present = 0 then .ok (.rejectNull type bpp is565)
  else if type = 1 then decodeStd bpp is565
  else if type = 2 then .ok (.truncRgb16 bpp is565)
  else if type = 3 then .ok (.truncRgba16 bpp is565)
  else if type = 4 then .ok (.toneRgbf bpp is565)
  else if type = 5 then .ok (.toneRgbaf bpp is565)
  else .error .unsupportedType

/-- The instruction a word selects in its format. Bits 3:1 and 31:17 of a dispatch word are outside every
row's mask (30_encoding.md R115). -/
def decode (f : Format) (w : Word) : Except DecodeError Instr :=
  match f with
  | .dispatch => decodeFields (field w 0 1) (field w 4 4) (field w 8 8) (field w 16 1 == 1)
  | .ctrl => if field w 0 1 = 1 then .ok (.start (field w 1 31)) else .error .noStart

/-- A dispatch word from its fields (30_encoding.md R113). -/
def packDispatch (present type bpp : Nat) (is565 : Bool) : Word :=
  BitVec.ofNat 32 (present + 16 * type + 256 * bpp + 65536 * is565.toNat)

/-- The format and the word of an instruction, from the opcode map (30_encoding.md R113, R115). -/
def encode : Instr → Format × Word
  | .rejectNull type bpp is565 => (.dispatch, packDispatch 0 type bpp is565)
  | .unpack1 is565 => (.dispatch, packDispatch 1 1 1 is565)
  | .unpack4 is565 => (.dispatch, packDispatch 1 1 4 is565)
  | .unpack8 is565 => (.dispatch, packDispatch 1 1 8 is565)
  | .unpack555 => (.dispatch, packDispatch 1 1 16 false)
  | .unpack565 => (.dispatch, packDispatch 1 1 16 true)
  | .clone24 is565 => (.dispatch, packDispatch 1 1 24 is565)
  | .copy32 is565 => (.dispatch, packDispatch 1 1 32 is565)
  | .truncRgb16 bpp is565 => (.dispatch, packDispatch 1 2 bpp is565)
  | .truncRgba16 bpp is565 => (.dispatch, packDispatch 1 3 bpp is565)
  | .toneRgbf bpp is565 => (.dispatch, packDispatch 1 4 bpp is565)
  | .toneRgbaf bpp is565 => (.dispatch, packDispatch 1 5 bpp is565)
  | .start ignored => (.ctrl, BitVec.ofNat 32 (1 + 2 * ignored))

/-- The mask and the match of an instruction's row, from the opcode map (30_encoding.md R115). -/
def opcodeRow : Instr → Word × Word
  | .rejectNull _ _ _ => (0x00000001, 0x00000000)
  | .unpack1 _ => (0x0000FFF1, 0x00000111)
  | .unpack4 _ => (0x0000FFF1, 0x00000411)
  | .unpack8 _ => (0x0000FFF1, 0x00000811)
  | .unpack555 => (0x0001FFF1, 0x00001011)
  | .unpack565 => (0x0001FFF1, 0x00011011)
  | .clone24 _ => (0x0000FFF1, 0x00001811)
  | .copy32 _ => (0x0000FFF1, 0x00002011)
  | .truncRgb16 _ _ => (0x000000F1, 0x00000021)
  | .truncRgba16 _ _ => (0x000000F1, 0x00000031)
  | .toneRgbf _ _ => (0x000000F1, 0x00000041)
  | .toneRgbaf _ _ => (0x000000F1, 0x00000051)
  | .start _ => (0x00000001, 0x00000001)

/-- The word of a table row: `nbits` bits of `w`, every bit above them 0. -/
def tableWord (nbits w : Nat) : Word := BitVec.ofNat 32 (w % 2 ^ nbits)

/-- The instruction of a table word. A bare number does not say which of the two formats it is in, so the
dispatch rows are tried first and the CTRL row after them (assumption log 19). -/
def decodeTableWord (nbits w : Nat) : Option Instr :=
  match decode .dispatch (tableWord nbits w) with
  | .ok i => some i
  | .error _ =>
    match decode .ctrl (tableWord nbits w) with
    | .ok i => some i
    | .error _ => none

end Sys2Proof
end

