-- ==== Sys2Proof/Config.lean ====
section
/-! DEFINITION. What an instance of the hardware fixes (00_scope.md R7, R8: LAYOUT, FW, NARROW), and the
values the spec leaves open, as constants with no body: nothing can be proved about what they are, so a
claim holds whatever they are. -/

namespace Sys2Proof

/-- `LAYOUT`, a permutation of (0,1,2) (40_channel_layout.md R130), named by the colours of bytes 0, 1, 2
of an output pixel. A triple that is no permutation is no configuration (00_scope.md R8): it has no name
here. `bgr` is `LAYOUT_BGR = (2,1,0)`, `rgb` is `LAYOUT_RGB = (0,1,2)`. -/
inductive Layout where
  | rgb | rbg | grb | gbr | brg | bgr
deriving DecidableEq, Repr

/-- `FW`, the width of a floating-point sample: 32 or 64 (44_hdr_tonemapper.md R200). -/
inductive FloatWidth where
  | w32 | w64
deriving DecidableEq, Repr

/-- `NARROW`, the byte of a tone result outside 0..255, of a NaN and of minus infinity: `wrap` is the rule
of 44_hdr_tonemapper.md R210 and R214; `anyValue` is the cautious instance of the table of open
parameters (92_eei_decisions.md; 93_implementation_defined.md U3 to U5). -/
inductive Narrow where
  | wrap | anyValue
deriving DecidableEq, Repr

/-- One configuration of the hardware. It is carried in State as plain data and no step changes it. -/
structure Config where
  layout : Layout
  fw     : FloatWidth
  narrow : Narrow
deriving DecidableEq, Repr

/-- FREE VALUE (assumption log 4). POW of 44_hdr_tonemapper.md R203 may answer either of the two values nearest to
the power; for the pair whose lower one has magnitude `lo`, samples of magnitude at least `powThreshold fw lo`
get the upper one. -/
opaque Config.powThreshold : FloatWidth → Nat → Nat

/-- FREE VALUE (assumption log 6). The byte for draw `n` where NARROW is `anyValue` and the result is out of range. -/
opaque Config.openByte : Nat → Byte

/-- FREE VALUE (assumption log 7). What draw `n` reads from palette entry `i` when nothing has written it
since power-up (10_state.md R48). -/
opaque Config.unwrittenEntry : Nat → Nat → BitVec 24

/-- FREE VALUE (assumption log 14). The metadata of a bitmap no service transaction of the model made
(10_state.md R51): an opaque token for each handle. -/
opaque Config.initialMeta : Word → Nat

/-- FREE VALUE (assumption log 14). The metadata of a freshly allocated bitmap before METACOPY, for draw `n`. -/
opaque Config.freshMeta : Nat → Nat

end Sys2Proof
end

