-- ==== Sys2Proof/Machine/State.lean ====
section
/-! DEFINITION. The state of CVT24 as plain data, the reasons a step can stop, and the state after reset
(10_state.md). -/

namespace Sys2Proof.Machine

/-- PHASE, the dispatcher's place in a run (10_state.md R41). Codes 8..15 are never taken and have no name. -/
inductive Phase where
  | idle | check | cloneWait | allocWait | metaWait | select | convert | freeWait
deriving DecidableEq, Repr

/-- CAUSE, why a run failed; `none` is code 0 (60_exceptions.md R280). Codes 6..15 are never written. -/
inductive Cause where
  | none | nullSource | unsupportedType | unsupportedDepth | allocFailed | paletteIndex
deriving DecidableEq, Repr

/-- The ten converting operations, one of which SELECT stores in OP (10_state.md R53). -/
inductive Op where
  | unpack1 | unpack4 | unpack8 | unpack555 | unpack565 | copy32
  | truncRgb16 | truncRgba16 | toneRgbf | toneRgbaf
deriving DecidableEq, Repr

/-- A service request (30_encoding.md R102). -/
inductive SvcRequest where
  | alloc (width height : Word) (depth : Nat) (rmask gmask bmask : Word)
  | clone (src : Word)
  | metacopy (dst src : Word)
  | free (dst : Word)
deriving DecidableEq, Repr

/-- A service answer (30_encoding.md R103). -/
inductive Answer where
  | grant (handle base pitch : Word)
  | deny
  | ack
deriving DecidableEq, Repr

/-- One move of one of the three parties (45_dispatcher_sequencer.md R230): a host register access
(30_encoding.md R104), an answer of the environment, a step of the core, an access of the host or the
environment to pixel memory, the reset input (70_reset_and_hazards.md R310). -/
inductive Move where
  | wr (offset : Nat) (data : Word)
  | rd (offset : Nat)
  | ans (answer : Answer)
  | core
  | memWr (addr : Nat) (byte : Byte)
  | memRd (addr : Nat)
  | reset
deriving DecidableEq, Repr

/-- The flags and fields of STATUS (10_state.md R22). -/
structure Status where
  busy  : Bool
  done  : Bool
  fail  : Bool
  cause : Cause
  phase : Phase
deriving DecidableEq, Repr

/-- The source descriptor registers (10_state.md R23 to R30), reserved bits stored as 0. -/
structure SrcRegs where
  fmt    : Word
  handle : Word
  width  : Word
  height : Word
  pitch  : Word
  base   : Word
  rmask  : Word
  gmask  : Word
  bmask  : Word
  palLen : Word
deriving DecidableEq, Repr

/-- The result registers (10_state.md R32 to R34). -/
structure DstRegs where
  fmt    : Word
  handle : Word
  width  : Word
  height : Word
  pitch  : Word
  base   : Word
  rmask  : Word
  gmask  : Word
  bmask  : Word
deriving DecidableEq, Repr

/-- A bitmap the environment holds on the core's request: what the grant fixed and its metadata token
(10_state.md R51; 45_dispatcher_sequencer.md R246, R247). -/
structure Bitmap where
  handle : Word
  type   : Nat
  depth  : Nat
  width  : Word
  height : Word
  base   : Word
  pitch  : Word
  rmask  : Word
  gmask  : Word
  bmask  : Word
  info   : Nat
deriving DecidableEq, Repr

/-- Pixel memory: the bytes that differ from what an unlisted address reads as, addresses strictly rising
(10_state.md R50). -/
abbrev Memory := List Host.Cell

/-- The palette LUT: the entries written since power-up, indices strictly rising; 24 stored bits each,
RED[23:16] GREEN[15:8] BLUE[7:0] (10_state.md R44, R45, R48). -/
abbrev Palette := List (Nat × BitVec 24)

/-- The whole machine. `cfg` is the configuration and is changed by no step. `moves`, `rdData` and `draws`
are the model's own: the moves still to come, the data of the last host read, and how many free values
have been drawn (assumption log 1, 18, 7). -/
structure State where
  cfg     : Config
  status  : Status
  src     : SrcRegs
  dst     : DstRegs
  seqRow  : Word
  seqCol  : Word
  palette : Palette
  op      : Option Op
  pend    : Option Cause
  svcOut  : Option SvcRequest
  mem     : Memory
  bitmaps : List Bitmap
  moves   : List Move
  rdData  : Option Word
  draws   : Nat
deriving DecidableEq, Repr

/-- The faults of the machine. -/
inductive Fault where
  /-- The core accesses pixel memory at an address of 2^32 or more: "there is no wrap-around rule and no
  bus-error rule", no step (20_memory.md R74). Raised by source reads and pixel writes. Safe: the model
  stops where the spec claims nothing. -/
  | addressOutOfRange (addr : Nat)
  /-- The transition table (45_dispatcher_sequencer.md R237) has no row for the phase and the operation.
  Raised by the core's step in states no run reaches. Safe: the model stops where no rule is enabled. -/
  | noTransition
deriving DecidableEq, Repr

/-- The refusals of the machine: moves the spec says the model does not offer. -/
inductive Refusal where
  /-- An instruction that has no meaning yet, by its mnemonic. Raised by `exec` only. Safe. -/
  | notModelled (mnemonic : String)
  /-- A register access whose offset is no multiple of 4 in 0x000..0x7FC (93_implementation_defined.md
  U12). Raised by host reads and writes. Safe: the spec gives it no effect. -/
  | registerAccess (offset : Nat)
  /-- An answer that does not fit the outstanding request: "not a move of the environment"
  (45_dispatcher_sequencer.md R245; U15). Raised by answers. Safe. -/
  | answerDoesNotFit
  /-- A GRANT that breaks its promises (45_dispatcher_sequencer.md R246, R247; U14, U16). Raised by
  answers. Safe: the spec claims nothing of such a run. -/
  | grantBreaksPromise
  /-- An access to a source row (write) or a destination row (any) while BUSY (20_memory.md R79; U11).
  Raised by memory moves. Safe: the spec leaves the values unspecified. -/
  | hostTouchesRun (addr : Nat)
  /-- A memory move outside the 2^32 bytes of pixel memory (10_state.md R50). Safe. -/
  | memoryAddress (addr : Nat)
  /-- A reset while a run is in progress (70_reset_and_hazards.md R312; U13). Raised by the reset move.
  Safe: the spec claims nothing of such a run. -/
  | resetDuringRun
deriving DecidableEq, Repr

/-- The outcome of a step of this machine. -/
abbrev Result := Host.Outcome State Fault Refusal

/-- STATUS reads 0: IDLE, no flag set (10_state.md R20, R56). -/
def Status.reset : Status := ⟨false, false, false, .none, .idle⟩

/-- Every source register reads 0 (10_state.md R20). -/
def SrcRegs.reset : SrcRegs := ⟨0, 0, 0, 0, 0, 0, 0, 0, 0, 0⟩

/-- Every result register reads 0 (10_state.md R20); also what START and a failure leave
(45_dispatcher_sequencer.md R231, 60_exceptions.md R292). -/
def DstRegs.zero : DstRegs := ⟨0, 0, 0, 0, 0, 0, 0, 0, 0⟩

/-- The state after power-up and reset of an instance of the hardware (10_state.md R56,
70_reset_and_hazards.md R310). -/
def State.resetWith (cfg : Config) : State where
  cfg := cfg
  status := Status.reset
  src := SrcRegs.reset
  dst := DstRegs.zero
  seqRow := 0
  seqCol := 0
  palette := []
  op := none
  pend := none
  svcOut := none
  mem := []
  bitmaps := []
  moves := []
  rdData := none
  draws := 0

/-- The state after reset of the instance LAYOUT_BGR, FW = 32, NARROW = wrap (DESIGN CHOICE, assumption
log 3: the spec leaves the three open). -/
def State.reset : State := State.resetWith ⟨.bgr, .w32, .wrap⟩

end Sys2Proof.Machine
end

