-- ==== Sys2Proof/Machine/Ops.lean ====
section
/-! DEFINITION. The operations every meaning is written over: pixel memory and the palette LUT as sorted
lists, the dispatch word, and the run-level effects (START, the allocation request, success, the failure
entry and its completion). -/

namespace Sys2Proof.Machine

/-- `AW` = 32: pixel memory has 2^32 bytes (00_scope.md R7, 10_state.md R50). -/
def memoryBytes : Nat := 4294967296

/-- What an address the list does not name reads as (DESIGN CHOICE, assumption log 8). -/
def unlistedByte : Byte := 0

/-- The byte at an address (00_scope.md R12, `MemRead`). -/
def Memory.get : Memory → Nat → Byte
  | [], _ => unlistedByte
  | (a', b) :: rest, a => if a = a' then b else Memory.get rest a

/-- `rest` with the cell put in front, unless it holds what an unlisted address reads as. -/
def Memory.cell (a : Nat) (b : Byte) (rest : Memory) : Memory :=
  if b = unlistedByte then rest else (a, b) :: rest

/-- Memory with the byte at `a` set to `b`, in canonical form (00_scope.md R12, `MemWrite`). -/
def Memory.put : Memory → Nat → Byte → Memory
  | [], a, b => Memory.cell a b []
  | (a', b') :: rest, a, b =>
    if a < a' then Memory.cell a b ((a', b') :: rest)
    else if a = a' then Memory.cell a b rest
    else (a', b') :: Memory.put rest a b

/-- The canonical form from address `lo` up: strictly rising addresses below 2^32, no entry equal to what
an unlisted address reads as. -/
def Memory.wfFrom : Nat → Memory → Bool
  | _, [] => true
  | lo, (a, b) :: rest =>
    decide (lo ≤ a) && decide (a < memoryBytes) && decide (b ≠ unlistedByte) && Memory.wfFrom (a + 1) rest

/-- Pixel memory is in its canonical form. -/
def Memory.wf (m : Memory) : Bool := Memory.wfFrom 0 m

/-- Palette entry `i`, or none where nothing has written it since power-up (10_state.md R48). -/
def Palette.get? : Palette → Nat → Option (BitVec 24)
  | [], _ => none
  | (i', e) :: rest, i => if i = i' then some e else Palette.get? rest i

/-- The palette with entry `i` written. -/
def Palette.put : Palette → Nat → BitVec 24 → Palette
  | [], i, e => [(i, e)]
  | (i', e') :: rest, i, e =>
    if i < i' then (i, e) :: (i', e') :: rest
    else if i = i' then (i, e) :: rest
    else (i', e') :: Palette.put rest i e

/-- Strictly rising indices from `lo` up, below 256. -/
def Palette.wfFrom : Nat → Palette → Bool
  | _, [] => true
  | lo, (i, _) :: rest => decide (lo ≤ i) && decide (i < 256) && Palette.wfFrom (i + 1) rest

/-- The palette is in its canonical form. -/
def Palette.wf (p : Palette) : Bool := Palette.wfFrom 0 p

/-- What a read of entry `i` gives as draw `n`: the written entry, or a free value (10_state.md R48). -/
def Palette.read (p : Palette) (n i : Nat) : BitVec 24 := (p.get? i).getD (Config.unwrittenEntry n i)

/-- How many draws there have been after a read of entry `i`. -/
def Palette.drawsAfter (p : Palette) (n i : Nat) : Nat := if (p.get? i).isSome then n else n + 1

/-- The declared masks are exactly the 5-6-5 constants, all 32 bits compared (30_encoding.md R114). -/
def is565 (s : State) : Bool :=
  s.src.rmask == 0x0000F800 && s.src.gmask == 0x000007E0 && s.src.bmask == 0x0000001F

/-- The dispatch word: SRC_FMT[15:0] with IS565 in bit 16 (30_encoding.md R113). -/
def dispatchWord (s : State) : Word :=
  BitVec.ofNat 32 (s.src.fmt.toNat % 65536 + 65536 * (is565 s).toNat)

/-- `seq <- (phase, row, col)` with both counters 0 (00_scope.md R12). -/
def atPhase (p : Phase) (s : State) : State :=
  { s with status := { s.status with phase := p }, seqRow := 0, seqCol := 0 }

/-- An accepted START: STATUS and the result registers cleared, hidden state none, BUSY set, CHECK at (0,0)
(45_dispatcher_sequencer.md R231). -/
def startRun (s : State) : State :=
  { s with
    status := ⟨true, false, false, .none, .check⟩
    dst := DstRegs.zero
    seqRow := 0
    seqCol := 0
    op := none
    pend := none
    svcOut := none }

/-- `FailDone(c)`: the completion of a failure (60_exceptions.md R292). SEQ_ROW and SEQ_COL keep their values. -/
def failDone (c : Cause) (s : State) : State :=
  { s with
    status := ⟨false, true, true, c, .idle⟩
    dst := DstRegs.zero
    op := none
    pend := none
    svcOut := none }

/-- `raise Fail(c)`: the failure entry (60_exceptions.md R291). A destination is held in SELECT and CONVERT
and is released first; elsewhere the failure completes at once. There is no return operation (R295). -/
def raiseFail (c : Cause) (s : State) : State :=
  match s.status.phase with
  | .select | .convert =>
    { s with
      status := { s.status with phase := .freeWait }
      pend := some c
      svcOut := some (.free s.dst.handle) }
  | .idle | .check | .cloneWait | .allocWait | .metaWait | .freeWait => failDone c s

/-- DST_FMT of a result: VALID, TYPE = STD, BPP = 24 (10_state.md R32). -/
def resultFmt : Word := 0x00001811

/-- `Success()` (45_dispatcher_sequencer.md R258). SEQ_ROW and SEQ_COL keep their values. -/
def success (s : State) : State :=
  { s with
    status := ⟨false, true, false, .none, .idle⟩
    dst := { s.dst with fmt := resultFmt }
    op := none
    pend := none
    svcOut := none }

end Sys2Proof.Machine
end

