-- ==== Sys2Proof/Machine/Flags.lean ====
section
/-! DEFINITION. The STATUS word and its flags (10_state.md R22, R35 to R37, R41). No operation sets a flag
from a data result; the flags change only in `startRun`, `success`, `failDone` and `raiseFail`
(Machine/Ops.lean). -/

namespace Sys2Proof.Machine

/-- The PHASE code (10_state.md R41). -/
def Phase.code : Phase → Nat
  | .idle => 0
  | .check => 1
  | .cloneWait => 2
  | .allocWait => 3
  | .metaWait => 4
  | .select => 5
  | .convert => 6
  | .freeWait => 7

/-- The CAUSE code (60_exceptions.md R280). -/
def Cause.code : Cause → Nat
  | .none => 0
  | .nullSource => 1
  | .unsupportedType => 2
  | .unsupportedDepth => 3
  | .allocFailed => 4
  | .paletteIndex => 5

/-- STATUS as the host reads it: BUSY[0], DONE[1], FAIL[2], CAUSE[7:4], PHASE[11:8] (10_state.md R22). -/
def Status.word (st : Status) : Word :=
  BitVec.ofNat 32
    (st.busy.toNat + 2 * st.done.toNat + 4 * st.fail.toNat + 16 * st.cause.code + 256 * st.phase.code)

end Sys2Proof.Machine
end

