-- ==== Sys2Proof/Machine/Layout.lean ====
section
/-! DEFINITION. Channel Layout, the output pixel writer (40_channel_layout.md), and the destination mask
triple (10_state.md R34). -/

namespace Sys2Proof.Machine

/-- A pixel value, red, green, blue, whatever LAYOUT is (00_scope.md R14). -/
structure Rgb where
  r : Byte
  g : Byte
  b : Byte
deriving DecidableEq, Repr

/-- `OFF_R`: the byte of an output pixel that holds red (40_channel_layout.md R130). -/
def offR : Layout → Nat
  | .rgb => 0 | .rbg => 0 | .grb => 1 | .gbr => 2 | .brg => 1 | .bgr => 2

/-- `OFF_G`: the byte of an output pixel that holds green. -/
def offG : Layout → Nat
  | .rgb => 1 | .rbg => 2 | .grb => 0 | .gbr => 0 | .brg => 2 | .bgr => 1

/-- `OFF_B`: the byte of an output pixel that holds blue. -/
def offB : Layout → Nat
  | .rgb => 2 | .rbg => 1 | .grb => 2 | .gbr => 1 | .brg => 0 | .bgr => 0

/-- `0xFF << (8 * off)`: one mask of the destination's fixed triple (10_state.md R34). -/
def channelMask (off : Nat) : Word := BitVec.ofNat 32 (255 * 2 ^ (8 * off))

/-- The address of byte `k` of destination row `y`, in unbounded integers (20_memory.md R73). -/
def dstAddr (s : State) (y k : Nat) : Nat := s.dst.base.toNat + y * s.dst.pitch.toNat + k

/-- The last of the three addresses of output pixel `x` of row `y`; they are consecutive
(40_channel_layout.md R131). -/
def pixelTop (s : State) (y x : Nat) : Nat := dstAddr s y (3 * x + 2)

/-- `PutPixel(y, x, p)`: the three bytes of the output pixel at their LAYOUT offsets
(40_channel_layout.md R131). An access at 2^32 or above has no step (20_memory.md R74); nothing of the
pixel is then written. -/
def putPixel (s : State) (y x : Nat) (p : Rgb) : Except Fault Memory :=
  if pixelTop s y x < memoryBytes then
    .ok (((s.mem.put (dstAddr s y (3 * x + offR s.cfg.layout)) p.r).put
      (dstAddr s y (3 * x + offG s.cfg.layout)) p.g).put
      (dstAddr s y (3 * x + offB s.cfg.layout)) p.b)
  else .error (.addressOutOfRange (pixelTop s y x))

/-- `GetPixel(y, x)`: the host's reading of an output pixel (40_channel_layout.md R132). -/
def getPixel (s : State) (y x : Nat) : Rgb :=
  ⟨s.mem.get (dstAddr s y (3 * x + offR s.cfg.layout)),
   s.mem.get (dstAddr s y (3 * x + offG s.cfg.layout)),
   s.mem.get (dstAddr s y (3 * x + offB s.cfg.layout))⟩

end Sys2Proof.Machine
end

