-- ==== Sys2Proof/Machine/Operands.lean ====
section
/-! DEFINITION. Every operand form: the source byte and the extraction functions of 30_encoding.md R105 to
R111 over it. -/

namespace Sys2Proof.Machine

/-- The address of byte `k` of source row `y`, in unbounded integers (20_memory.md R72). -/
def srcAddr (s : State) (y k : Nat) : Nat := s.src.base.toNat + y * s.src.pitch.toNat + k

/-- `SrcByte(y, k)` (20_memory.md R72); an access at 2^32 or above has no step (R74). -/
def srcByte (s : State) (y k : Nat) : Except Fault Byte :=
  if srcAddr s y k < memoryBytes then .ok (s.mem.get (srcAddr s y k))
  else .error (.addressOutOfRange (srcAddr s y k))

/-- The `n` bytes from byte `k` of source row `y`, in address order. -/
def srcBytes (s : State) (y k : Nat) : Nat → Except Fault (List Byte)
  | 0 => .ok []
  | n + 1 => do
    let b ← srcByte s y k
    let rest ← srcBytes s y (k + 1) n
    .ok (b :: rest)

/-- The unsigned integer whose little-endian bytes are the list (20_memory.md R61, R62). -/
def leNat : List Byte → Nat
  | [] => 0
  | b :: rest => b.toNat + 256 * leNat rest

/-- `IDX1(y, x)` (30_encoding.md R105). -/
def idx1 (s : State) (y x : Nat) : Except Fault Nat := do
  let b ← srcByte s y (x / 8)
  .ok ((b.toNat >>> (7 - x % 8)) &&& 1)

/-- `IDX4(y, x)` (30_encoding.md R106). -/
def idx4 (s : State) (y x : Nat) : Except Fault Nat := do
  let b ← srcByte s y (x / 2)
  .ok (if x % 2 = 0 then b.toNat >>> 4 else b.toNat &&& 0x0F)

/-- `IDX8(y, x)` (30_encoding.md R107). -/
def idx8 (s : State) (y x : Nat) : Except Fault Nat := do
  let b ← srcByte s y x
  .ok b.toNat

/-- `CH16(y, k)`: the little-endian 16-bit value at bytes `k`, `k + 1` of row `y` (30_encoding.md R110). -/
def ch16 (s : State) (y k : Nat) : Except Fault Nat := do
  let bs ← srcBytes s y k 2
  .ok (leNat bs)

/-- `WORD16(y, x)` (30_encoding.md R108). -/
def word16 (s : State) (y x : Nat) : Except Fault Nat := ch16 s y (2 * x)

/-- The 5-5-5 fields of a word; bit 15 is ignored (30_encoding.md R96, R108). -/
def r555 (w : Nat) : Nat := (w &&& 0x7C00) >>> 10
def g555 (w : Nat) : Nat := (w &&& 0x03E0) >>> 5
def b555 (w : Nat) : Nat := w &&& 0x001F

/-- The 5-6-5 fields of a word (30_encoding.md R97, R108). -/
def r565 (w : Nat) : Nat := (w &&& 0xF800) >>> 11
def g565 (w : Nat) : Nat := (w &&& 0x07E0) >>> 5
def b565 (w : Nat) : Nat := w &&& 0x001F

/-- `PIX32(y, x)`: the colour bytes at their LAYOUT offsets; the byte at `4x + 3` is not read
(30_encoding.md R98, R109). -/
def pix32 (s : State) (y x : Nat) : Except Fault Rgb := do
  let r ← srcByte s y (4 * x + offR s.cfg.layout)
  let g ← srcByte s y (4 * x + offG s.cfg.layout)
  let b ← srcByte s y (4 * x + offB s.cfg.layout)
  .ok ⟨r, g, b⟩

/-- `n = FW/8`, the bytes of one float sample (30_encoding.md R101). -/
def sampleBytes : FloatWidth → Nat
  | .w32 => 4
  | .w64 => 8

/-- The encoding of the float sample at byte `k` of row `y`, of which `FS(y, k)` is the datum
(30_encoding.md R111). -/
def sampleBits (s : State) (y k : Nat) : Except Fault Nat := do
  let bs ← srcBytes s y k (sampleBytes s.cfg.fw)
  .ok (leNat bs)

/-- The bytes of a source row that a run of the selected operation reads, from the dispatch word
(30_encoding.md R92). For CLONE24 they are the `3 * width` bytes the environment duplicates
(45_dispatcher_sequencer.md R247); a run with no operation reads none. -/
def rowBytes (s : State) : Nat :=
  let w := s.src.width.toNat
  let n := sampleBytes s.cfg.fw
  match decode .dispatch (dispatchWord s) with
  | .ok (.unpack1 _) => (w + 7) / 8
  | .ok (.unpack4 _) => (w + 1) / 2
  | .ok (.unpack8 _) => w
  | .ok .unpack555 => 2 * w
  | .ok .unpack565 => 2 * w
  | .ok (.clone24 _) => 3 * w
  | .ok (.copy32 _) => 4 * w
  | .ok (.truncRgb16 _ _) => 6 * w
  | .ok (.truncRgba16 _ _) => 8 * w
  | .ok (.toneRgbf _ _) => 3 * n * w
  | .ok (.toneRgbaf _ _) => 4 * n * w
  | .ok (.rejectNull _ _ _) => 0
  | .ok (.start _) => 0
  | .error _ => 0

/-- How many bytes from its start are bytes of a source row: the pitch, padding included (20_memory.md R66), and
never fewer than a run reads of it (a shorter pitch makes rows overlap, 70_reset_and_hazards.md R319). An absent
source has no rows (10_state.md R23). -/
def rowSpan (s : State) : Nat :=
  if s.src.fmt.toNat % 2 = 1 then max s.src.pitch.toNat (rowBytes s) else 0

end Sys2Proof.Machine
end

