-- ==== Sys2Proof/Machine/Float.lean ====
section
/-! DEFINITION. The sample format `F`: IEEE 754 binary32 or binary64 data, rounding to nearest even, and
the three operations and two comparisons of the tone-mapper (00_scope.md R13, 44_hdr_tonemapper.md R200). A
finite datum is a sign and a magnitude counted in units of the format's smallest subnormal, so that sums
are exact and comparisons are comparisons of naturals. -/

namespace Sys2Proof.Machine

/-- A datum of `F`. `fin neg mag` is `mag` units of the smallest subnormal, negated when `neg`; `fin true 0`
is minus zero. All NaNs are one datum: no rule tells them apart (44_hdr_tonemapper.md R214). -/
inductive Datum where
  | nan
  | inf (neg : Bool)
  | fin (neg : Bool) (mag : Nat)
deriving DecidableEq, Repr

/-- Bits of the significand, the hidden bit included. -/
def precision : FloatWidth → Nat
  | .w32 => 24
  | .w64 => 53

/-- The smallest subnormal is `2 ^ -unitExp`. -/
def unitExp : FloatWidth → Nat
  | .w32 => 149
  | .w64 => 1074

/-- Bits of the exponent field. -/
def exponentBits : FloatWidth → Nat
  | .w32 => 8
  | .w64 => 11

/-- Magnitudes of this many units and more overflow to infinity: `2 ^ 128` or `2 ^ 1024`. -/
def overflowMag : FloatWidth → Nat
  | .w32 => 2 ^ 277
  | .w64 => 2 ^ 2098

/-- The datum of an encoding (20_memory.md R62). -/
def Datum.ofBits (fw : FloatWidth) (bits : Nat) : Datum :=
  let fracBits := precision fw - 1
  let frac := bits % 2 ^ fracBits
  let expo := bits / 2 ^ fracBits % 2 ^ exponentBits fw
  let neg := bits / 2 ^ (fracBits + exponentBits fw) % 2 == 1
  if expo = 2 ^ exponentBits fw - 1 then (if frac = 0 then .inf neg else .nan)
  else if expo = 0 then .fin neg frac
  else .fin neg ((2 ^ fracBits + frac) * 2 ^ (expo - 1))

/-- `n / 2 ^ d` rounded to the nearest natural, ties to the even one. -/
def roundShift (n d : Nat) : Nat :=
  let k := n / 2 ^ d
  let rest := n % 2 ^ d
  if 2 ^ d < 2 * rest ∨ (2 * rest = 2 ^ d ∧ k % 2 = 1) then k + 1 else k

/-- How many low bits of `num`, a count of `2 ^ -sh` units, rounding to the format discards. -/
def droppedBits (fw : FloatWidth) (num sh : Nat) : Nat := max sh (num.log2 + 1 - precision fw)

/-- `RN` of the real number `num * 2 ^ -sh` units with the given sign (00_scope.md R13). -/
def Datum.round (fw : FloatWidth) (neg : Bool) (num sh : Nat) : Datum :=
  let d := droppedBits fw num sh
  let mag := roundShift num d * 2 ^ (d - sh)
  if mag < overflowMag fw then .fin neg mag else .inf neg

/-- `fmul(a, b)` (00_scope.md R13). -/
def fmul (fw : FloatWidth) : Datum → Datum → Datum
  | .nan, _ => .nan
  | _, .nan => .nan
  | .inf s, .inf t => .inf (s ^^ t)
  | .inf s, .fin t m => if m = 0 then .nan else .inf (s ^^ t)
  | .fin s m, .inf t => if m = 0 then .nan else .inf (s ^^ t)
  | .fin s m, .fin t n => .round fw (s ^^ t) (m * n) (unitExp fw)

/-- `fadd(a, b)` (00_scope.md R13). An exact zero sum is minus zero only for two minus zeros. -/
def fadd (fw : FloatWidth) : Datum → Datum → Datum
  | .nan, _ => .nan
  | _, .nan => .nan
  | .inf s, .inf t => if s = t then .inf s else .nan
  | .inf s, .fin _ _ => .inf s
  | .fin _ _, .inf t => .inf t
  | .fin s m, .fin t n =>
    if s = t then .round fw s (m + n) 0
    else if n < m then .round fw s (m - n) 0
    else if m < n then .round fw t (n - m) 0
    else .fin false 0

/-- The datum with its sign turned. -/
def Datum.neg : Datum → Datum
  | .nan => .nan
  | .inf s => .inf (!s)
  | .fin s m => .fin (!s) m

/-- `fsub(a, b)` (00_scope.md R13). -/
def fsub (fw : FloatWidth) (a b : Datum) : Datum := fadd fw a b.neg

/-- The signed count of units of a finite datum. -/
def signedUnits (neg : Bool) (mag : Nat) : Int := if neg then -(mag : Int) else mag

/-- `a <= b` of IEEE 754: false whenever an operand is NaN, `-0 = +0` (00_scope.md R13). -/
def fle : Datum → Datum → Bool
  | .nan, _ => false
  | _, .nan => false
  | .inf true, _ => true
  | _, .inf false => true
  | .inf false, .inf true => false
  | .inf false, .fin _ _ => false
  | .fin _ _, .inf true => false
  | .fin s m, .fin t n => decide (signedUnits s m ≤ signedUnits t n)

/-- `a > b` of IEEE 754 (00_scope.md R13). -/
def fgt : Datum → Datum → Bool
  | .nan, _ => false
  | _, .nan => false
  | .inf true, _ => false
  | _, .inf false => false
  | .inf false, .inf true => true
  | .inf false, .fin _ _ => true
  | .fin _ _, .inf true => true
  | .fin s m, .fin t n => decide (signedUnits t n < signedUnits s m)

/-- `trunc(t)`, the fraction discarded, of a finite datum (00_scope.md R13). -/
def truncUnits (fw : FloatWidth) (neg : Bool) (mag : Nat) : Int := signedUnits neg (mag / 2 ^ unitExp fw)

/-- The largest natural whose square is at most `n`, by Newton's iteration down from `g`. -/
def isqrtFrom (n : Nat) : Nat → Nat → Nat
  | 0, g => g
  | fuel + 1, g => if (g + n / g) / 2 < g then isqrtFrom n fuel ((g + n / g) / 2) else g

/-- The floor of the square root. -/
def isqrt (n : Nat) : Nat :=
  if n = 0 then 0 else isqrtFrom n (2 ^ (n.log2 / 2 + 1)) (2 ^ (n.log2 / 2 + 1))

/-- The ceiling of the square root. -/
def isqrtUp (n : Nat) : Nat := if isqrt n * isqrt n = n then isqrt n else isqrt n + 1

end Sys2Proof.Machine
end

