-- ==== Sys2Proof/Machine/Tone.lean ====
section
/-! DEFINITION. The tone-mapper's per-channel function (44_hdr_tonemapper.md R200 to R214). -/

namespace Sys2Proof.Machine

/-- `START`, 0.018 rounded to `F` (44_hdr_tonemapper.md R201). -/
def toneStart : FloatWidth → Datum
  | .w32 => Datum.ofBits .w32 0x3C9374BC
  | .w64 => Datum.ofBits .w64 0x3F926E978D4FDF3B

/-- `SLOPE`, 4.5 (44_hdr_tonemapper.md R201). -/
def toneSlope : FloatWidth → Datum
  | .w32 => Datum.ofBits .w32 0x40900000
  | .w64 => Datum.ofBits .w64 0x4012000000000000

/-- `K1`, 1.099 rounded to `F` (44_hdr_tonemapper.md R201). -/
def toneK1 : FloatWidth → Datum
  | .w32 => Datum.ofBits .w32 0x3F8CAC08
  | .w64 => Datum.ofBits .w64 0x3FF195810624DD2F

/-- `K2`, 0.099 rounded to `F` (44_hdr_tonemapper.md R201). -/
def toneK2 : FloatWidth → Datum
  | .w32 => Datum.ofBits .w32 0x3DCAC083
  | .w64 => Datum.ofBits .w64 0x3FB95810624DD2F2

/-- `C255` (44_hdr_tonemapper.md R201). -/
def toneC255 : FloatWidth → Datum
  | .w32 => Datum.ofBits .w32 0x437F0000
  | .w64 => Datum.ofBits .w64 0x406FE00000000000

/-- `HALF` (44_hdr_tonemapper.md R201). -/
def toneHalf : FloatWidth → Datum
  | .w32 => Datum.ofBits .w32 0x3F000000
  | .w64 => Datum.ofBits .w64 0x3FE0000000000000

/-- `ONE` (44_hdr_tonemapper.md R201). -/
def toneOne : FloatWidth → Datum
  | .w32 => Datum.ofBits .w32 0x3F800000
  | .w64 => Datum.ofBits .w64 0x3FF0000000000000

/-- `GI`, 0.409090 rounded to `F`, is `gammaNum fw * 2 ^ -gammaBits fw`: encodings 0x3ED1743F and
0x3FDA2E87D2C7B891 (44_hdr_tonemapper.md R201). -/
def gammaNum : FloatWidth → Nat
  | .w32 => 0xD1743F
  | .w64 => 0x1A2E87D2C7B891

/-- The scale of `gammaNum`. -/
def gammaBits : FloatWidth → Nat
  | .w32 => 25
  | .w64 => 54

/-- Fraction bits of the fixed-point numbers that bound the power (assumption log 5). -/
def powBits : Nat := 256

/-- `x ^ (m / 2 ^ steps)` in fixed point, from the low bit of `m` up: the power so far, times `x` where the
bit is set, and the square root of that. `root` is the floor or the ceiling of the square root, which
makes the result a lower or an upper bound. -/
def rootPower (root : Nat → Nat) (x : Nat) : Nat → Nat → Nat → Nat
  | 0, _, acc => acc
  | steps + 1, m, acc => rootPower root x steps (m / 2) (root (acc * (if m % 2 = 1 then x else 2 ^ powBits)))

/-- A magnitude in units as a fixed-point number with `powBits` fraction bits. -/
def toFixed (fw : FloatWidth) (mag : Nat) : Nat := mag * 2 ^ powBits / 2 ^ unitExp fw

/-- A lower bound of `x ^ GI`, in fixed point. -/
def powLower (fw : FloatWidth) (mag : Nat) : Nat :=
  rootPower isqrt (toFixed fw mag) (gammaBits fw) (gammaNum fw) (2 ^ powBits)

/-- An upper bound of `x ^ GI`, in fixed point. -/
def powUpper (fw : FloatWidth) (mag : Nat) : Nat :=
  rootPower isqrtUp (toFixed fw mag) (gammaBits fw) (gammaNum fw) (2 ^ powBits)

/-- The low bits of a fixed-point number that the format cannot hold. -/
def fixedDrop (fw : FloatWidth) (n : Nat) : Nat := n.log2 + 1 - precision fw

/-- The magnitude in units of a fixed-point number that the format holds. -/
def fixedToMag (fw : FloatWidth) (n : Nat) : Nat := n * 2 ^ unitExp fw / 2 ^ powBits

/-- The largest fixed-point number of the format at or below `n`. -/
def fixedFloor (fw : FloatWidth) (n : Nat) : Nat := n / 2 ^ fixedDrop fw n * 2 ^ fixedDrop fw n

/-- The least fixed-point number of the format above `n`. -/
def fixedNext (fw : FloatWidth) (n : Nat) : Nat := fixedFloor fw n + 2 ^ fixedDrop fw n

/-- `x ^ GI < v`, for a fixed-point number `v`: by the bounds where they decide it, else by comparing
`x ^ gammaNum` with `v ^ 2 ^ gammaBits` in integers. -/
def powerLt (fw : FloatWidth) (mag v : Nat) : Bool :=
  if powUpper fw mag < v then true
  else if v ≤ powLower fw mag then false
  else
    decide (toFixed fw mag ^ gammaNum fw * (2 ^ powBits) ^ 2 ^ gammaBits fw <
      v ^ 2 ^ gammaBits fw * (2 ^ powBits) ^ gammaNum fw)

/-- From `v`, a fixed-point number of the format at or below `x ^ GI`, up to the last such number. -/
def powClimb (fw : FloatWidth) (mag : Nat) : Nat → Nat → Nat
  | 0, v => v
  | fuel + 1, v => if powerLt fw mag (fixedNext fw v) then v else powClimb fw mag fuel (fixedNext fw v)

/-- The largest fixed-point number of the format at or below `x ^ GI`, for `x <= ONE`. -/
def powFloor (fw : FloatWidth) (mag : Nat) : Nat :=
  powClimb fw mag (2 ^ powBits + 1) (fixedFloor fw (powLower fw mag))

/-- Of the format's numbers at or below `x ^ GI` the largest is `lo`. Is the one below `lo` nearer to the power
than the one above? It can be only where `lo` is a power of two: the spacing halves there, and the power has
to be less than a quarter of the upper spacing above `lo`. -/
def powNearBelow (fw : FloatWidth) (mag lo : Nat) : Bool :=
  decide (lo = 2 ^ lo.log2) && powerLt fw mag (lo + 2 ^ fixedDrop fw lo / 4)

/-- The two values of `F` nearest to `x ^ GI`, as magnitudes, the lower first, for `x` of magnitude `mag` with
`START < x < ONE`; for `ONE` both are `ONE` (44_hdr_tonemapper.md R203, POW_FAITHFUL, POW_ONE). -/
def powEnds (fw : FloatWidth) (mag : Nat) : Nat × Nat :=
  if 2 ^ unitExp fw ≤ mag then (2 ^ unitExp fw, 2 ^ unitExp fw)
  else if powNearBelow fw mag (powFloor fw mag) then
    (fixedToMag fw (powFloor fw mag - 2 ^ fixedDrop fw (powFloor fw mag) / 2), fixedToMag fw (powFloor fw mag))
  else (fixedToMag fw (powFloor fw mag), fixedToMag fw (fixedNext fw (powFloor fw mag)))

/-- `POW(x, GI)` for `x` of magnitude `mag` with `START < x <= ONE`, the only calls the tone-mapper makes: one
of the two nearest values, the choice left free but non-decreasing in `x` (44_hdr_tonemapper.md R203,
POW_ONE, POW_RANGE, POW_MONO, POW_FAITHFUL; assumption log 4). -/
def pow (fw : FloatWidth) (mag : Nat) : Nat :=
  if Config.powThreshold fw (powEnds fw mag).1 ≤ mag then (powEnds fw mag).2 else (powEnds fw mag).1

/-- `TONE`'s last step for an integer or non-finite result: `NARROW` (44_hdr_tonemapper.md R210, R214). `draw`
numbers the free value the cautious instance draws. -/
def narrow (nw : Narrow) (draw : Nat) (n : Option Int) : Byte :=
  match n with
  | none =>
    match nw with
    | .wrap => 0
    | .anyValue => Config.openByte draw
  | some n =>
    if 0 ≤ n ∧ n ≤ 255 then BitVec.ofNat 8 n.toNat
    else
      match nw with
      | .wrap => BitVec.ofNat 8 (n % 256).toNat
      | .anyValue => Config.openByte draw

/-- Steps 3a and 3b: `t = fadd(fmul(out, C255), HALF)` and its integer part, none where `t` is not finite
(44_hdr_tonemapper.md R208, R209). -/
def scaleTrunc (fw : FloatWidth) (out : Datum) : Option Int :=
  match fadd fw (fmul fw out (toneC255 fw)) (toneHalf fw) with
  | .fin neg mag => some (truncUnits fw neg mag)
  | .nan => none
  | .inf _ => none

/-- The power branch after POW: `out = fsub(fmul(K1, p), K2)`, then steps 3a and 3b (44_hdr_tonemapper.md R207). -/
def powerTail (fw : FloatWidth) (p : Nat) : Option Int :=
  scaleTrunc fw (fsub fw (fmul fw (toneK1 fw) (.fin false p)) (toneK2 fw))

/-- The power branch for a sample of magnitude `mag`. Where both of POW's two values give the same integer it
is that integer; otherwise POW's free choice decides. It is `powerTail fw (pow fw mag)` (Laws/Tone.lean). -/
def powerBranch (fw : FloatWidth) (mag : Nat) : Option Int :=
  if powerTail fw (powEnds fw mag).1 = powerTail fw (powEnds fw mag).2 then powerTail fw (powEnds fw mag).1
  else powerTail fw (pow fw mag)

/-- Step 1, clamp: above `ONE` becomes `ONE`, no lower clamp (44_hdr_tonemapper.md R204). -/
def toneClamp (fw : FloatWidth) (v : Datum) : Datum := if fgt v (toneOne fw) then toneOne fw else v

/-- Steps 2 and 3 up to the integer, of a clamped sample (44_hdr_tonemapper.md R205 to R209). The power
branch is reached by positive finite samples only. -/
def toneInt (fw : FloatWidth) (vc : Datum) : Option Int :=
  if fle vc (toneStart fw) then scaleTrunc fw (fmul fw vc (toneSlope fw))
  else
    match vc with
    | .fin _ mag => powerBranch fw mag
    | .inf _ => none
    | .nan => none

/-- `TONE(v)` (44_hdr_tonemapper.md R213). -/
def tone (cfg : Config) (draw : Nat) (v : Datum) : Byte :=
  match v with
  | .nan => narrow cfg.narrow draw none
  | .inf neg => narrow cfg.narrow draw (toneInt cfg.fw (toneClamp cfg.fw (.inf neg)))
  | .fin neg mag => narrow cfg.narrow draw (toneInt cfg.fw (toneClamp cfg.fw (.fin neg mag)))

/-- The byte of the sample at byte `k` of source row `y`, as draw `draw` (44_hdr_tonemapper.md R211). -/
def toneAt (s : State) (y k draw : Nat) : Except Fault Byte := do
  let bits ← sampleBits s y k
  .ok (tone s.cfg draw (Datum.ofBits s.cfg.fw bits))

/-- The free values drawn by one tone-mapped pixel: three under NARROW = any value, none under wrap. -/
def toneDraws (s : State) : Nat :=
  match s.cfg.narrow with
  | .wrap => s.draws
  | .anyValue => s.draws + 3

/-- The triple of a float pixel whose red sample is at byte `k`; the sample after blue, alpha, is not read
(44_hdr_tonemapper.md R211, R212). -/
def toneTriple (s : State) (y k : Nat) : Except Fault Rgb := do
  let r ← toneAt s y k s.draws
  let g ← toneAt s y (k + sampleBytes s.cfg.fw) (s.draws + 1)
  let b ← toneAt s y (k + 2 * sampleBytes s.cfg.fw) (s.draws + 2)
  .ok ⟨r, g, b⟩

end Sys2Proof.Machine
end

