-- ==== Sys2Proof/Machine/Sequencer.lean ====
section
/-! DEFINITION. The pixel sequencer: what a converting operation does in each phase of its run, over the
operation's per-pixel step (45_dispatcher_sequencer.md R236, R252 to R258). -/

namespace Sys2Proof.Machine

/-- What the reads of a per-pixel step give: a triple and the draws made so far, or a failed palette guard
(41_palette_unpacker.md R144). -/
inductive Pixel where
  | rgb (p : Rgb) (draws : Nat)
  | badIndex
deriving DecidableEq, Repr

/-- The per-pixel reads of an operation at row `y`, pixel `x`. -/
abbrev PixelFn := State → Nat → Nat → Except Fault Pixel

/-- The allocation request: the destination's masks, and ALLOC outstanding (45_dispatcher_sequencer.md R236). -/
def allocRequest (s : State) : State :=
  let r := channelMask (offR s.cfg.layout)
  let g := channelMask (offG s.cfg.layout)
  let b := channelMask (offB s.cfg.layout)
  atPhase .allocWait { s with
    dst := { s.dst with rmask := r, gmask := g, bmask := b }
    svcOut := some (.alloc s.src.width s.src.height 24 r g b) }

/-- A match in SELECT: OP holds the operation, conversion begins at (0,0) (45_dispatcher_sequencer.md R252). -/
def selectOp (op : Op) (s : State) : State := atPhase .convert { s with op := some op }

/-- A pixel converted: memory written, the column one further (45_dispatcher_sequencer.md R255). -/
def pixelDone (mem : Memory) (draws : Nat) (s : State) : State :=
  { s with mem := mem, seqCol := s.seqCol + 1, draws := draws }

/-- The end of a row (45_dispatcher_sequencer.md R254). -/
def rowEnd (s : State) : State := { s with seqRow := s.seqRow + 1, seqCol := 0 }

/-- The pixel step at (SEQ_ROW, SEQ_COL): reads, then PutPixel; a failed guard raises Fail(PALETTE_INDEX)
with nothing of the pixel written (45_dispatcher_sequencer.md R255, R256). -/
def pixelStep (pix : PixelFn) (s : State) : Result :=
  match pix s s.seqRow.toNat s.seqCol.toNat with
  | .error f => .fault f
  | .ok .badIndex => .next (raiseFail .paletteIndex s)
  | .ok (.rgb p draws) =>
    match putPixel s s.seqRow.toNat s.seqCol.toNat p with
    | .error f => .fault f
    | .ok mem => .next (pixelDone mem draws s)

/-- One step in CONVERT: the end (R257, R258), a pixel (R255, R256) or the end of a row (R254). Past the
bitmap no rule is enabled. -/
def convertStep (pix : PixelFn) (s : State) : Result :=
  if s.seqRow = s.src.height then .next (success s)
  else if s.seqRow.toNat < s.src.height.toNat then
    if s.seqCol.toNat < s.src.width.toNat then pixelStep pix s
    else if s.seqCol = s.src.width then .next (rowEnd s)
    else .fault .noTransition
  else .fault .noTransition

/-- The core's step of a run whose dispatch word selects the converting operation `op`. In IDLE and while a
request is outstanding the core takes no step (45_dispatcher_sequencer.md R245, 60_exceptions.md R304). -/
def convertingStep (op : Op) (pix : PixelFn) (s : State) : Result :=
  match s.status.phase with
  | .check => .next (allocRequest s)
  | .select => .next (selectOp op s)
  | .convert => convertStep pix s
  | .idle | .cloneWait | .allocWait | .metaWait | .freeWait => .next s

end Sys2Proof.Machine
end

