-- ==== Sys2Proof/Machine/Control.lean ====
section
/-! DEFINITION. The Format Dispatcher's own instructions: START, REJECT_NULL, CLONE24
(45_dispatcher_sequencer.md R231, R233, R235). -/

namespace Sys2Proof.Machine

/-- START: accepted while IDLE; "The same write while PHASE != IDLE does nothing"
(45_dispatcher_sequencer.md R231). -/
def execStart (s : State) : Result :=
  match s.status.phase with
  | .idle => .next (startRun s)
  | .check | .cloneWait | .allocWait | .metaWait | .select | .convert | .freeWait => .next s

/-- REJECT_NULL: Fail(NULL_SOURCE) at CHECK (45_dispatcher_sequencer.md R233). Elsewhere in a run an absent
source has no rule; in IDLE and while a request is outstanding the core takes no step. -/
def execRejectNull (s : State) : Result :=
  match s.status.phase with
  | .check => .next (raiseFail .nullSource s)
  | .select | .convert => .fault .noTransition
  | .idle | .cloneWait | .allocWait | .metaWait | .freeWait => .next s

/-- The CLONE request (45_dispatcher_sequencer.md R235). -/
def cloneRequest (s : State) : State :=
  atPhase .cloneWait { s with svcOut := some (.clone s.src.handle) }

/-- CLONE24: the CLONE request at CHECK, no pixel step; the run goes on with the answer
(45_dispatcher_sequencer.md R235, R247, R248). SELECT and CONVERT are never reached with this dispatch word
(R252): no rule is enabled there. -/
def execClone24 (s : State) : Result :=
  match s.status.phase with
  | .check => .next (cloneRequest s)
  | .select | .convert => .fault .noTransition
  | .idle | .cloneWait | .allocWait | .metaWait | .freeWait => .next s

end Sys2Proof.Machine
end

