-- ==== Sys2Proof/Machine/Direct.lean ====
section
/-! DEFINITION. The Direct Channel Copier: COPY32, TRUNC_RGB16, TRUNC_RGBA16 (43_direct_copier.md). -/

namespace Sys2Proof.Machine

/-- `HI8(c) = c >> 8` (43_direct_copier.md R184). -/
def hi8 (c : Nat) : Byte := BitVec.ofNat 8 (c >>> 8)

/-- The high bytes of the three 16-bit channels from byte `k` of row `y`; the channel after blue, alpha, is
not read (43_direct_copier.md R182, R183). -/
def truncTriple (s : State) (y k : Nat) : Except Fault Rgb := do
  let r ← ch16 s y k
  let g ← ch16 s y (k + 2)
  let b ← ch16 s y (k + 4)
  .ok ⟨hi8 r, hi8 g, hi8 b⟩

/-- The reads of COPY32 (43_direct_copier.md R181). -/
def pixelCopy32 : PixelFn := fun s y x => do
  let p ← pix32 s y x
  .ok (.rgb p s.draws)

/-- The reads of TRUNC_RGB16 (43_direct_copier.md R182). -/
def pixelTruncRgb16 : PixelFn := fun s y x => do
  let p ← truncTriple s y (6 * x)
  .ok (.rgb p s.draws)

/-- The reads of TRUNC_RGBA16 (43_direct_copier.md R183). -/
def pixelTruncRgba16 : PixelFn := fun s y x => do
  let p ← truncTriple s y (8 * x)
  .ok (.rgb p s.draws)

/-- COPY32 (43_direct_copier.md R181). -/
def execCopy32 (s : State) : Result := convertingStep .copy32 pixelCopy32 s

/-- TRUNC_RGB16 (43_direct_copier.md R182). -/
def execTruncRgb16 (s : State) : Result := convertingStep .truncRgb16 pixelTruncRgb16 s

/-- TRUNC_RGBA16 (43_direct_copier.md R183). -/
def execTruncRgba16 (s : State) : Result := convertingStep .truncRgba16 pixelTruncRgba16 s

end Sys2Proof.Machine
end

