-- ==== Sys2Proof/Machine/Hdr.lean ====
section
/-! DEFINITION. The HDR Tone-Mapper's operations: TONE_RGBF, TONE_RGBAF (44_hdr_tonemapper.md R211, R212). -/

namespace Sys2Proof.Machine

/-- The reads of TONE_RGBF (44_hdr_tonemapper.md R211). -/
def pixelToneRgbf : PixelFn := fun s y x => do
  let p ← toneTriple s y (3 * sampleBytes s.cfg.fw * x)
  .ok (.rgb p (toneDraws s))

/-- The reads of TONE_RGBAF (44_hdr_tonemapper.md R212). -/
def pixelToneRgbaf : PixelFn := fun s y x => do
  let p ← toneTriple s y (4 * sampleBytes s.cfg.fw * x)
  .ok (.rgb p (toneDraws s))

/-- TONE_RGBF (44_hdr_tonemapper.md R211). -/
def execToneRgbf (s : State) : Result := convertingStep .toneRgbf pixelToneRgbf s

/-- TONE_RGBAF (44_hdr_tonemapper.md R212). -/
def execToneRgbaf (s : State) : Result := convertingStep .toneRgbaf pixelToneRgbaf s

end Sys2Proof.Machine
end

