-- ==== Sys2Proof/Machine/Packed16.lean ====
section
/-! DEFINITION. The Packed 16-bit Unpacker: UNPACK555, UNPACK565 (42_packed16_unpacker.md). -/

namespace Sys2Proof.Machine

/-- `SCALE5(c) = (c * 255) div 31` (42_packed16_unpacker.md R164). -/
def scale5 (c : Nat) : Nat := c * 255 / 31

/-- `SCALE6(c) = (c * 255) div 63` (42_packed16_unpacker.md R164). -/
def scale6 (c : Nat) : Nat := c * 255 / 63

/-- The triple of a 5-5-5 word (42_packed16_unpacker.md R162). -/
def rgb555 (w : Nat) : Rgb :=
  ⟨BitVec.ofNat 8 (scale5 (r555 w)), BitVec.ofNat 8 (scale5 (g555 w)), BitVec.ofNat 8 (scale5 (b555 w))⟩

/-- The triple of a 5-6-5 word (42_packed16_unpacker.md R163). -/
def rgb565 (w : Nat) : Rgb :=
  ⟨BitVec.ofNat 8 (scale5 (r565 w)), BitVec.ofNat 8 (scale6 (g565 w)), BitVec.ofNat 8 (scale5 (b565 w))⟩

/-- The reads of UNPACK555 (42_packed16_unpacker.md R162). -/
def pixelUnpack555 : PixelFn := fun s y x => do
  let w ← word16 s y x
  .ok (.rgb (rgb555 w) s.draws)

/-- The reads of UNPACK565 (42_packed16_unpacker.md R163). -/
def pixelUnpack565 : PixelFn := fun s y x => do
  let w ← word16 s y x
  .ok (.rgb (rgb565 w) s.draws)

/-- UNPACK555 (42_packed16_unpacker.md R162). -/
def execUnpack555 (s : State) : Result := convertingStep .unpack555 pixelUnpack555 s

/-- UNPACK565 (42_packed16_unpacker.md R163). -/
def execUnpack565 (s : State) : Result := convertingStep .unpack565 pixelUnpack565 s

end Sys2Proof.Machine
end

