-- ==== Sys2Proof/Machine/Palette.lean ====
section
/-! DEFINITION. The Palette-Indexed Unpacker: UNPACK1, UNPACK4, UNPACK8 (41_palette_unpacker.md). -/

namespace Sys2Proof.Machine

/-- `PLEN = min(LEN, 256)` with `LEN = PAL_LEN[8:0]` (10_state.md R30). -/
def palLen (s : State) : Nat := min (s.src.palLen.toNat % 512) 256

/-- The colours of a palette entry: RED[23:16], GREEN[15:8], BLUE[7:0] (10_state.md R45). -/
def entryRgb (e : BitVec 24) : Rgb :=
  ⟨BitVec.ofNat 8 (e.toNat / 65536), BitVec.ofNat 8 (e.toNat / 256), BitVec.ofNat 8 e.toNat⟩

/-- `Lookup(idx)` with its guard (41_palette_unpacker.md R144). -/
def lookup (s : State) (idx : Nat) : Pixel :=
  if palLen s ≤ idx then .badIndex
  else .rgb (entryRgb (s.palette.read s.draws idx)) (s.palette.drawsAfter s.draws idx)

/-- The reads of UNPACK1 (41_palette_unpacker.md R141). -/
def pixelUnpack1 : PixelFn := fun s y x => do
  let idx ← idx1 s y x
  .ok (lookup s idx)

/-- The reads of UNPACK4 (41_palette_unpacker.md R142). -/
def pixelUnpack4 : PixelFn := fun s y x => do
  let idx ← idx4 s y x
  .ok (lookup s idx)

/-- The reads of UNPACK8 (41_palette_unpacker.md R143). -/
def pixelUnpack8 : PixelFn := fun s y x => do
  let idx ← idx8 s y x
  .ok (lookup s idx)

/-- UNPACK1 (41_palette_unpacker.md R141). -/
def execUnpack1 (s : State) : Result := convertingStep .unpack1 pixelUnpack1 s

/-- UNPACK4 (41_palette_unpacker.md R142). -/
def execUnpack4 (s : State) : Result := convertingStep .unpack4 pixelUnpack4 s

/-- UNPACK8 (41_palette_unpacker.md R143). -/
def execUnpack8 (s : State) : Result := convertingStep .unpack8 pixelUnpack8 s

end Sys2Proof.Machine
end

