-- ==== Sys2Proof/Machine/Dispatch.lean ====
section
/-! DEFINITION. One arm per instruction: START is the host command, the other twelve are the core's step of
a run whose dispatch word selects the row (30_encoding.md R115). -/

namespace Sys2Proof.Machine

def exec (i : Instr) (s : State) : Host.Outcome State Fault Refusal :=
  match i with
  | .rejectNull _ _ _ => Sys2Proof.Machine.execRejectNull s
  | .unpack1 _ => Sys2Proof.Machine.execUnpack1 s
  | .unpack4 _ => Sys2Proof.Machine.execUnpack4 s
  | .unpack8 _ => Sys2Proof.Machine.execUnpack8 s
  | .unpack555 => Sys2Proof.Machine.execUnpack555 s
  | .unpack565 => Sys2Proof.Machine.execUnpack565 s
  | .clone24 _ => Sys2Proof.Machine.execClone24 s
  | .copy32 _ => Sys2Proof.Machine.execCopy32 s
  | .truncRgb16 _ _ => Sys2Proof.Machine.execTruncRgb16 s
  | .truncRgba16 _ _ => Sys2Proof.Machine.execTruncRgba16 s
  | .toneRgbf _ _ => Sys2Proof.Machine.execToneRgbf s
  | .toneRgbaf _ _ => Sys2Proof.Machine.execToneRgbaf s
  | .start _ => Sys2Proof.Machine.execStart s

end Sys2Proof.Machine
end

