-- ==== Sys2Proof/Machine/Registers.lean ====
section
/-! DEFINITION. The register bank as the host sees it: offsets, reads, writes (10_state.md R20 to R39, R44
to R47). -/

namespace Sys2Proof.Machine

/-- The registers of the bank (10_state.md R20). -/
inductive Reg where
  | ctrl | status
  | srcFmt | srcHandle | srcWidth | srcHeight | srcPitch | srcBase | srcRmask | srcGmask | srcBmask
  | palLen
  | dstFmt | dstHandle | dstWidth | dstHeight | dstPitch | dstBase | dstRmask | dstGmask | dstBmask
  | seqRow | seqCol
  | palette (i : Nat)
deriving DecidableEq, Repr

/-- The byte offset of a register (10_state.md R20). -/
def Reg.offset : Reg → Nat
  | .ctrl => 0x000
  | .status => 0x004
  | .srcFmt => 0x008
  | .srcHandle => 0x00C
  | .srcWidth => 0x010
  | .srcHeight => 0x014
  | .srcPitch => 0x018
  | .srcBase => 0x01C
  | .srcRmask => 0x020
  | .srcGmask => 0x024
  | .srcBmask => 0x028
  | .palLen => 0x02C
  | .dstFmt => 0x040
  | .dstHandle => 0x044
  | .dstWidth => 0x048
  | .dstHeight => 0x04C
  | .dstPitch => 0x050
  | .dstBase => 0x054
  | .dstRmask => 0x058
  | .dstGmask => 0x05C
  | .dstBmask => 0x060
  | .seqRow => 0x070
  | .seqCol => 0x074
  | .palette i => 0x400 + 4 * i

/-- The registers below the palette. -/
def Reg.bank : List Reg :=
  [.ctrl, .status, .srcFmt, .srcHandle, .srcWidth, .srcHeight, .srcPitch, .srcBase, .srcRmask, .srcGmask,
   .srcBmask, .palLen, .dstFmt, .dstHandle, .dstWidth, .dstHeight, .dstPitch, .dstBase, .dstRmask,
   .dstGmask, .dstBmask, .seqRow, .seqCol]

/-- An offset the interface has: a multiple of 4 in 0x000..0x7FC (30_encoding.md R104). -/
def offsetOk (offset : Nat) : Bool := decide (offset % 4 = 0) && decide (offset ≤ 0x7FC)

/-- The register at an offset, none where the offset is unmapped (10_state.md R20, R39). -/
def Reg.ofOffset (offset : Nat) : Option Reg :=
  if offset % 4 ≠ 0 then none
  else if 0x400 ≤ offset then (if offset ≤ 0x7FC then some (.palette ((offset - 0x400) / 4)) else none)
  else Reg.bank.find? (fun r => r.offset == offset)

/-- What a host read of a register returns (10_state.md R20 to R48): CTRL reads 0, a palette entry reads
its 24 bits with bits 31:24 zero. -/
def regRead (s : State) : Reg → Word
  | .ctrl => 0
  | .status => s.status.word
  | .srcFmt => s.src.fmt
  | .srcHandle => s.src.handle
  | .srcWidth => s.src.width
  | .srcHeight => s.src.height
  | .srcPitch => s.src.pitch
  | .srcBase => s.src.base
  | .srcRmask => s.src.rmask
  | .srcGmask => s.src.gmask
  | .srcBmask => s.src.bmask
  | .palLen => s.src.palLen
  | .dstFmt => s.dst.fmt
  | .dstHandle => s.dst.handle
  | .dstWidth => s.dst.width
  | .dstHeight => s.dst.height
  | .dstPitch => s.dst.pitch
  | .dstBase => s.dst.base
  | .dstRmask => s.dst.rmask
  | .dstGmask => s.dst.gmask
  | .dstBmask => s.dst.bmask
  | .seqRow => s.seqRow
  | .seqCol => s.seqCol
  | .palette i => (s.palette.read s.draws i).setWidth 32

/-- How many free values have been drawn after a host read: only a never-written palette entry draws one. -/
def drawsAfterRead (s : State) : Reg → Nat
  | .palette i => s.palette.drawsAfter s.draws i
  | _ => s.draws

/-- The source registers after a host write to one of them, reserved bits dropped (10_state.md R23, R30, R39). -/
def srcWrite (r : SrcRegs) (d : Word) : Reg → SrcRegs
  | .srcFmt => { r with fmt := d &&& 0x0000FFF1 }
  | .srcHandle => { r with handle := d }
  | .srcWidth => { r with width := d }
  | .srcHeight => { r with height := d }
  | .srcPitch => { r with pitch := d }
  | .srcBase => { r with base := d }
  | .srcRmask => { r with rmask := d }
  | .srcGmask => { r with gmask := d }
  | .srcBmask => { r with bmask := d }
  | .palLen => { r with palLen := d &&& 0x000001FF }
  | _ => r

/-- The palette after a host write: bits 31:24 of an entry are ignored (10_state.md R45). -/
def paletteWrite (p : Palette) (d : Word) : Reg → Palette
  | .palette i => p.put i (d.setWidth 24)
  | _ => p

/-- A host write to a register other than CTRL. While BUSY every write is ignored (10_state.md R38); a
write to a read-only register always is (R22, R32 to R34, R40). -/
def regWrite (r : Reg) (d : Word) (s : State) : State :=
  if s.status.busy then s
  else { s with src := srcWrite s.src d r, palette := paletteWrite s.palette d r }

end Sys2Proof.Machine
end

