-- ==== Sys2Proof/Machine/Service.lean ====
section
/-! DEFINITION. The environment's side: its bitmaps and metadata, what a GRANT promises, and the answer to
each service request (45_dispatcher_sequencer.md R245 to R251). -/

namespace Sys2Proof.Machine

/-- The bitmap of a handle, if the environment holds one. -/
def findBitmap (bs : List Bitmap) (h : Word) : Option Bitmap := bs.find? (fun b => b.handle == h)

/-- The environment's bitmaps with `b` added; a bitmap of the same handle is replaced (assumption log 14). -/
def putBitmap : List Bitmap → Bitmap → List Bitmap
  | [], b => [b]
  | b' :: rest, b =>
    if b.handle.toNat < b'.handle.toNat then b :: b' :: rest
    else if b.handle = b'.handle then b :: rest
    else b' :: putBitmap rest b

/-- The environment's bitmaps without the one of handle `h` (45_dispatcher_sequencer.md R250). -/
def dropBitmap (bs : List Bitmap) (h : Word) : List Bitmap := bs.filter (fun b => b.handle != h)

/-- `meta(h)`: the token of a bitmap the environment made for the core, else an opaque one (10_state.md R51). -/
def metaOf (s : State) (h : Word) : Nat :=
  match findBitmap s.bitmaps h with
  | some b => b.info
  | none => Config.initialMeta h

/-- `meta(dst) <- meta(src)` (45_dispatcher_sequencer.md R249). -/
def copyMeta (s : State) (dst src : Word) : List Bitmap :=
  s.bitmaps.map (fun b => if b.handle = dst then { b with info := metaOf s src } else b)

/-- Source row `y` shares no byte with the block of `height` rows of `pitch` bytes from `base`: the first of the two
ends stands at or below the last of the two starts, as it does wherever row or block is empty
(45_dispatcher_sequencer.md R246, R260, 70_reset_and_hazards.md R320; assumption log 11). -/
def rowApart (s : State) (base pitch : Word) (y : Nat) : Bool :=
  decide (min (srcAddr s y 0 + rowSpan s) (base.toNat + s.src.height.toNat * pitch.toNat) ≤
    max (srcAddr s y 0) base.toNat)

/-- What a GRANT promises of the place it grants: `pitch >= 3 * width`, all rows inside pixel memory,
disjoint from every source row (45_dispatcher_sequencer.md R246). -/
def promiseKept (s : State) (base pitch : Word) : Bool :=
  decide (3 * s.src.width.toNat ≤ pitch.toNat) &&
    decide (base.toNat + s.src.height.toNat * pitch.toNat ≤ memoryBytes) &&
    (List.range s.src.height.toNat).all (rowApart s base pitch)

/-- The result registers a grant fixes (45_dispatcher_sequencer.md R246, R247). -/
def grantDst (s : State) (h base pitch : Word) : DstRegs :=
  { s.dst with handle := h, base := base, pitch := pitch, width := s.src.width, height := s.src.height }

/-- The bitmap an ALLOC grant makes: STD, depth 24, the requested masks and dimensions; its metadata before
METACOPY is a free value (45_dispatcher_sequencer.md R246; assumption log 14). -/
def allocBitmap (s : State) (h base pitch : Word) : Bitmap :=
  ⟨h, 1, 24, s.src.width, s.src.height, base, pitch, s.dst.rmask, s.dst.gmask, s.dst.bmask,
   Config.freshMeta s.draws⟩

/-- ALLOC answered GRANT (45_dispatcher_sequencer.md R246). -/
def allocGranted (h base pitch : Word) (s : State) : State :=
  atPhase .metaWait { s with
    dst := grantDst s h base pitch
    svcOut := some (.metacopy h s.src.handle)
    bitmaps := putBitmap s.bitmaps (allocBitmap s h base pitch)
    draws := s.draws + 1 }

/-- The result registers of a granted CLONE: the masks are the source's (45_dispatcher_sequencer.md R247). -/
def cloneDst (s : State) (h base pitch : Word) : DstRegs :=
  { grantDst s h base pitch with rmask := s.src.rmask, gmask := s.src.gmask, bmask := s.src.bmask }

/-- The duplicate bitmap: same tag, depth, dimensions, masks and metadata (45_dispatcher_sequencer.md R247). -/
def cloneBitmap (s : State) (h base pitch : Word) : Bitmap :=
  ⟨h, 1, 24, s.src.width, s.src.height, base, pitch, s.src.rmask, s.src.gmask, s.src.bmask,
   metaOf s s.src.handle⟩

/-- The first `n` bytes of source row `y` duplicated to row `y` of the block at `base`; the bytes are read
from the memory of `s` (45_dispatcher_sequencer.md R247). -/
def cloneRow (s : State) (base pitch : Word) (y : Nat) : Nat → Memory → Except Fault Memory
  | 0, m => .ok m
  | n + 1, m => do
    let m' ← cloneRow s base pitch y n m
    let b ← srcByte s y n
    .ok (m'.put (base.toNat + y * pitch.toNat + n) b)

/-- The first `n` rows duplicated, `3 * width` bytes each (45_dispatcher_sequencer.md R247). -/
def cloneRows (s : State) (base pitch : Word) : Nat → Memory → Except Fault Memory
  | 0, m => .ok m
  | n + 1, m => do
    let m' ← cloneRows s base pitch n m
    cloneRow s base pitch n (3 * s.src.width.toNat) m'

/-- CLONE answered GRANT, the duplicate made in `mem`: the continuation is Success
(45_dispatcher_sequencer.md R247). -/
def cloneGranted (mem : Memory) (h base pitch : Word) (s : State) : State :=
  success { s with
    dst := cloneDst s h base pitch
    mem := mem
    bitmaps := putBitmap s.bitmaps (cloneBitmap s h base pitch) }

/-- METACOPY acknowledged (45_dispatcher_sequencer.md R249). -/
def metaCopied (dst src : Word) (s : State) : State :=
  atPhase .select { s with svcOut := none, bitmaps := copyMeta s dst src }

/-- FREE acknowledged: the bitmap ceases to exist, the pending failure completes (45_dispatcher_sequencer.md R250). -/
def freed (dst : Word) (c : Cause) (s : State) : State :=
  failDone c { s with bitmaps := dropBitmap s.bitmaps dst }

/-- A denied allocation or duplication (45_dispatcher_sequencer.md R246, R248). -/
def denied (s : State) : State := raiseFail .allocFailed { s with svcOut := none }

/-- The environment's answer to the outstanding request, with the continuation of its rule
(45_dispatcher_sequencer.md R246 to R250). An answer that does not fit is refused (R245, U15), a GRANT that
breaks its promises is refused (U14, U16). -/
def answerStep (a : Answer) (s : State) : Result :=
  match s.status.phase, s.svcOut, a with
  | .allocWait, some (.alloc _ _ _ _ _ _), .grant h base pitch =>
    if promiseKept s base pitch then .next (allocGranted h base pitch s)
    else .refused .grantBreaksPromise
  | .allocWait, some (.alloc _ _ _ _ _ _), .deny => .next (denied s)
  | .cloneWait, some (.clone _), .grant h base pitch =>
    if promiseKept s base pitch then
      match cloneRows s base pitch s.src.height.toNat s.mem with
      | .error f => .fault f
      | .ok mem => .next (cloneGranted mem h base pitch s)
    else .refused .grantBreaksPromise
  | .cloneWait, some (.clone _), .deny => .next (denied s)
  | .metaWait, some (.metacopy dst src), .ack => .next (metaCopied dst src s)
  | .freeWait, some (.free dst), .ack =>
    match s.pend with
    | some c => .next (freed dst c s)
    | none => .fault .noTransition
  | _, _, _ => .refused .answerDoesNotFit

end Sys2Proof.Machine
end

