-- ==== Sys2Proof/Machine/Moves.lean ====
section
/-! DEFINITION. One move of one of the three parties, and how the next instruction is put where the step
takes it from (45_dispatcher_sequencer.md R230, 30_encoding.md R121, R122). -/

namespace Sys2Proof.Machine

/-- The instruction whose row is the converting operation; the open fields are 0. -/
def Op.instr : Op → Instr
  | .unpack1 => .unpack1 false
  | .unpack4 => .unpack4 false
  | .unpack8 => .unpack8 false
  | .unpack555 => .unpack555
  | .unpack565 => .unpack565
  | .copy32 => .copy32 false
  | .truncRgb16 => .truncRgb16 0 false
  | .truncRgba16 => .truncRgba16 0 false
  | .toneRgbf => .toneRgbf 0 false
  | .toneRgbaf => .toneRgbaf 0 false

/-- CHECK with a dispatch word that selects no row: an unsupported tag fails, an unsupported depth goes on
to the allocation (45_dispatcher_sequencer.md R234, R236). -/
def checkUnmatched (e : DecodeError) (s : State) : State :=
  match e with
  | .unsupportedType => raiseFail .unsupportedType s
  | .unsupportedDepth | .noStart => allocRequest s

/-- The core's step (45_dispatcher_sequencer.md R232, R252, R253, R255). In CHECK and SELECT the instruction
is what the dispatch word selects, in CONVERT it is OP; in IDLE and while a request is outstanding the core
takes no step (R245, 60_exceptions.md R304). -/
def coreStep (s : State) : Result :=
  match s.status.phase with
  | .check =>
    match decode .dispatch (dispatchWord s) with
    | .ok i => exec i s
    | .error e => .next (checkUnmatched e s)
  | .select =>
    match decode .dispatch (dispatchWord s) with
    | .ok i => exec i s
    | .error _ => .next (raiseFail .unsupportedDepth s)
  | .convert =>
    match s.op with
    | some op => exec op.instr s
    | none => .fault .noTransition
  | .idle | .cloneWait | .allocWait | .metaWait | .freeWait => .next s

/-- A host write (30_encoding.md R104). Bit 0 of the data written to CTRL is START; other CTRL data, and a
write to an unmapped offset, have no effect (10_state.md R21, R39). -/
def hostWrite (offset : Nat) (d : Word) (s : State) : Result :=
  if offsetOk offset then
    match Reg.ofOffset offset with
    | none => .next s
    | some .ctrl =>
      match decode .ctrl d with
      | .ok i => exec i s
      | .error _ => .next s
    | some r => .next (regWrite r d s)
  else .refused (.registerAccess offset)

/-- A host read: the value is kept in `rdData`; an unmapped offset reads 0 (10_state.md R38, R39). -/
def hostRead (offset : Nat) (s : State) : Result :=
  if offsetOk offset then
    match Reg.ofOffset offset with
    | none => .next { s with rdData := some 0 }
    | some r => .next { s with rdData := some (regRead s r), draws := drawsAfterRead s r }
  else .refused (.registerAccess offset)

/-- The address is a byte of a source row (20_memory.md R66, R79; assumption log 11). -/
def inSource (s : State) (a : Nat) : Bool :=
  decide (rowSpan s ≠ 0) && (List.range s.src.height.toNat).any
    (fun y => decide (srcAddr s y 0 ≤ a) && decide (a < srcAddr s y 0 + rowSpan s))

/-- The address is a byte of the granted destination's rows (20_memory.md R79). -/
def inDest (s : State) (a : Nat) : Bool :=
  decide (s.dst.base.toNat ≤ a) && decide (a < s.dst.base.toNat + s.dst.height.toNat * s.dst.pitch.toNat)

/-- The host or the environment writes a byte of pixel memory; not a source or destination row of a run in
progress (20_memory.md R79, U11). -/
def memoryWrite (a : Nat) (b : Byte) (s : State) : Result :=
  if memoryBytes ≤ a then .refused (.memoryAddress a)
  else if s.status.busy && (inSource s a || inDest s a) then .refused (.hostTouchesRun a)
  else .next { s with mem := s.mem.put a b }

/-- The host reads a byte of pixel memory into `rdData`; not a destination row of a run in progress
(20_memory.md R79, U11). -/
def memoryRead (a : Nat) (s : State) : Result :=
  if memoryBytes ≤ a then .refused (.memoryAddress a)
  else if s.status.busy && inDest s a then .refused (.hostTouchesRun a)
  else .next { s with rdData := some ((s.mem.get a).setWidth 32) }

/-- The reset input (70_reset_and_hazards.md R310): every register and the hidden state cleared; the
palette, pixel memory and the environment's state are not. During a run it is refused (R312, U13). -/
def hardReset (s : State) : Result :=
  match s.status.phase with
  | .idle =>
    .next { s with
      status := Status.reset
      src := SrcRegs.reset
      dst := DstRegs.zero
      seqRow := 0
      seqCol := 0
      op := none
      pend := none
      svcOut := none }
  | .check | .cloneWait | .allocWait | .metaWait | .select | .convert | .freeWait => .refused .resetDuringRun

/-- One move. -/
def moveStep (m : Move) (s : State) : Result :=
  match m with
  | .wr offset data => hostWrite offset data s
  | .rd offset => hostRead offset s
  | .ans answer => answerStep answer s
  | .core => coreStep s
  | .memWr addr byte => memoryWrite addr byte s
  | .memRd addr => memoryRead addr s
  | .reset => hardReset s

/-- The next step of the machine: the oldest move still to come, or, with none, the core's
(assumption log 1, 2). -/
def nextStep (s : State) : Result :=
  match s.moves with
  | [] => coreStep s
  | m :: rest => moveStep m { s with moves := rest }

/-- The pseudo-commands of host programs (30_encoding.md R122). `WAIT` is a number of polls, each a core step
and a read of STATUS. -/
def cmdStart : List Move := [.wr 0x000 0x00000001]
def cmdSetFmt (p t b : Nat) : List Move := [.wr 0x008 (BitVec.ofNat 32 (p + 16 * t + 256 * b))]
def cmdLoadPal (i r g b : Nat) : List Move :=
  [.wr (0x400 + 4 * i) (BitVec.ofNat 32 (65536 * r + 256 * g + b))]
def cmdSetMasks (r g b : Word) : List Move := [.wr 0x020 r, .wr 0x024 g, .wr 0x028 b]
def cmdPoll : Nat → List Move
  | 0 => []
  | n + 1 => .core :: .rd 0x004 :: cmdPoll n

/-- The source registers that make the dispatch word agree with `w` on its defined bits: SRC_FMT from bits
15:0, the 5-6-5 constants for bit 16 (30_encoding.md R113, R114). -/
def describe (r : SrcRegs) (w : Word) (masked : Bool) : SrcRegs :=
  if field w 16 1 = 1 then
    { r with fmt := w &&& 0x0000FFF1, rmask := 0x0000F800, gmask := 0x000007E0, bmask := 0x0000001F }
  else if masked then { r with fmt := w &&& 0x0000FFF1, rmask := 0, gmask := 0, bmask := 0 }
  else { r with fmt := w &&& 0x0000FFF1 }

/-- The state in which the next step runs the instruction of a table word: START is the host's next
command; any other is the dispatch word of a run just started, whose first core step is next
(assumption log 20). -/
def placeWord (s : State) (nbits w : Nat) : State :=
  match decodeTableWord nbits w with
  | some (.start _) => { s with moves := .wr 0x000 (tableWord nbits w) :: s.moves }
  | _ =>
    startRun { s with
      src := describe s.src (tableWord nbits w) (is565 s)
      moves := .core :: s.moves }

end Sys2Proof.Machine
end

