-- ==== Sys2Proof/Machine/Step.lean ====
section
/-! DEFINITION. One step of the machine, and a table word placed where the step takes its next instruction
from. -/

namespace Sys2Proof.Machine

/-- One step: the oldest move still to come, or the core's step (45_dispatcher_sequencer.md R230). -/
def step (s : State) : Host.Outcome State Fault Refusal := nextStep s

/-- `s` with the instruction of a table word placed so that the very next step runs it (assumption log 20). -/
def State.withFetchWord (s : State) (nbits w : Nat) : State := placeWord s nbits w

end Sys2Proof.Machine
end

