-- ==== Sys2Proof/Safety.lean ====
section
/-! DEFINITION. What counts as a safe run, in the terms the claims use: the invariant of the machine, and
what a pixel step, a failure and a run leave. -/

namespace Sys2Proof.Machine

/-- The converting operation of an instruction, none for START, REJECT_NULL, CLONE24 (10_state.md R53). -/
def convertingOp : Instr → Option Op
  | .rejectNull _ _ _ => none
  | .unpack1 _ => some .unpack1
  | .unpack4 _ => some .unpack4
  | .unpack8 _ => some .unpack8
  | .unpack555 => some .unpack555
  | .unpack565 => some .unpack565
  | .clone24 _ => none
  | .copy32 _ => some .copy32
  | .truncRgb16 _ _ => some .truncRgb16
  | .truncRgba16 _ _ => some .truncRgba16
  | .toneRgbf _ _ => some .toneRgbf
  | .toneRgbaf _ _ => some .toneRgbaf
  | .start _ => none

/-- What the dispatch word selects, as a converting operation. -/
def selectedOp (s : State) : Option Op :=
  match decode .dispatch (dispatchWord s) with
  | .ok i => convertingOp i
  | .error _ => none

/-- The dispatch word is one that CHECK sends to the allocation: it selects a converting operation, or is a
STD word of unsupported depth (45_dispatcher_sequencer.md R236). -/
def goesToAlloc (s : State) : Bool :=
  match decode .dispatch (dispatchWord s) with
  | .ok i => (convertingOp i).isSome
  | .error .unsupportedDepth => true
  | .error .unsupportedType => false
  | .error .noStart => false

/-- The request that is outstanding in each phase (45_dispatcher_sequencer.md R235, R236, R246;
60_exceptions.md R291; 10_state.md R53). -/
def expectedRequest (s : State) : Option SvcRequest :=
  match s.status.phase with
  | .allocWait => some (.alloc s.src.width s.src.height 24 s.dst.rmask s.dst.gmask s.dst.bmask)
  | .cloneWait => some (.clone s.src.handle)
  | .metaWait => some (.metacopy s.dst.handle s.src.handle)
  | .freeWait => some (.free s.dst.handle)
  | .idle | .check | .select | .convert => none

/-- A phase of a run after the grant, in which a destination is held. -/
def holdsDest : Phase → Bool
  | .metaWait | .select | .convert | .freeWait => true
  | .idle | .check | .cloneWait | .allocWait => false

/-- A phase of a run before CONVERT. -/
def beforeConvert : Phase → Bool
  | .check | .cloneWait | .allocWait | .metaWait | .select => true
  | .idle | .convert | .freeWait => false

/-- The invariant of the machine. Every field is a statement of the spec about every state a run reaches. -/
structure Inv (s : State) : Prop where
  /-- Pixel memory is in its canonical form. -/
  memory : s.mem.wf = true
  /-- The palette is in its canonical form. -/
  palette : s.palette.wf = true
  /-- "BUSY = 1 exactly when PHASE != 0" (10_state.md R41). -/
  busy : s.status.busy = true ↔ s.status.phase ≠ .idle
  /-- START clears DONE; it is set again only at the end of the run (10_state.md R36). -/
  doneIdle : s.status.done = true → s.status.phase = .idle
  /-- "DONE = 0, FAIL = 1 never occurs" (10_state.md R36). -/
  failDone : s.status.fail = true → s.status.done = true
  /-- "0 when FAIL = 0" (10_state.md R22). -/
  cause : s.status.cause = .none ↔ s.status.fail = false
  /-- Reserved bits of SRC_FMT read 0 (10_state.md R23). -/
  srcFmt : s.src.fmt &&& 0x0000FFF1 = s.src.fmt
  /-- Reserved bits of PAL_LEN read 0 (10_state.md R30). -/
  palLen : s.src.palLen &&& 0x000001FF = s.src.palLen
  /-- DST_FMT is that of a result exactly after a successful run, else 0 (10_state.md R32). -/
  dstFmt : s.dst.fmt = if s.status.done = true ∧ s.status.fail = false then resultFmt else 0
  /-- After a failed run every DST register is 0 (45_dispatcher_sequencer.md R264). -/
  failed : s.status.fail = true → s.dst = DstRegs.zero
  /-- Exactly the request of the phase is outstanding (10_state.md R53, R55). -/
  request : s.svcOut = expectedRequest s
  /-- A failure is pending exactly in FREE_WAIT, and only a late one can be (60_exceptions.md R280). -/
  pend : if s.status.phase = .freeWait then s.pend = some .unsupportedDepth ∨ s.pend = some .paletteIndex
    else s.pend = none
  /-- OP is the selected operation in CONVERT, and none before SELECT and in IDLE (10_state.md R53). -/
  op : (s.status.phase = .convert → s.op.isSome = true ∧ s.op = selectedOp s) ∧
    (s.status.phase ≠ .convert → s.status.phase ≠ .freeWait → s.op = none)
  /-- The dispatch word of a run past CHECK's request is one that goes to the allocation. -/
  word : s.status.phase = .allocWait ∨ s.status.phase = .metaWait ∨ s.status.phase = .select →
    goesToAlloc s = true
  /-- Before CONVERT the position is (0,0) (10_state.md R40). -/
  seqZero : beforeConvert s.status.phase = true → s.seqRow = 0 ∧ s.seqCol = 0
  /-- "SEQ_ROW never exceeds SRC_HEIGHT and SEQ_COL never exceeds SRC_WIDTH" (10_state.md R43). -/
  seqBound : s.status.phase = .convert ∨ s.status.phase = .freeWait →
    s.seqRow.toNat ≤ s.src.height.toNat ∧ s.seqCol.toNat ≤ s.src.width.toNat
  /-- A held destination has the source's dimensions (10_state.md R33). -/
  dims : holdsDest s.status.phase = true → s.dst.width = s.src.width ∧ s.dst.height = s.src.height

/-- The sequencer stands at a pixel: the enabling condition of the pixel step (45_dispatcher_sequencer.md R255). -/
structure AtPixel (s : State) : Prop where
  convert : s.status.phase = .convert
  row : s.seqRow.toNat < s.src.height.toNat
  col : s.seqCol.toNat < s.src.width.toNat

/-- `t` is `s` with pixel (SEQ_ROW, SEQ_COL) of the destination written as `p`, the column one further and
`draws` free values drawn in all: every byte of memory but the pixel's three, and everything else, is as
before (40_channel_layout.md R131, 45_dispatcher_sequencer.md R255). -/
structure PixelWritten (s t : State) (p : Rgb) (draws : Nat) : Prop where
  /-- Red at `3x + OFF_R`. -/
  red : t.mem.get (dstAddr s s.seqRow.toNat (3 * s.seqCol.toNat + offR s.cfg.layout)) = p.r
  /-- Green at `3x + OFF_G`. -/
  green : t.mem.get (dstAddr s s.seqRow.toNat (3 * s.seqCol.toNat + offG s.cfg.layout)) = p.g
  /-- Blue at `3x + OFF_B`. -/
  blue : t.mem.get (dstAddr s s.seqRow.toNat (3 * s.seqCol.toNat + offB s.cfg.layout)) = p.b
  /-- No other byte of pixel memory changes. -/
  others : ∀ a, (∀ k, k < 3 → a ≠ dstAddr s s.seqRow.toNat (3 * s.seqCol.toNat + k)) →
    t.mem.get a = s.mem.get a
  /-- Nothing but memory, the column and the draws changes. -/
  rest : t = { s with mem := t.mem, seqCol := s.seqCol + 1, draws := draws }

/-- `t` is `s` after the failure entry with cause `c` while a destination is held: PEND, the FREE request and
the phase are set, everything else is as before (60_exceptions.md R291). -/
def Releasing (s t : State) (c : Cause) : Prop :=
  t = { s with
    status := { s.status with phase := .freeWait }
    pend := some c
    svcOut := some (.free s.dst.handle) }

/-- `t` is `s` after the completion of a failure with cause `c`: every DST register 0, the flags of a failed
run, hidden state none, everything else as before (60_exceptions.md R292). -/
def Failed (s t : State) (c : Cause) : Prop :=
  t = { s with
    status := ⟨false, true, true, c, .idle⟩
    dst := ⟨0, 0, 0, 0, 0, 0, 0, 0, 0⟩
    op := none
    pend := none
    svcOut := none }

/-- `t` is `s` after a successful end: DST_FMT, the flags of a result, hidden state none, everything else as
before (45_dispatcher_sequencer.md R258). -/
def Succeeded (s t : State) : Prop :=
  t = { s with
    status := ⟨false, true, false, .none, .idle⟩
    dst := { s.dst with fmt := 0x00001811 }
    op := none
    pend := none
    svcOut := none }

/-- The outcome of an indexed pixel step whose index is `idx`: with PLEN = min(LEN, 256), an index at or above
PLEN releases the destination with PALETTE_INDEX and writes nothing; an index below it writes the colours
RED[23:16], GREEN[15:8], BLUE[7:0] of the entry (41_palette_unpacker.md R144, R145, 10_state.md R45). An entry
nothing has written reads a free value, one more draw (assumption log 7). -/
def GuardedPixel (i : Instr) (s : State) (idx : Nat) : Prop :=
  (min (s.src.palLen.toNat % 512) 256 ≤ idx → ∃ t, exec i s = .next t ∧ Releasing s t .paletteIndex) ∧
  (idx < min (s.src.palLen.toNat % 512) 256 → ∃ t, exec i s = .next t ∧
    PixelWritten s t
      ⟨BitVec.ofNat 8 ((s.palette.read s.draws idx).toNat / 65536 % 256),
       BitVec.ofNat 8 ((s.palette.read s.draws idx).toNat / 256 % 256),
       BitVec.ofNat 8 ((s.palette.read s.draws idx).toNat % 256)⟩
      (s.palette.drawsAfter s.draws idx))

/-- Byte `k` of source row `y` as memory holds it, for an address inside pixel memory (20_memory.md R72). -/
def sourceByte (s : State) (y k : Nat) : Byte := s.mem.get (s.src.base.toNat + y * s.src.pitch.toNat + k)

/-- Byte `k` of source row `y` lies inside pixel memory (20_memory.md R74). -/
def sourceInside (s : State) (y k : Nat) : Prop :=
  s.src.base.toNat + y * s.src.pitch.toNat + k < 4294967296

/-- The last byte of the source row that pixel `x` is made of; alpha is none of them (30_encoding.md R105 to
R111). -/
def lastByte (fw : FloatWidth) (op : Op) (x : Nat) : Nat :=
  match op with
  | .unpack1 => x / 8
  | .unpack4 => x / 2
  | .unpack8 => x
  | .unpack555 | .unpack565 => 2 * x + 1
  | .copy32 => 4 * x + 2
  | .truncRgb16 => 6 * x + 5
  | .truncRgba16 => 8 * x + 5
  | .toneRgbf => 3 * sampleBytes fw * x + 3 * sampleBytes fw - 1
  | .toneRgbaf => 4 * sampleBytes fw * x + 3 * sampleBytes fw - 1

/-- The first byte of the source row that pixel `x` is made of (30_encoding.md R105 to R111). -/
def firstByte (fw : FloatWidth) (op : Op) (x : Nat) : Nat :=
  match op with
  | .unpack1 => x / 8
  | .unpack4 => x / 2
  | .unpack8 => x
  | .unpack555 | .unpack565 => 2 * x
  | .copy32 => 4 * x
  | .truncRgb16 => 6 * x
  | .truncRgba16 => 8 * x
  | .toneRgbf => 3 * sampleBytes fw * x
  | .toneRgbaf => 4 * sampleBytes fw * x

/-- The address is a byte of a source row, padding included, of a source that is present (20_memory.md R66, R79;
assumption log 11). -/
def sourceRowByte (s : State) (a : Nat) : Prop :=
  s.src.fmt.toNat % 2 = 1 ∧ ∃ y k, y < s.src.height.toNat ∧ (k < s.src.pitch.toNat ∨ k < rowBytes s) ∧
    a = s.src.base.toNat + y * s.src.pitch.toNat + k

/-- The address is a byte of a destination row, padding included (20_memory.md R66, R79). -/
def destRowByte (s : State) (a : Nat) : Prop :=
  ∃ y k, y < s.dst.height.toNat ∧ k < s.dst.pitch.toNat ∧ a = s.dst.base.toNat + y * s.dst.pitch.toNat + k

/-- The output pixel at (SEQ_ROW, SEQ_COL) lies inside pixel memory (20_memory.md R73, R74). -/
def outputInside (s : State) : Prop :=
  s.dst.base.toNat + s.seqRow.toNat * s.dst.pitch.toNat + (3 * s.seqCol.toNat + 2) < 4294967296

/-- The encoding of the sample at byte `k` of source row `y`: FW/8 bytes, little-endian (20_memory.md R62). -/
def sampleEncoding (s : State) (y k : Nat) : Nat :=
  leNat ((List.range (sampleBytes s.cfg.fw)).map (fun j => sourceByte s y (k + j)))

/-- The free values drawn after one tone-mapped pixel (assumption log 6). -/
def drawsAfterTone (s : State) : Nat := if s.cfg.narrow = .wrap then s.draws else s.draws + 3

/-- The promises of a grant as the spec lists them (45_dispatcher_sequencer.md R246): the pitch, the rows
inside pixel memory, no byte shared with a source row (70_reset_and_hazards.md R320). -/
structure Promised (s : State) (base pitch : Word) : Prop where
  wide : 3 * s.src.width.toNat ≤ pitch.toNat
  inside : base.toNat + s.src.height.toNat * pitch.toNat ≤ 4294967296
  apart : ∀ a, sourceRowByte s a → ¬(base.toNat ≤ a ∧ a < base.toNat + s.src.height.toNat * pitch.toNat)

/-- The next move is the core's: it is the head of `moves` with `rest` behind it, or `moves` is empty. -/
def CoreNext (s : State) (rest : List Move) : Prop := s.moves = .core :: rest ∨ (s.moves = [] ∧ rest = [])

/-- A magnitude the format holds: a significand of `precision` bits times a power of two. -/
def Representable (fw : FloatWidth) (m : Nat) : Prop := ∃ k e : Nat, k < 2 ^ precision fw ∧ m = k * 2 ^ e

/-- How far apart two naturals are. -/
def gap (a b : Nat) : Nat := (a - b) + (b - a)

/-- The magnitude is that of a sample on the power branch: `START < x <= ONE` (44_hdr_tonemapper.md R207). -/
def OnPowerBranch (fw : FloatWidth) (mag : Nat) : Prop :=
  fgt (.fin false mag) (toneStart fw) = true ∧ fle (.fin false mag) (toneOne fw) = true

/-- The per-pixel reads of each converting operation. -/
def pixelFn : Op → PixelFn
  | .unpack1 => pixelUnpack1
  | .unpack4 => pixelUnpack4
  | .unpack8 => pixelUnpack8
  | .unpack555 => pixelUnpack555
  | .unpack565 => pixelUnpack565
  | .copy32 => pixelCopy32
  | .truncRgb16 => pixelTruncRgb16
  | .truncRgba16 => pixelTruncRgba16
  | .toneRgbf => pixelToneRgbf
  | .toneRgbaf => pixelToneRgbaf

/-- The address is one of the pixel bytes of the destination: byte `k < 3 * width` of a row `y < height`
(20_memory.md R69). -/
def destPixelByte (s : State) (a : Nat) : Prop :=
  ∃ y k, y < s.src.height.toNat ∧ k < 3 * s.src.width.toNat ∧ a = dstAddr s y k

/-- Pixel `(y, x)` comes before `(y₀, x₀)` in row-major order (10_state.md R40). -/
def Before (y x y₀ x₀ : Nat) : Prop := y < y₀ ∨ (y = y₀ ∧ x < x₀)

/-- `n` core steps with no other party moving. -/
def coreRun : Nat → State → Result
  | 0, s => .next s
  | n + 1, s =>
    match coreStep s with
    | .next t => coreRun n t
    | .fault f => .fault f
    | .refused r => .refused r

/-- The index that pixel `(y, x)` decodes to: IDX1, IDX4 or IDX8 (30_encoding.md R105, R106, R107); the other
operations have none. -/
def pixelIndex (op : Op) (s : State) (y x : Nat) : Nat :=
  match op with
  | .unpack1 => (sourceByte s y (x / 8)).toNat / 2 ^ (7 - x % 8) % 2
  | .unpack4 =>
    if x % 2 = 0 then (sourceByte s y (x / 2)).toNat / 16 else (sourceByte s y (x / 2)).toNat % 16
  | .unpack8 => (sourceByte s y x).toNat
  | .unpack555 | .unpack565 | .copy32 | .truncRgb16 | .truncRgba16 | .toneRgbf | .toneRgbaf => 0

/-- The byte of the source row that the index of pixel `x` is decoded from. -/
def indexByte (op : Op) (x : Nat) : Nat :=
  match op with
  | .unpack1 => x / 8
  | .unpack4 => x / 2
  | .unpack8 => x
  | .unpack555 | .unpack565 | .copy32 | .truncRgb16 | .truncRgba16 | .toneRgbf | .toneRgbaf => 0

/-- `n` steps of the machine. -/
def run : Nat → State → Result
  | 0, s => .next s
  | n + 1, s =>
    match step s with
    | .next t => run n t
    | .fault f => .fault f
    | .refused r => .refused r

/-- The conversion is about to begin at (0,0) with the granted rows inside pixel memory and wide enough
(45_dispatcher_sequencer.md R246, R252). -/
structure Begins (s : State) (op : Op) : Prop where
  phase : s.status.phase = .convert
  selected : s.op = some op
  row : s.seqRow = 0
  col : s.seqCol = 0
  memory : s.mem.wf = true
  wide : 3 * s.src.width.toNat ≤ s.dst.pitch.toNat
  inside : s.dst.base.toNat + s.src.height.toNat * s.dst.pitch.toNat ≤ 4294967296

/-- `t` is the end of a successful conversion of `s` with pixels `f`: STATUS and DST_FMT of a result, the
position at the end, every pixel as `f` says, every other byte of memory as before
(45_dispatcher_sequencer.md R258, R261, 20_memory.md R69). -/
structure Converted (s t : State) (f : Nat → Nat → Rgb) : Prop where
  status : t.status = ⟨false, true, false, .none, .idle⟩
  dst : t.dst = { s.dst with fmt := 0x00001811 }
  src : t.src = s.src
  row : t.seqRow = s.src.height
  col : t.seqCol = 0
  pixels : ∀ y x, y < s.src.height.toNat → x < s.src.width.toNat → getPixel t y x = f y x
  others : ∀ a, ¬ destPixelByte s a → t.mem.get a = s.mem.get a

end Sys2Proof.Machine
end

