-- ==== Sys2Proof/Certificates/Slice0/Obligations.lean ====
section
/-! DEFINITION. The statements about the machine, from the numbered rules of the spec. The list of moves and the
place `rdData` in which a host read's value is kept are the model's own (assumption log 1, 18): where a statement
says `moves`, `rest` or `CoreNext` it speaks of that list, whatever it holds. -/

open Sys2Proof Sys2Proof.Machine

/-! ### Encoding -/

/-- 30_encoding.md R113, R115: decoding the word of a well-formed instruction gives the instruction back,
with every open field at every value. -/
def Obligations.DecodeInvertsEncode : Prop :=
  ∀ i : Instr, i.wellFormed = true → decode (encode i).1 (encode i).2 = .ok i

/-- 30_encoding.md R115: the opcode map, row by row, for every word; the last line is START, matched against
the data of a CTRL write. -/
def Obligations.OpcodeMapSelectsByMaskAndMatch : Prop :=
  ∀ w : Word,
    ((∃ t b m, decode .dispatch w = .ok (.rejectNull t b m)) ↔ w &&& 0x00000001 = 0x00000000) ∧
    ((∃ m, decode .dispatch w = .ok (.unpack1 m)) ↔ w &&& 0x0000FFF1 = 0x00000111) ∧
    ((∃ m, decode .dispatch w = .ok (.unpack4 m)) ↔ w &&& 0x0000FFF1 = 0x00000411) ∧
    ((∃ m, decode .dispatch w = .ok (.unpack8 m)) ↔ w &&& 0x0000FFF1 = 0x00000811) ∧
    (decode .dispatch w = .ok .unpack555 ↔ w &&& 0x0001FFF1 = 0x00001011) ∧
    (decode .dispatch w = .ok .unpack565 ↔ w &&& 0x0001FFF1 = 0x00011011) ∧
    ((∃ m, decode .dispatch w = .ok (.clone24 m)) ↔ w &&& 0x0000FFF1 = 0x00001811) ∧
    ((∃ m, decode .dispatch w = .ok (.copy32 m)) ↔ w &&& 0x0000FFF1 = 0x00002011) ∧
    ((∃ b m, decode .dispatch w = .ok (.truncRgb16 b m)) ↔ w &&& 0x000000F1 = 0x00000021) ∧
    ((∃ b m, decode .dispatch w = .ok (.truncRgba16 b m)) ↔ w &&& 0x000000F1 = 0x00000031) ∧
    ((∃ b m, decode .dispatch w = .ok (.toneRgbf b m)) ↔ w &&& 0x000000F1 = 0x00000041) ∧
    ((∃ b m, decode .dispatch w = .ok (.toneRgbaf b m)) ↔ w &&& 0x000000F1 = 0x00000051) ∧
    ((∃ n, decode .ctrl w = .ok (.start n)) ↔ w &&& 0x00000001 = 0x00000001)

/-- 30_encoding.md R116, R117: exactly the words with an unsupported tag, or with the STD tag and an
unsupported depth, select nothing, each rejected by its name. -/
def Obligations.ReservedDispatchWordsAreRejectedByName : Prop :=
  ∀ w : Word,
    (decode .dispatch w = .error .unsupportedType ↔
      w.toNat % 2 = 1 ∧ w.toNat / 16 % 16 ∉ [1, 2, 3, 4, 5]) ∧
    (decode .dispatch w = .error .unsupportedDepth ↔
      w.toNat % 2 = 1 ∧ w.toNat / 16 % 16 = 1 ∧ w.toNat / 256 % 256 ∉ [1, 4, 8, 16, 24, 32])

/-- 30_encoding.md R115, 95_test_vectors.md family F: words written out bit by bit. -/
def Obligations.WordsOfTheOpcodeTableDecode : Prop :=
  decode .dispatch 0x00000810 = .ok (.rejectNull 1 8 false) ∧
  decode .dispatch 0x00000111 = .ok (.unpack1 false) ∧
  decode .dispatch 0x00000411 = .ok (.unpack4 false) ∧
  decode .dispatch 0x00010811 = .ok (.unpack8 true) ∧
  decode .dispatch 0x00001011 = .ok .unpack555 ∧
  decode .dispatch 0x00011011 = .ok .unpack565 ∧
  decode .dispatch 0x00001811 = .ok (.clone24 false) ∧
  decode .dispatch 0x00002011 = .ok (.copy32 false) ∧
  decode .dispatch 0x00001821 = .ok (.truncRgb16 24 false) ∧
  decode .dispatch 0x00000031 = .ok (.truncRgba16 0 false) ∧
  decode .dispatch 0x00000041 = .ok (.toneRgbf 0 false) ∧
  decode .dispatch 0x00000051 = .ok (.toneRgbaf 0 false) ∧
  decode .dispatch 0x00000061 = .error .unsupportedType ∧
  decode .dispatch 0x00000211 = .error .unsupportedDepth ∧
  decode .ctrl 0x00000001 = .ok (.start 0)

/-- 30_encoding.md R113, R114: `DW = SRC_FMT[15:0] | (IS565 << 16)`, IS565 exactly for the three constants with
all 32 bits of each mask compared. -/
def Obligations.DispatchWordComesFromTheDescriptor : Prop :=
  ∀ s : State,
    (s.src.rmask = 0x0000F800 ∧ s.src.gmask = 0x000007E0 ∧ s.src.bmask = 0x0000001F →
      dispatchWord s = (s.src.fmt &&& 0x0000FFFF) ||| 0x00010000) ∧
    (¬(s.src.rmask = 0x0000F800 ∧ s.src.gmask = 0x000007E0 ∧ s.src.bmask = 0x0000001F) →
      dispatchWord s = s.src.fmt &&& 0x0000FFFF)

/-! ### A step runs the decoded instruction -/

/-- The core's move in CHECK and SELECT is the instruction the dispatch word selects, with the move taken off
the list and nothing else added (45_dispatcher_sequencer.md R232, R252; assumption log 1, 21). -/
def Obligations.CoreMoveRunsTheDispatchedInstruction : Prop :=
  ∀ (s : State) (rest : List Move) (i : Instr), CoreNext s rest →
    s.status.phase = .check ∨ s.status.phase = .select → decode .dispatch (dispatchWord s) = .ok i →
    step s = exec i { s with moves := rest }

/-- The core's move in CONVERT is the operation held in OP (45_dispatcher_sequencer.md R255; assumption log
1, 21). -/
def Obligations.CoreMoveInConvertRunsTheSelectedOperation : Prop :=
  ∀ (s : State) (rest : List Move) (op : Op), CoreNext s rest →
    s.status.phase = .convert → s.op = some op →
    step s = exec op.instr { s with moves := rest } ∧ convertingOp op.instr = some op

/-- The model's choice (assumption log 19, 20): a table word placed by `withFetchWord` is what the very next
step runs, from every state, with the moves that were still to come left. -/
def Obligations.PlacedWordIsRunByTheNextStep : Prop :=
  ∀ (s : State) (nbits w : Nat) (i : Instr), decodeTableWord nbits w = some i →
    step (s.withFetchWord nbits w) = exec i { s.withFetchWord nbits w with moves := s.moves }

/-! ### START and the checks -/

/-- 45_dispatcher_sequencer.md R231, 10_state.md R21: START in IDLE clears the flags, the result registers and the
hidden state, sets BUSY and goes to CHECK at (0,0), and changes nothing else; elsewhere it does nothing. A host
write to CTRL with bit 0 set is that step, whatever bits 31:1 hold; with bit 0 clear it has no effect. -/
def Obligations.StartBeginsARunOnlyInIdle : Prop :=
  ∀ (s : State) (n : Nat),
    (s.status.phase = .idle → exec (.start n) s = .next { s with
      status := ⟨true, false, false, .none, .check⟩
      dst := ⟨0, 0, 0, 0, 0, 0, 0, 0, 0⟩
      seqRow := 0
      seqCol := 0
      op := none
      pend := none
      svcOut := none }) ∧
    (s.status.phase ≠ .idle → exec (.start n) s = .next s) ∧
    (∀ (rest : List Move) (d : Word), s.moves = .wr 0x000 d :: rest → d.toNat % 2 = 1 →
      step s = exec (.start n) { s with moves := rest }) ∧
    (∀ (rest : List Move) (d : Word), s.moves = .wr 0x000 d :: rest → d.toNat % 2 = 0 →
      step s = .next { s with moves := rest }) ∧
    Status.word ⟨true, false, false, .none, .check⟩ = 0x00000101

/-- 45_dispatcher_sequencer.md R233: REJECT_NULL at CHECK ends the run with NULL_SOURCE, STATUS 0x16, and
touches neither memory nor the service port; the core's move in CHECK with PRESENT = 0 is that step. -/
def Obligations.RejectNullEndsTheRunAtCheck : Prop :=
  ∀ (s : State) (type bpp : Nat) (m : Bool), s.status.phase = .check →
    ∃ t, exec (.rejectNull type bpp m) s = .next t ∧ Failed s t .nullSource ∧ t.status.word = 0x00000016 ∧
      ∀ rest, CoreNext s rest → s.src.fmt.toNat % 2 = 0 → step s = .next { t with moves := rest }

/-- 45_dispatcher_sequencer.md R234: PRESENT = 1 and a TYPE outside 1..5 ends the run at CHECK with
UNSUPPORTED_TYPE, STATUS 0x26, no request and no memory access. -/
def Obligations.UnsupportedTagEndsTheRunAtCheck : Prop :=
  ∀ (s : State) (rest : List Move), CoreNext s rest → s.status.phase = .check →
    s.src.fmt.toNat % 2 = 1 → s.src.fmt.toNat / 16 % 16 ∉ [1, 2, 3, 4, 5] →
    ∃ t, step s = .next t ∧ Failed { s with moves := rest } t .unsupportedType ∧ t.status.word = 0x00000026

/-- 45_dispatcher_sequencer.md R235: CLONE24 at CHECK issues CLONE with the source handle and waits; nothing
else changes. The core's move in CHECK with PRESENT = 1, TYPE = STD, BPP = 24 is that step. -/
def Obligations.Clone24RequestsADuplicate : Prop :=
  ∀ (s : State) (m : Bool), s.status.phase = .check →
    exec (.clone24 m) s = .next { s with
      status := { s.status with phase := .cloneWait }
      seqRow := 0
      seqCol := 0
      svcOut := some (.clone s.src.handle) } ∧
    ∀ rest, CoreNext s rest → s.src.fmt.toNat % 2 = 1 → s.src.fmt.toNat / 16 % 16 = 1 →
      s.src.fmt.toNat / 256 % 256 = 24 →
      step s = .next { s with
        status := { s.status with phase := .cloneWait }
        seqRow := 0
        seqCol := 0
        svcOut := some (.clone s.src.handle)
        moves := rest }

/-- 45_dispatcher_sequencer.md R236: a present source of a supported tag that is not STD/24 is sent to the
allocation, an unsupported STD depth too: the mask triple, the ALLOC request, nothing else. -/
def Obligations.CheckRequestsTheAllocation : Prop :=
  ∀ (s : State) (rest : List Move), CoreNext s rest → s.status.phase = .check →
    s.src.fmt.toNat % 2 = 1 → s.src.fmt.toNat / 16 % 16 ∈ [1, 2, 3, 4, 5] →
    ¬(s.src.fmt.toNat / 16 % 16 = 1 ∧ s.src.fmt.toNat / 256 % 256 = 24) →
    step s = .next { s with
      status := { s.status with phase := .allocWait }
      dst := { s.dst with
        rmask := (0xFF : Word) <<< (8 * offR s.cfg.layout)
        gmask := (0xFF : Word) <<< (8 * offG s.cfg.layout)
        bmask := (0xFF : Word) <<< (8 * offB s.cfg.layout) }
      seqRow := 0
      seqCol := 0
      svcOut := some (.alloc s.src.width s.src.height 24 ((0xFF : Word) <<< (8 * offR s.cfg.layout))
        ((0xFF : Word) <<< (8 * offG s.cfg.layout)) ((0xFF : Word) <<< (8 * offB s.cfg.layout)))
      moves := rest }

/-! ### SELECT and the sequencer -/

/-- 45_dispatcher_sequencer.md R252: in SELECT the operation the dispatch word matches is stored in OP and the
conversion begins at (0,0); nothing else changes. -/
def Obligations.SelectStoresTheOperation : Prop :=
  ∀ (s : State) (i : Instr) (op : Op), convertingOp i = some op → s.status.phase = .select →
    exec i s = .next { s with
      status := { s.status with phase := .convert }
      op := some op
      seqRow := 0
      seqCol := 0 } ∧
    ∀ rest, CoreNext s rest → decode .dispatch (dispatchWord s) = .ok i →
      step s = .next { s with
        status := { s.status with phase := .convert }
        op := some op
        seqRow := 0
        seqCol := 0
        moves := rest }

/-- 45_dispatcher_sequencer.md R253: in SELECT a dispatch word that matches no row releases the held
destination with UNSUPPORTED_DEPTH pending. -/
def Obligations.SelectWithoutMatchReleasesTheDestination : Prop :=
  ∀ (s : State) (rest : List Move), CoreNext s rest → s.status.phase = .select →
    s.src.fmt.toNat % 2 = 1 → s.src.fmt.toNat / 16 % 16 = 1 →
    s.src.fmt.toNat / 256 % 256 ∉ [1, 4, 8, 16, 24, 32] →
    ∃ t, step s = .next t ∧ Releasing { s with moves := rest } t .unsupportedDepth

/-- 45_dispatcher_sequencer.md R254: at the end of a row every converting operation goes to the next row and
changes nothing else. -/
def Obligations.RowEndGoesToTheNextRow : Prop :=
  ∀ (s : State) (i : Instr), (convertingOp i).isSome = true → s.status.phase = .convert →
    s.seqRow.toNat < s.src.height.toNat → s.seqCol = s.src.width →
    exec i s = .next { s with seqRow := s.seqRow + 1, seqCol := 0 }

/-- 45_dispatcher_sequencer.md R257, R258: at the last row's end every converting operation ends the run with a
result; SEQ_ROW and SEQ_COL, memory and everything else keep their values. -/
def Obligations.LastRowEndsTheRunWithAResult : Prop :=
  ∀ (s : State) (i : Instr), (convertingOp i).isSome = true → s.status.phase = .convert →
    s.seqRow = s.src.height →
    ∃ t, exec i s = .next t ∧ Succeeded s t ∧ t.status.word = 0x00000002

/-- 45_dispatcher_sequencer.md R245, 60_exceptions.md R304: while a request is outstanding, and in IDLE, the
core takes no step, whatever the dispatch word selects; a step that changes nothing is the model's form of that
(assumption log 2). -/
def Obligations.CoreTakesNoStepWhileItWaits : Prop :=
  ∀ (s : State) (rest : List Move) (i : Instr), CoreNext s rest → (∀ n, i ≠ .start n) →
    s.status.phase ∈ [Phase.idle, .cloneWait, .allocWait, .metaWait, .freeWait] →
    exec i s = .next s ∧ step s = .next { s with moves := rest }

/-! ### The per-pixel steps -/

/-- 41_palette_unpacker.md R141, R144: UNPACK1 takes bit `7 - x mod 8` of byte `x div 8` as the index. What an
entry never written since power-up reads as (10_state.md R48) is the model's free value (assumption log 7). -/
def Obligations.Unpack1ConvertsOnePixel : Prop :=
  ∀ (s : State) (m : Bool), AtPixel s → s.mem.wf = true → outputInside s →
    sourceInside s s.seqRow.toNat (s.seqCol.toNat / 8) →
    GuardedPixel (.unpack1 m) s
      ((sourceByte s s.seqRow.toNat (s.seqCol.toNat / 8)).toNat / 2 ^ (7 - s.seqCol.toNat % 8) % 2)

/-- 41_palette_unpacker.md R142, R144: UNPACK4 takes the high nibble of byte `x div 2` for even `x`, the low
nibble for odd `x`. What an entry never written since power-up reads as (10_state.md R48) is the model's free
value (assumption log 7). -/
def Obligations.Unpack4ConvertsOnePixel : Prop :=
  ∀ (s : State) (m : Bool), AtPixel s → s.mem.wf = true → outputInside s →
    sourceInside s s.seqRow.toNat (s.seqCol.toNat / 2) →
    (s.seqCol.toNat % 2 = 0 → GuardedPixel (.unpack4 m) s
      ((sourceByte s s.seqRow.toNat (s.seqCol.toNat / 2)).toNat / 16)) ∧
    (s.seqCol.toNat % 2 = 1 → GuardedPixel (.unpack4 m) s
      ((sourceByte s s.seqRow.toNat (s.seqCol.toNat / 2)).toNat % 16))

/-- 41_palette_unpacker.md R143, R144: UNPACK8 takes byte `x` as the index. What an entry never written since
power-up reads as (10_state.md R48) is the model's free value (assumption log 7). -/
def Obligations.Unpack8ConvertsOnePixel : Prop :=
  ∀ (s : State) (m : Bool), AtPixel s → s.mem.wf = true → outputInside s →
    sourceInside s s.seqRow.toNat s.seqCol.toNat →
    GuardedPixel (.unpack8 m) s (sourceByte s s.seqRow.toNat s.seqCol.toNat).toNat

/-- 42_packed16_unpacker.md R162, R164: UNPACK555 rescales the three 5-bit fields of the little-endian word by
`255 / 31` with floor division. -/
def Obligations.Unpack555ConvertsOnePixel : Prop :=
  ∀ (s : State) (w : Nat), AtPixel s → s.mem.wf = true → outputInside s →
    sourceInside s s.seqRow.toNat (2 * s.seqCol.toNat + 1) →
    w = (sourceByte s s.seqRow.toNat (2 * s.seqCol.toNat)).toNat
      + 256 * (sourceByte s s.seqRow.toNat (2 * s.seqCol.toNat + 1)).toNat →
    ∃ t, exec .unpack555 s = .next t ∧
      PixelWritten s t
        ⟨BitVec.ofNat 8 (w / 1024 % 32 * 255 / 31), BitVec.ofNat 8 (w / 32 % 32 * 255 / 31),
         BitVec.ofNat 8 (w % 32 * 255 / 31)⟩ s.draws

/-- 42_packed16_unpacker.md R163, R164: UNPACK565 rescales the 5-bit red and blue fields by `255 / 31` and the
6-bit green field by `255 / 63` with floor division. -/
def Obligations.Unpack565ConvertsOnePixel : Prop :=
  ∀ (s : State) (w : Nat), AtPixel s → s.mem.wf = true → outputInside s →
    sourceInside s s.seqRow.toNat (2 * s.seqCol.toNat + 1) →
    w = (sourceByte s s.seqRow.toNat (2 * s.seqCol.toNat)).toNat
      + 256 * (sourceByte s s.seqRow.toNat (2 * s.seqCol.toNat + 1)).toNat →
    ∃ t, exec .unpack565 s = .next t ∧
      PixelWritten s t
        ⟨BitVec.ofNat 8 (w / 2048 * 255 / 31), BitVec.ofNat 8 (w / 32 % 64 * 255 / 63),
         BitVec.ofNat 8 (w % 32 * 255 / 31)⟩ s.draws

/-- 43_direct_copier.md R181: COPY32 copies the colour bytes; the byte at `4x + 3` need not even exist. -/
def Obligations.Copy32ConvertsOnePixel : Prop :=
  ∀ (s : State) (m : Bool), AtPixel s → s.mem.wf = true → outputInside s →
    sourceInside s s.seqRow.toNat (4 * s.seqCol.toNat + 2) →
    ∃ t, exec (.copy32 m) s = .next t ∧
      PixelWritten s t
        ⟨sourceByte s s.seqRow.toNat (4 * s.seqCol.toNat + offR s.cfg.layout),
         sourceByte s s.seqRow.toNat (4 * s.seqCol.toNat + offG s.cfg.layout),
         sourceByte s s.seqRow.toNat (4 * s.seqCol.toNat + offB s.cfg.layout)⟩ s.draws

/-- 43_direct_copier.md R182, R183, R184: TRUNC_RGB16 and TRUNC_RGBA16 write the byte at the higher address of
each of the three channels, at pixel strides 6 and 8; BPP is ignored. -/
def Obligations.Trunc16ConvertsOnePixel : Prop :=
  ∀ (s : State) (bpp : Nat) (m : Bool), AtPixel s → s.mem.wf = true → outputInside s →
    (sourceInside s s.seqRow.toNat (6 * s.seqCol.toNat + 5) →
      ∃ t, exec (.truncRgb16 bpp m) s = .next t ∧
        PixelWritten s t
          ⟨sourceByte s s.seqRow.toNat (6 * s.seqCol.toNat + 1),
           sourceByte s s.seqRow.toNat (6 * s.seqCol.toNat + 3),
           sourceByte s s.seqRow.toNat (6 * s.seqCol.toNat + 5)⟩ s.draws) ∧
    (sourceInside s s.seqRow.toNat (8 * s.seqCol.toNat + 5) →
      ∃ t, exec (.truncRgba16 bpp m) s = .next t ∧
        PixelWritten s t
          ⟨sourceByte s s.seqRow.toNat (8 * s.seqCol.toNat + 1),
           sourceByte s s.seqRow.toNat (8 * s.seqCol.toNat + 3),
           sourceByte s s.seqRow.toNat (8 * s.seqCol.toNat + 5)⟩ s.draws)

/-- 44_hdr_tonemapper.md R211, R212: TONE_RGBF and TONE_RGBAF tone-map the first three samples of the pixel, at
pixel strides `3n` and `4n`; alpha need not even exist. How the free bytes of NARROW = any value are numbered is
the model's choice (assumption log 6). -/
def Obligations.ToneConvertsOnePixel : Prop :=
  ∀ (s : State) (bpp n : Nat) (m : Bool), AtPixel s → s.mem.wf = true → outputInside s →
    n = sampleBytes s.cfg.fw →
    (sourceInside s s.seqRow.toNat (3 * n * s.seqCol.toNat + 3 * n - 1) →
      ∃ t, exec (.toneRgbf bpp m) s = .next t ∧
        PixelWritten s t
          ⟨tone s.cfg s.draws (Datum.ofBits s.cfg.fw
             (sampleEncoding s s.seqRow.toNat (3 * n * s.seqCol.toNat))),
           tone s.cfg (s.draws + 1) (Datum.ofBits s.cfg.fw
             (sampleEncoding s s.seqRow.toNat (3 * n * s.seqCol.toNat + n))),
           tone s.cfg (s.draws + 2) (Datum.ofBits s.cfg.fw
             (sampleEncoding s s.seqRow.toNat (3 * n * s.seqCol.toNat + 2 * n)))⟩ (drawsAfterTone s)) ∧
    (sourceInside s s.seqRow.toNat (4 * n * s.seqCol.toNat + 3 * n - 1) →
      ∃ t, exec (.toneRgbaf bpp m) s = .next t ∧
        PixelWritten s t
          ⟨tone s.cfg s.draws (Datum.ofBits s.cfg.fw
             (sampleEncoding s s.seqRow.toNat (4 * n * s.seqCol.toNat))),
           tone s.cfg (s.draws + 1) (Datum.ofBits s.cfg.fw
             (sampleEncoding s s.seqRow.toNat (4 * n * s.seqCol.toNat + n))),
           tone s.cfg (s.draws + 2) (Datum.ofBits s.cfg.fw
             (sampleEncoding s s.seqRow.toNat (4 * n * s.seqCol.toNat + 2 * n)))⟩ (drawsAfterTone s))

/-- 20_memory.md R74, 60_exceptions.md R286 (a fault is the model's form of "no step", assumption log 10): a
converting operation at a pixel whose source bytes do not all lie inside pixel memory faults on a byte between the
pixel's first and its last; with the source bytes inside and the output pixel not, an indexed operation whose index is
at or above PLEN releases the destination, and every other case faults on the output pixel's last byte. Nothing is
written. -/
def Obligations.PixelOutsideMemoryIsNotWritten : Prop :=
  ∀ (s : State) (i : Instr) (op : Op), convertingOp i = some op → AtPixel s →
    (¬ sourceInside s s.seqRow.toNat (lastByte s.cfg.fw op s.seqCol.toNat) →
      ∃ k, firstByte s.cfg.fw op s.seqCol.toNat ≤ k ∧ k ≤ lastByte s.cfg.fw op s.seqCol.toNat ∧
        ¬ sourceInside s s.seqRow.toNat k ∧
        exec i s = .fault (.addressOutOfRange (s.src.base.toNat + s.seqRow.toNat * s.src.pitch.toNat + k))) ∧
    (sourceInside s s.seqRow.toNat (lastByte s.cfg.fw op s.seqCol.toNat) → ¬ outputInside s →
      (op ∈ [Op.unpack1, .unpack4, .unpack8] ∧
          min (s.src.palLen.toNat % 512) 256 ≤ pixelIndex op s s.seqRow.toNat s.seqCol.toNat →
        ∃ t, exec i s = .next t ∧ Releasing s t .paletteIndex) ∧
      (¬(op ∈ [Op.unpack1, .unpack4, .unpack8] ∧
          min (s.src.palLen.toNat % 512) 256 ≤ pixelIndex op s s.seqRow.toNat s.seqCol.toNat) →
        exec i s = .fault (.addressOutOfRange
          (s.dst.base.toNat + s.seqRow.toNat * s.dst.pitch.toNat + (3 * s.seqCol.toNat + 2)))))

/-- 41_palette_unpacker.md R149: every instruction but UNPACK1, UNPACK4, UNPACK8 gives the same result whatever the
LUT and PAL_LEN hold. -/
def Obligations.OnlyIndexedOperationsReadThePalette : Prop :=
  ∀ (s t : State) (i : Instr) (p : Palette) (len : Word),
    convertingOp i ∉ [some Op.unpack1, some .unpack4, some .unpack8] → exec i s = .next t →
    exec i { s with palette := p, src := { s.src with palLen := len } } =
      .next { t with palette := p, src := { t.src with palLen := len } }

/-! ### Service answers -/

/-- 45_dispatcher_sequencer.md R246 (GRANT): the destination registers from the grant and the source, METACOPY
outstanding, the bitmap in the environment; nothing else of the machine changes. The bitmaps' list and the draw
of a fresh metadata token are the model's choice (assumption log 14). -/
def Obligations.AllocGrantHoldsTheDestination : Prop :=
  ∀ (s : State) (rest : List Move) (h base pitch w ht r g b : Word) (d : Nat),
    s.moves = .ans (.grant h base pitch) :: rest → s.status.phase = .allocWait →
    s.svcOut = some (.alloc w ht d r g b) → Promised s base pitch →
    ∃ t, step s = .next t ∧
      t = { s with
        status := { s.status with phase := .metaWait }
        dst := { s.dst with
          handle := h, base := base, pitch := pitch, width := s.src.width, height := s.src.height }
        seqRow := 0
        seqCol := 0
        svcOut := some (.metacopy h s.src.handle)
        bitmaps := t.bitmaps
        moves := rest
        draws := s.draws + 1 } ∧
      (∃ info, findBitmap t.bitmaps h = some
        ⟨h, 1, 24, s.src.width, s.src.height, base, pitch, s.dst.rmask, s.dst.gmask, s.dst.bmask, info⟩) ∧
      ∀ h', h' ≠ h → findBitmap t.bitmaps h' = findBitmap s.bitmaps h'

/-- 45_dispatcher_sequencer.md R246 (DENY), R248: a denied ALLOC or CLONE ends the run with ALLOC_FAILED at
once, STATUS 0x46, without a FREE. -/
def Obligations.DeniedRequestEndsTheRun : Prop :=
  ∀ (s : State) (rest : List Move), s.moves = .ans .deny :: rest →
    ((s.status.phase = .allocWait ∧ ∃ w ht d r g b, s.svcOut = some (.alloc w ht d r g b)) ∨
      (s.status.phase = .cloneWait ∧ ∃ h, s.svcOut = some (.clone h))) →
    ∃ t, step s = .next t ∧ Failed { s with moves := rest } t .allocFailed ∧ t.status.word = 0x00000046

/-- 45_dispatcher_sequencer.md R247: a granted CLONE ends the run with a result: the result registers, the
masks copied, every byte `k < 3 * width` of every row the source's, the metadata the source's. That the copy is
made in the step of the answer and that no other byte changes is the model's choice (assumption log 13). -/
def Obligations.CloneGrantDuplicatesTheSource : Prop :=
  ∀ (s : State) (rest : List Move) (h base pitch src : Word),
    s.moves = .ans (.grant h base pitch) :: rest → s.status.phase = .cloneWait →
    s.svcOut = some (.clone src) → Promised s base pitch → s.mem.wf = true →
    (∀ y k, y < s.src.height.toNat → k < 3 * s.src.width.toNat → sourceInside s y k) →
    ∃ t, step s = .next t ∧
      t.dst = ⟨0x00001811, h, s.src.width, s.src.height, pitch, base, s.src.rmask, s.src.gmask, s.src.bmask⟩ ∧
      t.status.word = 0x00000002 ∧
      (∀ y k, y < s.src.height.toNat → k < 3 * s.src.width.toNat →
        t.mem.get (base.toNat + y * pitch.toNat + k) = sourceByte s y k) ∧
      (∀ a, (∀ y k, y < s.src.height.toNat → k < 3 * s.src.width.toNat →
        a ≠ base.toNat + y * pitch.toNat + k) → t.mem.get a = s.mem.get a) ∧
      metaOf t h = metaOf s s.src.handle ∧
      (∃ info, findBitmap t.bitmaps h = some ⟨h, 1, 24, s.src.width, s.src.height, base, pitch,
        s.src.rmask, s.src.gmask, s.src.bmask, info⟩) ∧
      (∀ h', h' ≠ h → findBitmap t.bitmaps h' = findBitmap s.bitmaps h') ∧
      t = { s with
        status := t.status, dst := t.dst, op := none, pend := none, svcOut := none, mem := t.mem
        bitmaps := t.bitmaps, moves := rest }

/-- 45_dispatcher_sequencer.md R249: METACOPY acknowledged goes to SELECT at (0,0) with no request outstanding;
the destination's bitmap has the source's metadata and is otherwise as before, and so is every other bitmap. The
environment's bitmaps are the model's list (assumption log 14). -/
def Obligations.MetacopyGoesToSelect : Prop :=
  ∀ (s : State) (rest : List Move) (dst src : Word), s.moves = .ans .ack :: rest →
    s.status.phase = .metaWait → s.svcOut = some (.metacopy dst src) →
    ∃ t, step s = .next t ∧
      t = { s with
        status := { s.status with phase := .select }
        seqRow := 0
        seqCol := 0
        svcOut := none
        bitmaps := t.bitmaps
        moves := rest } ∧
      (∀ b, findBitmap s.bitmaps dst = some b →
        findBitmap t.bitmaps dst = some { b with info := metaOf s src } ∧ metaOf t dst = metaOf s src) ∧
      (findBitmap s.bitmaps dst = none → findBitmap t.bitmaps dst = none) ∧
      ∀ h, h ≠ dst → findBitmap t.bitmaps h = findBitmap s.bitmaps h

/-- 45_dispatcher_sequencer.md R250, 60_exceptions.md R292: FREE acknowledged completes the pending failure; the
bitmap has ceased to exist, every other one is as before. -/
def Obligations.FreeCompletesThePendingFailure : Prop :=
  ∀ (s : State) (rest : List Move) (dst : Word) (c : Cause), s.moves = .ans .ack :: rest →
    s.status.phase = .freeWait → s.svcOut = some (.free dst) → s.pend = some c →
    ∃ t, step s = .next t ∧ Failed { s with moves := rest, bitmaps := t.bitmaps } t c ∧
      t.status.word = BitVec.ofNat 32 (6 + 16 * c.code) ∧
      findBitmap t.bitmaps dst = none ∧
      ∀ h, h ≠ dst → findBitmap t.bitmaps h = findBitmap s.bitmaps h

/-- 45_dispatcher_sequencer.md R245: an answer that does not fit the outstanding request is no move: with no
request outstanding any answer, with ALLOC or CLONE an ACK, with METACOPY or FREE a GRANT or DENY; nor is a GRANT
that breaks its promises (R246, R247, 93_implementation_defined.md U14, U16). The refusal by name is the model's form
of that (assumption log 11, 12). -/
def Obligations.UnfittingAnswerIsRefused : Prop :=
  ∀ (s : State) (rest : List Move) (a : Answer), s.moves = .ans a :: rest →
    (∀ h base pitch : Word, a = .grant h base pitch → ¬ Promised s base pitch →
      ((s.status.phase = .allocWait ∧ ∃ w ht d r g b, s.svcOut = some (.alloc w ht d r g b)) ∨
        (s.status.phase = .cloneWait ∧ ∃ c, s.svcOut = some (.clone c))) →
      step s = .refused .grantBreaksPromise) ∧
    ((s.svcOut = none ∨
      (a = .ack ∧ ((∃ w ht d r g b, s.svcOut = some (.alloc w ht d r g b)) ∨ ∃ h, s.svcOut = some (.clone h))) ∨
      (a ≠ .ack ∧ ((∃ d c, s.svcOut = some (.metacopy d c)) ∨ ∃ d, s.svcOut = some (.free d)))) →
      step s = .refused .answerDoesNotFit)

/-! ### The register bank -/

/-- 10_state.md R38: while BUSY every host write to a register other than CTRL is ignored. -/
def Obligations.WritesWhileBusyAreIgnored : Prop :=
  ∀ (s : State) (rest : List Move) (offset : Nat) (d : Word), s.moves = .wr offset d :: rest →
    s.status.busy = true → offset ≠ 0 → offset % 4 = 0 → offset ≤ 0x7FC →
    step s = .next { s with moves := rest }

/-- 10_state.md R20, R23 to R31, R39, R45: while not BUSY a host write changes exactly the register or the palette
entry at its offset, to the data with the reserved bits 0, and nothing else; a read then returns that value and
changes nothing. -/
def Obligations.WrittenRegistersReadBack : Prop :=
  ∀ (s : State) (rest : List Move) (d : Word), s.status.busy = false →
    (∀ (offset : Nat) (mask : Word) (r : SrcRegs),
      (offset, mask, r) ∈ [
        (0x008, (0x0000FFF1 : Word), { s.src with fmt := d &&& 0x0000FFF1 }),
        (0x00C, 0xFFFFFFFF, { s.src with handle := d }),
        (0x010, 0xFFFFFFFF, { s.src with width := d }),
        (0x014, 0xFFFFFFFF, { s.src with height := d }),
        (0x018, 0xFFFFFFFF, { s.src with pitch := d }),
        (0x01C, 0xFFFFFFFF, { s.src with base := d }),
        (0x020, 0xFFFFFFFF, { s.src with rmask := d }),
        (0x024, 0xFFFFFFFF, { s.src with gmask := d }),
        (0x028, 0xFFFFFFFF, { s.src with bmask := d }),
        (0x02C, 0x000001FF, { s.src with palLen := d &&& 0x000001FF })] →
      s.moves = .wr offset d :: .rd offset :: rest →
      step s = .next { s with src := r, moves := .rd offset :: rest } ∧
      step { s with src := r, moves := .rd offset :: rest } =
        .next { s with src := r, rdData := some (d &&& mask), moves := rest }) ∧
    (∀ i, i < 256 → s.moves = .wr (0x400 + 4 * i) d :: .rd (0x400 + 4 * i) :: rest →
      ∃ p : Palette,
        step s = .next { s with palette := p, moves := .rd (0x400 + 4 * i) :: rest } ∧
        step { s with palette := p, moves := .rd (0x400 + 4 * i) :: rest } =
          .next { s with palette := p, rdData := some (d &&& 0x00FFFFFF), moves := rest } ∧
        p.get? i = some (BitVec.ofNat 24 d.toNat) ∧ ∀ j, j ≠ i → p.get? j = s.palette.get? j)

/-- 10_state.md R20, R21, R22, R47, R48: what a host read of each register and palette entry returns, while BUSY
too; the read changes nothing else. An entry never written since power-up reads as the model's free value
(assumption log 7). -/
def Obligations.ReadsFollowTheRegisterMap : Prop :=
  ∀ (s : State) (rest : List Move),
    (∀ (offset : Nat) (v : Word),
      (offset, v) ∈ [(0x000, (0 : Word)), (0x004, s.status.word), (0x008, s.src.fmt), (0x00C, s.src.handle),
        (0x010, s.src.width), (0x014, s.src.height), (0x018, s.src.pitch), (0x01C, s.src.base),
        (0x020, s.src.rmask), (0x024, s.src.gmask), (0x028, s.src.bmask), (0x02C, s.src.palLen),
        (0x040, s.dst.fmt), (0x044, s.dst.handle), (0x048, s.dst.width), (0x04C, s.dst.height),
        (0x050, s.dst.pitch), (0x054, s.dst.base), (0x058, s.dst.rmask), (0x05C, s.dst.gmask),
        (0x060, s.dst.bmask), (0x070, s.seqRow), (0x074, s.seqCol)] →
      s.moves = .rd offset :: rest →
      step s = .next { s with rdData := some v, moves := rest }) ∧
    (∀ i, i < 256 → s.moves = .rd (0x400 + 4 * i) :: rest →
      (∀ e, s.palette.get? i = some e →
        step s = .next { s with rdData := some (BitVec.ofNat 32 e.toNat), moves := rest }) ∧
      (s.palette.get? i = none → ∃ e : BitVec 24,
        step s = .next { s with rdData := some (BitVec.ofNat 32 e.toNat), draws := s.draws + 1, moves := rest }))

/-- 10_state.md R39, R22, R32 to R34, R40: an unmapped offset reads 0; a write to an unmapped offset or to a
read-only register is ignored. -/
def Obligations.UnmappedAndReadOnlyOffsetsIgnoreWrites : Prop :=
  ∀ (s : State) (rest : List Move) (offset : Nat) (d : Word), offset % 4 = 0 →
    (offset ∈ [0x004, 0x040, 0x044, 0x048, 0x04C, 0x050, 0x054, 0x058, 0x05C, 0x060, 0x070, 0x074] ∨
      offset ∈ [0x064, 0x068, 0x06C] ∨ (0x02C < offset ∧ offset < 0x040) ∨ (0x074 < offset ∧ offset < 0x400)) →
    (s.moves = .wr offset d :: rest → step s = .next { s with moves := rest }) ∧
    (s.moves = .rd offset :: rest →
      offset ∈ [0x064, 0x068, 0x06C] ∨ (0x02C < offset ∧ offset < 0x040) ∨ (0x074 < offset ∧ offset < 0x400) →
      step s = .next { s with rdData := some 0, moves := rest })

/-- 10_state.md R39, 30_encoding.md R104: a register access that is not at a multiple of 4 in 0x000..0x7FC is
no part of the interface; the refusal by name is the model's form of that (assumption log 17). -/
def Obligations.AccessOutsideTheInterfaceIsRefused : Prop :=
  ∀ (s : State) (rest : List Move) (offset : Nat) (d : Word), offset % 4 ≠ 0 ∨ 0x7FC < offset →
    (s.moves = .wr offset d :: rest → step s = .refused (.registerAccess offset)) ∧
    (s.moves = .rd offset :: rest → step s = .refused (.registerAccess offset))

/-- 10_state.md R22, R37, R41: the fields of STATUS at their bits, every other bit 0. -/
def Obligations.StatusFieldsStandAtTheirBits : Prop :=
  ∀ st : Status,
    st.word.getLsbD 0 = st.busy ∧ st.word.getLsbD 1 = st.done ∧ st.word.getLsbD 2 = st.fail ∧
    st.word.getLsbD 3 = false ∧ st.word.toNat / 16 % 16 = st.cause.code ∧
    st.word.toNat / 256 = st.phase.code ∧ st.cause.code ≤ 5 ∧ st.phase.code ≤ 7

/-- 20_memory.md R66, R79: while BUSY a byte of a source row cannot be written, and a byte of a destination row
neither written nor read, padding included; every other access to pixel memory can be made, and a write changes
only that byte. Where a source row ends, and the moves themselves, are the model's choice (assumption log 9, 11,
15). -/
def Obligations.HostCannotTouchTheRowsOfARun : Prop :=
  ∀ (s : State) (rest : List Move) (a : Nat) (b : Byte), a < 4294967296 → s.mem.wf = true →
    (s.moves = .memWr a b :: rest →
      (s.status.busy = true ∧ (sourceRowByte s a ∨ destRowByte s a) → step s = .refused (.hostTouchesRun a)) ∧
      (¬(s.status.busy = true ∧ (sourceRowByte s a ∨ destRowByte s a)) →
        ∃ t, step s = .next t ∧ t = { s with mem := t.mem, moves := rest } ∧
          t.mem.get a = b ∧ ∀ a', a' ≠ a → t.mem.get a' = s.mem.get a')) ∧
    (s.moves = .memRd a :: rest →
      (s.status.busy = true ∧ destRowByte s a → step s = .refused (.hostTouchesRun a)) ∧
      (¬(s.status.busy = true ∧ destRowByte s a) →
        step s = .next { s with rdData := some (BitVec.ofNat 32 (s.mem.get a).toNat), moves := rest }))

/-- 70_reset_and_hazards.md R310, R312: reset in IDLE clears every register and the hidden state and leaves the
palette, pixel memory and the environment's bitmaps; during a run the model refuses the move by name (assumption
log 16). -/
def Obligations.ResetClearsTheRegistersOnly : Prop :=
  ∀ (s : State) (rest : List Move), s.moves = .reset :: rest →
    (s.status.phase = .idle → step s = .next { s with
      status := ⟨false, false, false, .none, .idle⟩
      src := ⟨0, 0, 0, 0, 0, 0, 0, 0, 0, 0⟩
      dst := ⟨0, 0, 0, 0, 0, 0, 0, 0, 0⟩
      seqRow := 0
      seqCol := 0
      op := none
      pend := none
      svcOut := none
      moves := rest }) ∧
    (s.status.phase ≠ .idle → step s = .refused .resetDuringRun)

/-! ### Arithmetic -/

/-- 42_packed16_unpacker.md R164, R166: the rescale is floor division, within a byte, strictly increasing, and
fixes both ends. -/
def Obligations.RescaleIsFloorDivision : Prop :=
  (∀ c, c < 32 → 31 * scale5 c ≤ c * 255 ∧ c * 255 < 31 * (scale5 c + 1) ∧ scale5 c ≤ 255) ∧
  (∀ c, c < 64 → 63 * scale6 c ≤ c * 255 ∧ c * 255 < 63 * (scale6 c + 1) ∧ scale6 c ≤ 255) ∧
  (∀ c c', c < c' → scale5 c < scale5 c' ∧ scale6 c < scale6 c') ∧
  scale5 0 = 0 ∧ scale6 0 = 0 ∧ scale5 31 = 255 ∧ scale6 63 = 255

/-- 00_scope.md R13: `RN` rounds every real number that is a multiple of a power of two below the unit to the
nearest value of the format, ties to the even significand, and to infinity from half a unit in the last place
below the overflow magnitude on; `fmul`, `fadd` and `fsub` of finite data are `RN` of the exact product, sum and
difference, an exact zero being minus zero only where both terms are. -/
def Obligations.RoundingIsToNearestTiesToEven : Prop :=
  ∀ fw : FloatWidth,
    (∀ (neg : Bool) (num sh : Nat),
      ((2 ^ (precision fw + 1) - 1) * overflowMag fw * 2 ^ sh ≤ 2 ^ (precision fw + 1) * num →
        Datum.round fw neg num sh = .inf neg) ∧
      (2 ^ (precision fw + 1) * num < (2 ^ (precision fw + 1) - 1) * overflowMag fw * 2 ^ sh →
        ∃ mag, Datum.round fw neg num sh = .fin neg mag ∧ mag < overflowMag fw ∧ Representable fw mag ∧
          (∀ c, Representable fw c → gap (mag * 2 ^ sh) num ≤ gap (c * 2 ^ sh) num) ∧
          (2 * (num % 2 ^ droppedBits fw num sh) = 2 ^ droppedBits fw num sh →
            mag / 2 ^ (droppedBits fw num sh - sh) % 2 = 0))) ∧
    (∀ (s t : Bool) (m n : Nat),
      fmul fw (.fin s m) (.fin t n) = Datum.round fw (s ^^ t) (m * n) (unitExp fw) ∧
      (signedUnits s m + signedUnits t n ≠ 0 → fadd fw (.fin s m) (.fin t n) =
        Datum.round fw (decide (signedUnits s m + signedUnits t n < 0))
          (signedUnits s m + signedUnits t n).natAbs 0) ∧
      (signedUnits s m + signedUnits t n = 0 → fadd fw (.fin s m) (.fin t n) = .fin (s && t) 0) ∧
      (signedUnits s m - signedUnits t n ≠ 0 → fsub fw (.fin s m) (.fin t n) =
        Datum.round fw (decide (signedUnits s m - signedUnits t n < 0))
          (signedUnits s m - signedUnits t n).natAbs 0) ∧
      (signedUnits s m - signedUnits t n = 0 → fsub fw (.fin s m) (.fin t n) = .fin (s && !t) 0))

/-- 44_hdr_tonemapper.md R203: POW_ONE, POW_RANGE and POW_MONO, whatever POW's free choice is. -/
def Obligations.PowKeepsOneStaysInRangeAndIsMonotone : Prop :=
  ∀ fw : FloatWidth,
    (∀ mag, toneOne fw = .fin false mag → pow fw mag = mag) ∧
    (∀ mag, OnPowerBranch fw mag → 0 < pow fw mag ∧ fle (.fin false (pow fw mag)) (toneOne fw) = true) ∧
    (∀ x x', OnPowerBranch fw x → OnPowerBranch fw x' → x ≤ x' → pow fw x ≤ pow fw x')

/-- 44_hdr_tonemapper.md R203, POW_FAITHFUL: on the power branch POW is one of the two values of the format nearest
to the real power, or equal to it, whatever its free choice is (assumption log 4). -/
def Obligations.PowIsOneOfTheTwoNearestToTheRealPower : Prop :=
  ∀ (fw : FloatWidth) (mag : Nat) (r : ℝ), OnPowerBranch fw mag → Representable fw mag →
    r = ((mag : ℝ) / 2 ^ unitExp fw) ^ ((gammaNum fw : ℝ) / 2 ^ gammaBits fw) →
    (pow fw mag : ℝ) / 2 ^ unitExp fw = r ∨
    ∃ p q : Nat, p < q ∧ Representable fw p ∧ Representable fw q ∧ (pow fw mag = p ∨ pow fw mag = q) ∧
      ∀ c, Representable fw c → c ≠ p → c ≠ q →
        |(p : ℝ) / 2 ^ unitExp fw - r| ≤ |(c : ℝ) / 2 ^ unitExp fw - r| ∧
        |(q : ℝ) / 2 ^ unitExp fw - r| ≤ |(c : ℝ) / 2 ^ unitExp fw - r|

/-- 44_hdr_tonemapper.md R206 to R209, R218: on the power branch `t` is
`fadd(fmul(fsub(fmul(K1, POW(v, GI)), K2), C255), HALF)`, whatever POW's free choice is, and on the linear branch,
for every datum `v <= START`, `fadd(fmul(fmul(v, SLOPE), C255), HALF)`; the integer is `t` with the fraction
discarded, and there is none exactly where `t` is minus infinity. -/
def Obligations.EachBranchFollowsItsFormula : Prop :=
  ∀ fw : FloatWidth,
    (∀ mag : Nat, OnPowerBranch fw mag →
      ∃ t, fadd fw (fmul fw (fsub fw (fmul fw (toneK1 fw) (.fin false (pow fw mag))) (toneK2 fw)) (toneC255 fw))
          (toneHalf fw) = .fin false t ∧
        toneInt fw (toneClamp fw (.fin false mag)) = some ((t / 2 ^ unitExp fw : Nat) : Int)) ∧
    (∀ v t : Datum, fle v (toneStart fw) = true →
      t = fadd fw (fmul fw (fmul fw v (toneSlope fw)) (toneC255 fw)) (toneHalf fw) →
      (t = .inf true ∧ toneInt fw (toneClamp fw v) = none) ∨
      ∃ neg mag, t = .fin neg mag ∧
        toneInt fw (toneClamp fw v) = some (signedUnits neg (mag / 2 ^ unitExp fw)))

/-- 44_hdr_tonemapper.md R202, R216: the threshold takes the linear branch and gives 21; every sample above one
gives 255, in every configuration. -/
def Obligations.ToneOfThresholdAndOfSamplesAboveOne : Prop :=
  ∀ (cfg : Config) (draw : Nat),
    tone cfg draw (toneStart cfg.fw) = 21 ∧ tone cfg draw (toneOne cfg.fw) = 255 ∧
    ∀ v, fgt v (toneOne cfg.fw) = true → tone cfg draw v = 255

/-- 44_hdr_tonemapper.md R210, R214, R218 for NARROW = wrap: a NaN and minus infinity give 0, the byte of an integer
is its remainder modulo 256, and so the byte of every sample at or below START is the truncated `t` modulo 256, and
0 where `t` is minus infinity. -/
def Obligations.NarrowingWrapsModulo256 : Prop :=
  ∀ (cfg : Config) (draw : Nat), cfg.narrow = .wrap →
    tone cfg draw .nan = 0 ∧ tone cfg draw (.inf true) = 0 ∧
    (∀ (n : Int), (((narrow cfg.narrow draw (some n)).toNat : Nat) : Int) = n % 256) ∧
    tone cfg draw (Datum.neg (toneOne cfg.fw)) = 133 ∧
    ∀ v t : Datum, fle v (toneStart cfg.fw) = true →
      t = fadd cfg.fw (fmul cfg.fw (fmul cfg.fw v (toneSlope cfg.fw)) (toneC255 cfg.fw)) (toneHalf cfg.fw) →
      (t = .inf true → tone cfg draw v = 0) ∧
      ∀ neg mag, t = .fin neg mag →
        (((tone cfg draw v).toNat : Nat) : Int) = signedUnits neg (mag / 2 ^ unitExp cfg.fw) % 256

/-- 44_hdr_tonemapper.md R210, R219: in every configuration, whatever the free values, the byte of a sample whose
integer lies in 0..255 is that integer; for every sample at or above zero, minus zero and plus infinity among them,
it does, and the byte is non-decreasing in the sample. -/
def Obligations.ToneOfNonNegativeSamplesIsAMonotoneByte : Prop :=
  ∀ (cfg : Config) (draw : Nat) (v : Datum),
    (∀ n : Int, toneInt cfg.fw (toneClamp cfg.fw v) = some n → 0 ≤ n → n ≤ 255 →
      (((tone cfg draw v).toNat : Nat) : Int) = n) ∧
    (fle (.fin false 0) v = true →
      (∃ n : Nat, toneInt cfg.fw (toneClamp cfg.fw v) = some (n : Int) ∧ n ≤ 255 ∧ (tone cfg draw v).toNat = n) ∧
      ∀ (draw' : Nat) (v' : Datum), fle v v' = true → (tone cfg draw v).toNat ≤ (tone cfg draw' v').toNat)

/-! ### The whole machine -/

/-- The invariant holds after reset of every configuration (10_state.md R56; the model's own fields by
assumption log 1, 3, 7, 18). -/
def Obligations.InvariantHoldsAtReset : Prop :=
  (∀ cfg : Config, Inv (State.resetWith cfg)) ∧ State.reset = State.resetWith ⟨.bgr, .w32, .wrap⟩

/-- Every step of every party keeps the invariant: memory and palette canonical, BUSY exactly outside IDLE,
the flags consistent, the outstanding request the phase's own, the position in bounds, a failed run's result
registers 0 (10_state.md R22, R32, R36, R40, R41, R43, R53, R55; 45_dispatcher_sequencer.md R264). -/
def Obligations.EveryStepKeepsTheInvariant : Prop :=
  ∀ s t : State, Inv s → step s = .next t → Inv t

/-- 45_dispatcher_sequencer.md R237: the table covers every place a run can be in. That a missing transition would
be the fault noTransition is the model's choice (assumption log 21); no state of the invariant reaches it. -/
def Obligations.ATransitionAlwaysExists : Prop :=
  ∀ s : State, Inv s → step s ≠ .fault .noTransition

/-- 45_dispatcher_sequencer.md R237: a step that changes PHASE follows the transition table. -/
def Obligations.PhaseChangesFollowTheTransitionTable : Prop :=
  ∀ s t : State, step s = .next t → t.status.phase ≠ s.status.phase →
    (s.status.phase, t.status.phase) ∈
      [(Phase.idle, Phase.check), (.check, .idle), (.check, .cloneWait), (.check, .allocWait),
       (.cloneWait, .idle), (.allocWait, .metaWait), (.allocWait, .idle), (.metaWait, .select),
       (.select, .convert), (.select, .freeWait), (.convert, .idle), (.convert, .freeWait),
       (.freeWait, .idle)]

/-- 10_state.md R38, 20_memory.md R80: from a state of the invariant no step taken while BUSY changes the source
descriptor, the palette or the configuration. -/
def Obligations.ARunSeesOneConstantDescriptor : Prop :=
  ∀ s t : State, Inv s → s.status.busy = true → step s = .next t →
    t.src = s.src ∧ t.palette = s.palette ∧ t.cfg = s.cfg

/-- 20_memory.md R69, R71: a core step changes no byte of pixel memory but the three of the pixel it converts,
and none outside CONVERT. -/
def Obligations.CoreStepsWriteOnlyThePixelInHand : Prop :=
  ∀ (s t : State) (rest : List Move), CoreNext s rest → step s = .next t →
    (s.status.phase ≠ .convert → t.mem = s.mem) ∧
    ∀ a, (∀ k, k < 3 → a ≠ dstAddr s s.seqRow.toNat (3 * s.seqCol.toNat + k)) →
      t.mem.get a = s.mem.get a

/-- 45_dispatcher_sequencer.md R261, R263, 20_memory.md R69, 70_reset_and_hazards.md R331: a conversion in which
every pixel's reads succeed with a value fixed by the descriptor, the palette, the configuration and the bytes
that are no pixel bytes of the destination, from whatever those hold, ends after `width * height` pixel steps,
`height` row ends and one end step with a result in which every pixel is the operation's, no other byte changed.
A pixel whose colours are a free value (assumption log 6, 7) has no such fixed value. -/
def Obligations.AConversionRunsToItsResult : Prop :=
  ∀ (s : State) (op : Op) (f : Nat → Nat → Rgb), Begins s op →
    (∀ (u : State) (y x : Nat), u.cfg = s.cfg → u.src = s.src → u.palette = s.palette →
      (∀ a, ¬ destPixelByte s a → u.mem.get a = s.mem.get a) →
      y < s.src.height.toNat → x < s.src.width.toNat →
      ∃ n, pixelFn op u y x = .ok (.rgb (f y x) n)) →
    ∃ t, coreRun (s.src.height.toNat * (s.src.width.toNat + 1) + 1) s = .next t ∧ Converted s t f

/-- 41_palette_unpacker.md R146: at depths 1, 4 and 8, with every index below PLEN and its entry written, and
source and destination apart, the result's pixel at every position is the palette entry of the index decoded
there. -/
def Obligations.PaletteFidelity : Prop :=
  ∀ (s : State) (op : Op) (e : Nat → Nat → BitVec 24), op ∈ [Op.unpack1, .unpack4, .unpack8] → Begins s op →
    (∀ y x, y < s.src.height.toNat → x < s.src.width.toNat →
      sourceInside s y (indexByte op x) ∧
      ¬ destPixelByte s (s.src.base.toNat + y * s.src.pitch.toNat + indexByte op x) ∧
      pixelIndex op s y x < min (s.src.palLen.toNat % 512) 256 ∧
      s.palette.get? (pixelIndex op s y x) = some (e y x)) →
    ∃ t, coreRun (s.src.height.toNat * (s.src.width.toNat + 1) + 1) s = .next t ∧
      Converted s t (fun y x => ⟨BitVec.ofNat 8 ((e y x).toNat / 65536 % 256),
        BitVec.ofNat 8 ((e y x).toNat / 256 % 256), BitVec.ofNat 8 ((e y x).toNat % 256)⟩)

/-- 41_palette_unpacker.md R145, 45_dispatcher_sequencer.md R256, R262, 60_exceptions.md R291, 20_memory.md R69: a
conversion whose first offending pixel in row-major order is (y₀, x₀) stops there: SEQ_ROW = y₀, SEQ_COL = x₀,
PALETTE_INDEX pending, FREE outstanding; every pixel before it is the operation's, and no other byte of pixel
memory, the pixels from (y₀, x₀) on among them, has changed. -/
def Obligations.AConversionStopsAtItsFirstBadIndex : Prop :=
  ∀ (s : State) (op : Op) (f : Nat → Nat → Rgb) (y₀ x₀ : Nat), Begins s op →
    y₀ < s.src.height.toNat → x₀ < s.src.width.toNat →
    (∀ (u : State) (y x : Nat), u.cfg = s.cfg → u.src = s.src → u.palette = s.palette →
      (∀ a, ¬ destPixelByte s a → u.mem.get a = s.mem.get a) → x < s.src.width.toNat →
      (Before y x y₀ x₀ → ∃ n, pixelFn op u y x = .ok (.rgb (f y x) n)) ∧
      (y = y₀ ∧ x = x₀ → pixelFn op u y x = .ok .badIndex)) →
    ∃ t, coreRun (y₀ * (s.src.width.toNat + 1) + x₀ + 1) s = .next t ∧
      t.status = { s.status with phase := .freeWait } ∧ t.pend = some .paletteIndex ∧
      t.svcOut = some (.free s.dst.handle) ∧ t.seqRow.toNat = y₀ ∧ t.seqCol.toNat = x₀ ∧ t.dst = s.dst ∧
      t.src = s.src ∧
      (∀ y x, x < s.src.width.toNat → Before y x y₀ x₀ → getPixel t y x = f y x) ∧
      ∀ a, (∀ y x k, x < s.src.width.toNat → Before y x y₀ x₀ → k < 3 → a ≠ dstAddr s y (3 * x + k)) →
        t.mem.get a = s.mem.get a

/-- 45_dispatcher_sequencer.md R261, R263: a run of a converting operation from START in IDLE, with the ALLOC
granted and the METACOPY acknowledged, ends in IDLE with DONE and the result: the destination's descriptor,
every pixel the operation's, no byte outside the pixel bytes of the granted rows changed. The list of moves, and
that the core goes on when it is empty, are the model's choice (assumption log 1, 2). -/
def Obligations.ARunFromStartEndsInItsResult : Prop :=
  ∀ (s : State) (op : Op) (f : Nat → Nat → Rgb) (h base pitch : Word), s.status.phase = .idle →
    s.mem.wf = true → selectedOp s = some op → Promised s base pitch →
    s.moves = [.wr 0x000 0x00000001, .core, .ans (.grant h base pitch), .ans .ack] →
    (∀ (u : State) (y x : Nat), u.cfg = s.cfg → u.src = s.src → u.palette = s.palette →
      (∀ a, (∀ y' k, y' < s.src.height.toNat → k < 3 * s.src.width.toNat →
        a ≠ base.toNat + y' * pitch.toNat + k) → u.mem.get a = s.mem.get a) →
      y < s.src.height.toNat → x < s.src.width.toNat →
      ∃ n, pixelFn op u y x = .ok (.rgb (f y x) n)) →
    ∃ t, run (5 + (s.src.height.toNat * (s.src.width.toNat + 1) + 1)) s = .next t ∧
      t.status.word = 0x00000002 ∧
      t.dst = ⟨0x00001811, h, s.src.width, s.src.height, pitch, base, (0xFF : Word) <<< (8 * offR s.cfg.layout),
        (0xFF : Word) <<< (8 * offG s.cfg.layout), (0xFF : Word) <<< (8 * offB s.cfg.layout)⟩ ∧
      t.src = s.src ∧
      (∀ y x, y < s.src.height.toNat → x < s.src.width.toNat → getPixel t y x = f y x) ∧
      ∀ a, (∀ y k, y < s.src.height.toNat → k < 3 * s.src.width.toNat →
        a ≠ base.toNat + y * pitch.toNat + k) → t.mem.get a = s.mem.get a
end

