-- ==== Sys2Proof/Laws/Decode.lean ====
section
/-! SUPPORT. Decoding by fields: what the masks of the opcode map select of a word, the fields of a packed
word, and the fields of the dispatch word of a state. -/

namespace Sys2Proof

theorem land_F1 (n : Nat) : (n &&& 0xF1) = n % 2 + 16 * (n / 16 % 16) := by
  have h1 := @Nat.and_mod_two_pow n 0xF1 4
  have h2 := @Nat.and_div_two_pow n 0xF1 4
  have h3 : n / 16 &&& 15 = n / 16 % 16 := Nat.and_two_pow_sub_one_eq_mod (n/16) 4
  have h4 : n % 16 &&& 1 = n % 16 % 2 := Nat.and_two_pow_sub_one_eq_mod (n%16) 1
  norm_num at h1 h2
  rw [h3] at h2
  omega

theorem land_FFF1 (n : Nat) : (n &&& 0xFFF1) = n % 2 + 16 * (n / 16 % 4096) := by
  have h1 := @Nat.and_mod_two_pow n 0xFFF1 4
  have h2 := @Nat.and_div_two_pow n 0xFFF1 4
  have h3 : n / 16 &&& 4095 = n / 16 % 4096 := Nat.and_two_pow_sub_one_eq_mod (n/16) 12
  have h4 : n % 16 &&& 1 = n % 16 % 2 := Nat.and_two_pow_sub_one_eq_mod (n%16) 1
  norm_num at h1 h2
  rw [h3] at h2
  omega

theorem land_1FFF1 (n : Nat) : (n &&& 0x1FFF1) = n % 2 + 16 * (n / 16 % 8192) := by
  have h1 := @Nat.and_mod_two_pow n 0x1FFF1 4
  have h2 := @Nat.and_div_two_pow n 0x1FFF1 4
  have h3 : n / 16 &&& 8191 = n / 16 % 8192 := Nat.and_two_pow_sub_one_eq_mod (n/16) 13
  have h4 : n % 16 &&& 1 = n % 16 % 2 := Nat.and_two_pow_sub_one_eq_mod (n%16) 1
  norm_num at h1 h2
  rw [h3] at h2
  omega

/-- The data of a CTRL write by its bit 0. -/
theorem decode_ctrl (d : Word) : decode .ctrl d =
    if d.toNat % 2 = 1 then .ok (.start (d.toNat / 2)) else .error .noStart := by
  have hd := d.isLt
  have e1 : field d 0 1 = d.toNat % 2 := by rw [field]; omega
  have e2 : field d 1 31 = d.toNat / 2 := by rw [field]; omega
  simp only [decode, e1, e2]

/-- The fields of a dispatch word, with what each mask of the opcode map leaves of it. -/
theorem decode_fields (w : Word) : ∃ (p t b : Nat) (m : Bool), p < 2 ∧ t < 16 ∧ b < 256 ∧
    decode .dispatch w = decodeFields p t b m ∧ (w &&& 0x1).toNat = p ∧ (w &&& 0xF1).toNat = p + 16 * t ∧
    (w &&& 0xFFF1).toNat = p + 16 * t + 256 * b ∧
    (w &&& 0x1FFF1).toNat = p + 16 * t + 256 * b + 65536 * m.toNat := by
  refine ⟨field w 0 1, field w 4 4, field w 8 8, field w 16 1 == 1, ?_⟩
  simp only [BitVec.toNat_and, BitVec.reduceToNat, land_FFF1, land_F1, land_1FFF1, Nat.and_one_is_mod, decode, field]
  have hm : (w.toNat / 2 ^ 16 % 2 ^ 1 == 1).toNat = w.toNat / 2 ^ 16 % 2 ^ 1 := by
    have : w.toNat / 2 ^ 16 % 2 ^ 1 = 0 ∨ w.toNat / 2 ^ 16 % 2 ^ 1 = 1 := by omega
    rcases this with h | h <;> rw [h] <;> rfl
  rw [hm]
  refine ⟨by omega, by omega, by omega, trivial, by omega, by omega, by omega, by omega⟩

/-- A packed word decodes by the fields it was packed from. -/
theorem decode_packDispatch (p t b : Nat) (m : Bool) (hp : p < 2) (ht : t < 16) (hb : b < 256) :
    decode .dispatch (packDispatch p t b m) = decodeFields p t b m := by
  have hm : m.toNat < 2 := by cases m <;> simp
  have e : (packDispatch p t b m).toNat = p + 16*t + 256*b + 65536*m.toNat := by
    simp [packDispatch, BitVec.toNat_ofNat]; omega
  have h1 : field (packDispatch p t b m) 0 1 = p := by simp only [field, e]; omega
  have h2 : field (packDispatch p t b m) 4 4 = t := by simp only [field, e]; omega
  have h3 : field (packDispatch p t b m) 8 8 = b := by simp only [field, e]; omega
  have h4 : field (packDispatch p t b m) 16 1 = m.toNat := by simp only [field, e]; omega
  simp only [decode, h1, h2, h3, h4]
  cases m <;> rfl

namespace Machine

theorem dispatchWord_toNat (s : State) : (dispatchWord s).toNat = s.src.fmt.toNat % 65536 + 65536 * (is565 s).toNat := by
  have := s.src.fmt.isLt
  have hm : (is565 s).toNat < 2 := by cases is565 s <;> simp
  simp only [dispatchWord, BitVec.toNat_ofNat]; omega

/-- The dispatch word decodes by the fields of SRC_FMT and IS565. -/
theorem decode_dispatchWord (s : State) : decode .dispatch (dispatchWord s) =
    decodeFields (s.src.fmt.toNat % 2) (s.src.fmt.toNat / 16 % 16) (s.src.fmt.toNat / 256 % 256) (is565 s) := by
  have hm : (is565 s).toNat < 2 := by cases is565 s <;> simp
  have h1 : field (dispatchWord s) 0 1 = s.src.fmt.toNat % 2 := by rw [field, dispatchWord_toNat]; omega
  have h2 : field (dispatchWord s) 4 4 = s.src.fmt.toNat / 16 % 16 := by rw [field, dispatchWord_toNat]; omega
  have h3 : field (dispatchWord s) 8 8 = s.src.fmt.toNat / 256 % 256 := by rw [field, dispatchWord_toNat]; omega
  have h4 : field (dispatchWord s) 16 1 = (is565 s).toNat := by rw [field, dispatchWord_toNat]; omega
  simp only [decode, h1, h2, h3, h4]
  cases is565 s <;> rfl

end Machine

end Sys2Proof
end

