-- ==== Sys2Proof/Laws/Float.lean ====
section
/-! SUPPORT. Rounding to the sample format: the rounded magnitude is a value of the format, none is nearer, and
it is monotone (00_scope.md R13). -/

namespace Sys2Proof.Machine

/-- `roundShift` is a multiple nearest to `n`, ties to the even one. -/
theorem roundShift_cases (n d : Nat) :
    (roundShift n d = n / 2 ^ d ∧ 2 * (n % 2 ^ d) ≤ 2 ^ d ∧ (2 * (n % 2 ^ d) = 2 ^ d → n / 2 ^ d % 2 = 0)) ∨
    (roundShift n d = n / 2 ^ d + 1 ∧ 2 ^ d ≤ 2 * (n % 2 ^ d) ∧ (2 * (n % 2 ^ d) = 2 ^ d → n / 2 ^ d % 2 = 1)) := by
  simp only [roundShift]
  split
  · right; rename_i h; refine ⟨rfl, by omega, by omega⟩
  · left; rename_i h; refine ⟨rfl, by omega, by omega⟩

theorem roundShift_mono {n n' : Nat} (d : Nat) (h : n ≤ n') : roundShift n d ≤ roundShift n' d := by
  have hd : n / 2 ^ d ≤ n' / 2 ^ d := Nat.div_le_div_right h
  have e1 := Nat.div_add_mod n (2 ^ d)
  have e2 := Nat.div_add_mod n' (2 ^ d)
  rcases Nat.eq_or_lt_of_le hd with e | e
  · rw [e] at e1
    rcases roundShift_cases n d with ⟨h1, h2, h3⟩ | ⟨h1, h2, h3⟩ <;>
    rcases roundShift_cases n' d with ⟨g1, g2, g3⟩ | ⟨g1, g2, g3⟩ <;> rw [h1, g1] <;> try omega
  · rcases roundShift_cases n d with ⟨h1, _⟩ | ⟨h1, _⟩ <;>
    rcases roundShift_cases n' d with ⟨g1, _⟩ | ⟨g1, _⟩ <;> rw [h1, g1] <;> omega

theorem precision_pos (fw : FloatWidth) : 0 < precision fw := by cases fw <;> decide

theorem droppedBits_bound (fw : FloatWidth) (num sh : Nat) : num < 2 ^ (droppedBits fw num sh + precision fw) := by
  have h1 : num < 2 ^ (num.log2 + 1) := Nat.lt_log2_self
  refine lt_of_lt_of_le h1 (Nat.pow_le_pow_right (by omega) ?_)
  unfold droppedBits; omega
theorem droppedBits_le (fw : FloatWidth) (num sh : Nat) : sh ≤ droppedBits fw num sh := by unfold droppedBits; omega
theorem droppedBits_mono (fw : FloatWidth) {num num' : Nat} (sh : Nat) (h : num ≤ num') : droppedBits fw num sh ≤ droppedBits fw num' sh := by
  have : num.log2 ≤ num'.log2 := by
    by_cases h0 : num = 0
    · subst h0; simp
    · exact (Nat.le_log2 (by omega)).2 (le_trans (Nat.log2_self_le h0) h)
  unfold droppedBits; omega
theorem droppedBits_top {fw : FloatWidth} {num sh : Nat} (h : sh < droppedBits fw num sh) : 2 ^ (droppedBits fw num sh + precision fw - 1) ≤ num := by
  have h0 : num ≠ 0 := by
    rintro rfl; have := precision_pos fw; simp [droppedBits] at h; omega
  refine le_trans (Nat.pow_le_pow_right (by omega) ?_) (Nat.log2_self_le h0)
  unfold droppedBits at *; have := precision_pos fw; omega

/-- The magnitude rounding gives, before the overflow test. -/
def roundMag (fw : FloatWidth) (num sh : Nat) : Nat :=
  roundShift num (droppedBits fw num sh) * 2 ^ (droppedBits fw num sh - sh)
theorem round_eq (fw : FloatWidth) (neg : Bool) (num sh : Nat) :
    Datum.round fw neg num sh = if roundMag fw num sh < overflowMag fw then .fin neg (roundMag fw num sh) else .inf neg := rfl

theorem roundShift_le (n d p : Nat) (h : n < 2 ^ (d + p)) : roundShift n d ≤ 2 ^ p := by
  have h1 : n / 2 ^ d < 2 ^ p := by rw [Nat.div_lt_iff_lt_mul (by positivity), ← pow_add, Nat.add_comm]; exact h
  rcases roundShift_cases n d with ⟨h1, _⟩ | ⟨h1, _⟩ <;> omega
theorem le_roundShift (n d p : Nat) (h : 2 ^ (d + p) ≤ n) : 2 ^ p ≤ roundShift n d := by
  have h1 : 2 ^ p ≤ n / 2 ^ d := by rw [Nat.le_div_iff_mul_le (by positivity), ← pow_add, Nat.add_comm]; exact h
  rcases roundShift_cases n d with ⟨h1, _⟩ | ⟨h1, _⟩ <;> omega

theorem roundMag_representable (fw : FloatWidth) (num sh : Nat) : Representable fw (roundMag fw num sh) := by
  have hp := precision_pos fw
  have h := roundShift_le num _ _ (droppedBits_bound fw num sh)
  unfold roundMag
  generalize droppedBits fw num sh - sh = e at *
  generalize roundShift num (droppedBits fw num sh) = k at *
  rcases Nat.eq_or_lt_of_le h with rfl | h
  · refine ⟨2 ^ (precision fw - 1), e + 1, Nat.pow_lt_pow_right (by omega) (by omega), ?_⟩
    rw [← pow_add, ← pow_add]; congr 1; omega
  · exact ⟨k, e, h, rfl⟩

theorem roundMag_mono (fw : FloatWidth) {num num' : Nat} (sh : Nat) (h : num ≤ num') : roundMag fw num sh ≤ roundMag fw num' sh := by
  have hd := droppedBits_mono fw sh h
  have hs := droppedBits_le fw num sh
  have hp := precision_pos fw
  rcases Nat.eq_or_lt_of_le hd with e | e
  · unfold roundMag; rw [← e]; exact Nat.mul_le_mul_right _ (roundShift_mono _ h)
  · -- a higher exponent
    have h1 := roundShift_le num _ _ (droppedBits_bound fw num sh)
    have h2 := le_roundShift num' (droppedBits fw num' sh) (precision fw - 1) (by
      have := droppedBits_top (fw := fw) (num := num') (sh := sh) (by omega)
      refine le_trans (Nat.pow_le_pow_right (by omega) ?_) this; omega)
    unfold roundMag
    calc roundShift num (droppedBits fw num sh) * 2 ^ (droppedBits fw num sh - sh)
        ≤ 2 ^ precision fw * 2 ^ (droppedBits fw num sh - sh) := Nat.mul_le_mul_right _ h1
      _ ≤ 2 ^ (precision fw - 1) * 2 ^ (droppedBits fw num' sh - sh) := by
          rw [← pow_add, ← pow_add]; exact Nat.pow_le_pow_right (by omega) (by omega)
      _ ≤ _ := Nat.mul_le_mul_right _ h2

theorem gap_mul_nearest (n d k : Nat) : gap (roundShift n d * 2 ^ d) n ≤ gap (k * 2 ^ d) n := by
  have e := Nat.div_add_mod n (2 ^ d)
  have hr := Nat.mod_lt n (show 0 < 2 ^ d by positivity)
  rw [Nat.mul_comm] at e
  have key : k ≤ n / 2 ^ d ∨ n / 2 ^ d + 1 ≤ k := by omega
  have hq : (n / 2^d + 1) * 2 ^ d = n / 2 ^ d * 2 ^ d + 2 ^ d := by ring
  unfold gap
  rcases key with hk | hk
  · have := Nat.mul_le_mul_right (2 ^ d) hk
    rcases roundShift_cases n d with ⟨h1, h2, _⟩ | ⟨h1, h2, _⟩ <;> rw [h1] <;> omega
  · have := Nat.mul_le_mul_right (2 ^ d) hk
    rcases roundShift_cases n d with ⟨h1, h2, _⟩ | ⟨h1, h2, _⟩ <;> rw [h1] <;> omega

theorem roundMag_nearest (fw : FloatWidth) (num sh c : Nat) (hc : Representable fw c) :
    gap (roundMag fw num sh * 2 ^ sh) num ≤ gap (c * 2 ^ sh) num := by
  have hs := droppedBits_le fw num sh
  have hp := precision_pos fw
  have e : roundMag fw num sh * 2 ^ sh = roundShift num (droppedBits fw num sh) * 2 ^ droppedBits fw num sh := by
    unfold roundMag; rw [Nat.mul_assoc, ← pow_add]; congr 2; omega
  rw [e]
  obtain ⟨k, x, hk, rfl⟩ := hc
  by_cases hx : droppedBits fw num sh ≤ x + sh
  · have : k * 2 ^ x * 2 ^ sh = (k * 2 ^ (x + sh - droppedBits fw num sh)) * 2 ^ droppedBits fw num sh := by
      rw [Nat.mul_assoc, Nat.mul_assoc, ← pow_add, ← pow_add]; congr 2; omega
    rw [this]; exact gap_mul_nearest _ _ _
  · have ht := droppedBits_top (fw := fw) (num := num) (sh := sh) (by omega)
    have h1 := gap_mul_nearest num (droppedBits fw num sh) (2 ^ (precision fw - 1))
    refine le_trans h1 ?_
    have h2 : 2 ^ (precision fw - 1) * 2 ^ droppedBits fw num sh = 2 ^ (droppedBits fw num sh + precision fw - 1) := by
      rw [← pow_add]; congr 1; omega
    rw [h2]
    have h3 : k * 2 ^ x * 2 ^ sh ≤ 2 ^ (droppedBits fw num sh + precision fw - 1) := by
      calc k * 2 ^ x * 2 ^ sh ≤ 2 ^ precision fw * 2 ^ x * 2 ^ sh := by
            exact Nat.mul_le_mul_right _ (Nat.mul_le_mul_right _ (le_of_lt hk))
        _ = 2 ^ (precision fw + x + sh) := by rw [← pow_add, ← pow_add]
        _ ≤ _ := Nat.pow_le_pow_right (by omega) (by omega)
    unfold gap; omega
/-- Rounding gives a finite datum below a magnitude that does. -/
theorem round_fin {fw : FloatWidth} {neg : Bool} {num num' sh : Nat} (h : num ≤ num') (hb : roundMag fw num' sh < overflowMag fw) :
    Datum.round fw neg num sh = .fin neg (roundMag fw num sh) := by
  rw [round_eq, if_pos (lt_of_le_of_lt (roundMag_mono fw sh h) hb)]

end Sys2Proof.Machine
end

