-- ==== Sys2Proof/Laws/Memory.lean ====
section
/-! SUPPORT. The laws of pixel memory and of the palette LUT: a read after a write, and that every write
keeps the canonical form. -/

namespace Sys2Proof.Machine

theorem Memory.wfFrom_mono {m : Memory} {lo lo' : Nat} (h : lo' ≤ lo) (hm : Memory.wfFrom lo m = true) :
    Memory.wfFrom lo' m = true := by
  cases m with
  | nil => rfl
  | cons c rest =>
    obtain ⟨a, b⟩ := c
    simp only [Memory.wfFrom, Bool.and_eq_true, decide_eq_true_eq] at hm ⊢
    exact ⟨⟨⟨by omega, hm.1.1.2⟩, hm.1.2⟩, hm.2⟩

/-- An address below the listed ones reads as unlisted. -/
theorem Memory.get_below {m : Memory} {lo a : Nat} (hm : Memory.wfFrom lo m = true) (h : a < lo) :
    m.get a = unlistedByte := by
  induction m generalizing lo with
  | nil => rfl
  | cons c rest ih =>
    obtain ⟨a', b⟩ := c
    simp only [Memory.wfFrom, Bool.and_eq_true, decide_eq_true_eq] at hm
    simp only [Memory.get]
    rw [if_neg (by omega)]
    exact ih hm.2 (by omega)

theorem Memory.get_cell_same (a : Nat) (b : Byte) (rest : Memory) (h : rest.get a = unlistedByte) :
    (Memory.cell a b rest).get a = b := by
  unfold Memory.cell
  split
  · next hb => rw [h, hb]
  · simp [Memory.get]

theorem Memory.get_cell_other {a a' : Nat} (b : Byte) (rest : Memory) (h : a' ≠ a) :
    (Memory.cell a b rest).get a' = rest.get a' := by
  unfold Memory.cell
  split
  · rfl
  · simp [Memory.get, h]

/-- A write leaves every other address alone. -/
theorem Memory.get_put_other (m : Memory) {a a' : Nat} (b : Byte) (h : a' ≠ a) :
    (m.put a b).get a' = m.get a' := by
  induction m with
  | nil => exact Memory.get_cell_other b [] h
  | cons c rest ih =>
    obtain ⟨a₁, b₁⟩ := c
    simp only [Memory.put]
    split
    · exact Memory.get_cell_other b _ h
    · split
      · next h2 =>
        subst h2
        rw [Memory.get_cell_other b rest h]
        simp [Memory.get, h]
      · simp only [Memory.get, ih]

theorem Memory.get_put_same_from {m : Memory} {lo : Nat} (hm : Memory.wfFrom lo m = true) (a : Nat)
    (b : Byte) : (m.put a b).get a = b := by
  induction m generalizing lo with
  | nil => exact Memory.get_cell_same a b [] rfl
  | cons c rest ih =>
    obtain ⟨a₁, b₁⟩ := c
    have hm' := hm
    simp only [Memory.wfFrom, Bool.and_eq_true, decide_eq_true_eq] at hm
    simp only [Memory.put]
    split
    · next h1 =>
      refine Memory.get_cell_same a b _ (Memory.get_below (lo := a₁) ?_ h1)
      simp only [Memory.wfFrom, Bool.and_eq_true, decide_eq_true_eq]
      exact ⟨⟨⟨Nat.le_refl _, hm.1.1.2⟩, hm.1.2⟩, hm.2⟩
    · split
      · next h2 =>
        subst h2
        exact Memory.get_cell_same a b rest (Memory.get_below hm.2 (by omega))
      · next h2 =>
        simp only [Memory.get, if_neg h2]
        exact ih hm.2

/-- A read after a write to the same address gives the value written. -/
theorem Memory.get_put_same {m : Memory} (hm : m.wf = true) (a : Nat) (b : Byte) :
    (m.put a b).get a = b := Memory.get_put_same_from hm a b

theorem Memory.wfFrom_cell {lo a : Nat} {b : Byte} {rest : Memory} (h1 : lo ≤ a) (h2 : a < memoryBytes)
    (h3 : Memory.wfFrom (a + 1) rest = true) : Memory.wfFrom lo (Memory.cell a b rest) = true := by
  unfold Memory.cell
  split
  · exact Memory.wfFrom_mono (by omega) h3
  · next hb => simp [Memory.wfFrom, h1, h2, h3, hb]

theorem Memory.wfFrom_put {m : Memory} {lo : Nat} (hm : Memory.wfFrom lo m = true) {a : Nat} (b : Byte)
    (h1 : lo ≤ a) (h2 : a < memoryBytes) : Memory.wfFrom lo (m.put a b) = true := by
  induction m generalizing lo with
  | nil => exact Memory.wfFrom_cell h1 h2 rfl
  | cons c rest ih =>
    obtain ⟨a₁, b₁⟩ := c
    have hm' := hm
    simp only [Memory.wfFrom, Bool.and_eq_true, decide_eq_true_eq] at hm
    simp only [Memory.put]
    split
    · next h3 =>
      refine Memory.wfFrom_cell h1 h2 ?_
      simp only [Memory.wfFrom, Bool.and_eq_true, decide_eq_true_eq]
      exact ⟨⟨⟨by omega, hm.1.1.2⟩, hm.1.2⟩, hm.2⟩
    · split
      · next h4 => subst h4; exact Memory.wfFrom_cell h1 h2 hm.2
      · next h4 =>
        simp only [Memory.wfFrom, Bool.and_eq_true, decide_eq_true_eq]
        exact ⟨⟨⟨hm.1.1.1, hm.1.1.2⟩, hm.1.2⟩, ih hm.2 (by omega)⟩

/-- Every write inside pixel memory keeps the canonical form. -/
theorem Memory.wf_put {m : Memory} (hm : m.wf = true) {a : Nat} (b : Byte) (h : a < memoryBytes) :
    (m.put a b).wf = true := Memory.wfFrom_put hm b (Nat.zero_le a) h

theorem Palette.get?_put_same (p : Palette) (i : Nat) (e : BitVec 24) : (p.put i e).get? i = some e := by
  induction p with
  | nil => simp [Palette.put, Palette.get?]
  | cons c rest ih =>
    obtain ⟨i', e'⟩ := c
    simp only [Palette.put]
    split
    · simp [Palette.get?]
    · split
      · simp [Palette.get?]
      · next h => simp [Palette.get?, h, ih]

theorem Palette.get?_put_other (p : Palette) {i j : Nat} (e : BitVec 24) (h : j ≠ i) :
    (p.put i e).get? j = p.get? j := by
  induction p with
  | nil => simp [Palette.put, Palette.get?, h]
  | cons c rest ih =>
    obtain ⟨i', e'⟩ := c
    simp only [Palette.put]
    split
    · simp [Palette.get?, h]
    · split
      · next h2 => subst h2; simp [Palette.get?, h]
      · simp only [Palette.get?, ih]

theorem Palette.wfFrom_put {p : Palette} {lo : Nat} (hp : Palette.wfFrom lo p = true) {i : Nat}
    (e : BitVec 24) (h1 : lo ≤ i) (h2 : i < 256) : Palette.wfFrom lo (p.put i e) = true := by
  induction p generalizing lo with
  | nil => simp [Palette.put, Palette.wfFrom, h1, h2]
  | cons c rest ih =>
    obtain ⟨i', e'⟩ := c
    simp only [Palette.wfFrom, Bool.and_eq_true, decide_eq_true_eq] at hp
    simp only [Palette.put]
    split
    · next h3 =>
      simp only [Palette.wfFrom, Bool.and_eq_true, decide_eq_true_eq]
      exact ⟨⟨h1, h2⟩, ⟨by omega, hp.1.2⟩, hp.2⟩
    · split
      · next h4 => subst h4; simp only [Palette.wfFrom, Bool.and_eq_true, decide_eq_true_eq]; exact hp
      · simp only [Palette.wfFrom, Bool.and_eq_true, decide_eq_true_eq]
        exact ⟨hp.1, ih hp.2 (by omega)⟩

/-- Every write of an entry keeps the palette's canonical form. -/
theorem Palette.wf_put {p : Palette} (hp : p.wf = true) {i : Nat} (e : BitVec 24) (h : i < 256) :
    (p.put i e).wf = true := Palette.wfFrom_put hp e (Nat.zero_le i) h

end Sys2Proof.Machine
end

