-- ==== Sys2Proof/Laws/PerInstr.lean ====
section
/-! SUPPORT. The family EncodingRow: the encoder's word of a well-formed instruction matches the mask and the match
of its own row of the opcode map (30_encoding.md R115). -/

namespace Sys2Proof.Laws.EncodingRow

/-- The word of a well-formed instruction, under the mask of its row, is the match of its row. -/
def Statement (i : Instr) : Prop :=
  i.wellFormed = true → (encode i).2 &&& (opcodeRow i).1 = (opcodeRow i).2

/-- A word is a row's match under the row's mask when its natural number is. -/
theorem of_nat {w m v : Word} (h : w.toNat &&& m.toNat = v.toNat) : w &&& m = v :=
  BitVec.eq_of_toNat_eq (by rw [BitVec.toNat_and]; exact h)

/-- The natural number of a packed dispatch word. -/
theorem packDispatch_toNat (p t b : Nat) (m : Bool) (hp : p < 2) (ht : t < 16) (hb : b < 256) :
    (packDispatch p t b m).toNat = p + 16 * t + 256 * b + 65536 * m.toNat := by
  have hm : m.toNat < 2 := by cases m <;> simp
  simp only [packDispatch, BitVec.toNat_ofNat]
  omega

theorem rejectNull (t b : Nat) (m : Bool) : Statement (.rejectNull t b m) := by
  intro h
  simp only [Instr.wellFormed, Bool.and_eq_true, decide_eq_true_eq] at h
  refine of_nat ?_
  simp only [encode, opcodeRow, BitVec.reduceToNat, Nat.and_one_is_mod]
  rw [packDispatch_toNat _ _ _ _ (by omega) h.1 h.2]
  omega

theorem unpack1 (m : Bool) : Statement (.unpack1 m) := by
  intro _
  refine of_nat ?_
  simp only [encode, opcodeRow, BitVec.reduceToNat, land_FFF1]
  rw [packDispatch_toNat _ _ _ _ (by omega) (by omega) (by omega)]
  omega

theorem unpack4 (m : Bool) : Statement (.unpack4 m) := by
  intro _
  refine of_nat ?_
  simp only [encode, opcodeRow, BitVec.reduceToNat, land_FFF1]
  rw [packDispatch_toNat _ _ _ _ (by omega) (by omega) (by omega)]
  omega

theorem unpack8 (m : Bool) : Statement (.unpack8 m) := by
  intro _
  refine of_nat ?_
  simp only [encode, opcodeRow, BitVec.reduceToNat, land_FFF1]
  rw [packDispatch_toNat _ _ _ _ (by omega) (by omega) (by omega)]
  omega

theorem unpack555 : Statement (.unpack555) := by
  intro _
  decide

theorem unpack565 : Statement (.unpack565) := by
  intro _
  decide

theorem clone24 (m : Bool) : Statement (.clone24 m) := by
  intro _
  refine of_nat ?_
  simp only [encode, opcodeRow, BitVec.reduceToNat, land_FFF1]
  rw [packDispatch_toNat _ _ _ _ (by omega) (by omega) (by omega)]
  omega

theorem copy32 (m : Bool) : Statement (.copy32 m) := by
  intro _
  refine of_nat ?_
  simp only [encode, opcodeRow, BitVec.reduceToNat, land_FFF1]
  rw [packDispatch_toNat _ _ _ _ (by omega) (by omega) (by omega)]
  omega

theorem truncRgb16 (b : Nat) (m : Bool) : Statement (.truncRgb16 b m) := by
  intro h
  simp only [Instr.wellFormed, decide_eq_true_eq] at h
  refine of_nat ?_
  simp only [encode, opcodeRow, BitVec.reduceToNat, land_F1]
  rw [packDispatch_toNat _ _ _ _ (by omega) (by omega) h]
  omega

theorem truncRgba16 (b : Nat) (m : Bool) : Statement (.truncRgba16 b m) := by
  intro h
  simp only [Instr.wellFormed, decide_eq_true_eq] at h
  refine of_nat ?_
  simp only [encode, opcodeRow, BitVec.reduceToNat, land_F1]
  rw [packDispatch_toNat _ _ _ _ (by omega) (by omega) h]
  omega

theorem toneRgbf (b : Nat) (m : Bool) : Statement (.toneRgbf b m) := by
  intro h
  simp only [Instr.wellFormed, decide_eq_true_eq] at h
  refine of_nat ?_
  simp only [encode, opcodeRow, BitVec.reduceToNat, land_F1]
  rw [packDispatch_toNat _ _ _ _ (by omega) (by omega) h]
  omega

theorem toneRgbaf (b : Nat) (m : Bool) : Statement (.toneRgbaf b m) := by
  intro h
  simp only [Instr.wellFormed, decide_eq_true_eq] at h
  refine of_nat ?_
  simp only [encode, opcodeRow, BitVec.reduceToNat, land_F1]
  rw [packDispatch_toNat _ _ _ _ (by omega) (by omega) h]
  omega

theorem start (n : Nat) : Statement (.start n) := by
  intro h
  simp only [Instr.wellFormed, decide_eq_true_eq] at h
  refine of_nat ?_
  simp only [encode, opcodeRow, BitVec.toNat_ofNat, BitVec.reduceToNat, Nat.and_one_is_mod]
  omega

end Sys2Proof.Laws.EncodingRow
end

