-- ==== Sys2Proof/Laws/State.lean ====
section
/-! SUPPORT. One lemma per field per update of the state, true by rfl, so that no proof unfolds a record
update; and what the failure entry leaves alone. -/

namespace Sys2Proof.Machine

/-! `startRun` -/

@[simp] theorem startRun_cfg (s : State) : (startRun s).cfg = s.cfg := rfl
@[simp] theorem startRun_status (s : State) : (startRun s).status = ⟨true, false, false, .none, .check⟩ := rfl
@[simp] theorem startRun_src (s : State) : (startRun s).src = s.src := rfl
@[simp] theorem startRun_dst (s : State) : (startRun s).dst = DstRegs.zero := rfl
@[simp] theorem startRun_seqRow (s : State) : (startRun s).seqRow = 0 := rfl
@[simp] theorem startRun_seqCol (s : State) : (startRun s).seqCol = 0 := rfl
@[simp] theorem startRun_palette (s : State) : (startRun s).palette = s.palette := rfl
@[simp] theorem startRun_op (s : State) : (startRun s).op = none := rfl
@[simp] theorem startRun_pend (s : State) : (startRun s).pend = none := rfl
@[simp] theorem startRun_svcOut (s : State) : (startRun s).svcOut = none := rfl
@[simp] theorem startRun_mem (s : State) : (startRun s).mem = s.mem := rfl
@[simp] theorem startRun_bitmaps (s : State) : (startRun s).bitmaps = s.bitmaps := rfl
@[simp] theorem startRun_moves (s : State) : (startRun s).moves = s.moves := rfl
@[simp] theorem startRun_rdData (s : State) : (startRun s).rdData = s.rdData := rfl
@[simp] theorem startRun_draws (s : State) : (startRun s).draws = s.draws := rfl

/-! `failDone` -/

@[simp] theorem failDone_cfg (c : Cause) (s : State) : (failDone c s).cfg = s.cfg := rfl
@[simp] theorem failDone_status (c : Cause) (s : State) :
    (failDone c s).status = ⟨false, true, true, c, .idle⟩ := rfl
@[simp] theorem failDone_src (c : Cause) (s : State) : (failDone c s).src = s.src := rfl
@[simp] theorem failDone_dst (c : Cause) (s : State) : (failDone c s).dst = DstRegs.zero := rfl
@[simp] theorem failDone_seqRow (c : Cause) (s : State) : (failDone c s).seqRow = s.seqRow := rfl
@[simp] theorem failDone_seqCol (c : Cause) (s : State) : (failDone c s).seqCol = s.seqCol := rfl
@[simp] theorem failDone_palette (c : Cause) (s : State) : (failDone c s).palette = s.palette := rfl
@[simp] theorem failDone_op (c : Cause) (s : State) : (failDone c s).op = none := rfl
@[simp] theorem failDone_pend (c : Cause) (s : State) : (failDone c s).pend = none := rfl
@[simp] theorem failDone_svcOut (c : Cause) (s : State) : (failDone c s).svcOut = none := rfl
@[simp] theorem failDone_mem (c : Cause) (s : State) : (failDone c s).mem = s.mem := rfl
@[simp] theorem failDone_bitmaps (c : Cause) (s : State) : (failDone c s).bitmaps = s.bitmaps := rfl
@[simp] theorem failDone_moves (c : Cause) (s : State) : (failDone c s).moves = s.moves := rfl
@[simp] theorem failDone_rdData (c : Cause) (s : State) : (failDone c s).rdData = s.rdData := rfl
@[simp] theorem failDone_draws (c : Cause) (s : State) : (failDone c s).draws = s.draws := rfl

/-! `success` -/

@[simp] theorem success_cfg (s : State) : (success s).cfg = s.cfg := rfl
@[simp] theorem success_status (s : State) : (success s).status = ⟨false, true, false, .none, .idle⟩ := rfl
@[simp] theorem success_src (s : State) : (success s).src = s.src := rfl
@[simp] theorem success_dst (s : State) : (success s).dst = { s.dst with fmt := resultFmt } := rfl
@[simp] theorem success_seqRow (s : State) : (success s).seqRow = s.seqRow := rfl
@[simp] theorem success_seqCol (s : State) : (success s).seqCol = s.seqCol := rfl
@[simp] theorem success_palette (s : State) : (success s).palette = s.palette := rfl
@[simp] theorem success_op (s : State) : (success s).op = none := rfl
@[simp] theorem success_pend (s : State) : (success s).pend = none := rfl
@[simp] theorem success_svcOut (s : State) : (success s).svcOut = none := rfl
@[simp] theorem success_mem (s : State) : (success s).mem = s.mem := rfl
@[simp] theorem success_bitmaps (s : State) : (success s).bitmaps = s.bitmaps := rfl
@[simp] theorem success_moves (s : State) : (success s).moves = s.moves := rfl
@[simp] theorem success_rdData (s : State) : (success s).rdData = s.rdData := rfl
@[simp] theorem success_draws (s : State) : (success s).draws = s.draws := rfl

/-! `atPhase` -/

@[simp] theorem atPhase_cfg (p : Phase) (s : State) : (atPhase p s).cfg = s.cfg := rfl
@[simp] theorem atPhase_status (p : Phase) (s : State) :
    (atPhase p s).status = { s.status with phase := p } := rfl
@[simp] theorem atPhase_src (p : Phase) (s : State) : (atPhase p s).src = s.src := rfl
@[simp] theorem atPhase_dst (p : Phase) (s : State) : (atPhase p s).dst = s.dst := rfl
@[simp] theorem atPhase_seqRow (p : Phase) (s : State) : (atPhase p s).seqRow = 0 := rfl
@[simp] theorem atPhase_seqCol (p : Phase) (s : State) : (atPhase p s).seqCol = 0 := rfl
@[simp] theorem atPhase_palette (p : Phase) (s : State) : (atPhase p s).palette = s.palette := rfl
@[simp] theorem atPhase_op (p : Phase) (s : State) : (atPhase p s).op = s.op := rfl
@[simp] theorem atPhase_pend (p : Phase) (s : State) : (atPhase p s).pend = s.pend := rfl
@[simp] theorem atPhase_svcOut (p : Phase) (s : State) : (atPhase p s).svcOut = s.svcOut := rfl
@[simp] theorem atPhase_mem (p : Phase) (s : State) : (atPhase p s).mem = s.mem := rfl
@[simp] theorem atPhase_bitmaps (p : Phase) (s : State) : (atPhase p s).bitmaps = s.bitmaps := rfl
@[simp] theorem atPhase_moves (p : Phase) (s : State) : (atPhase p s).moves = s.moves := rfl
@[simp] theorem atPhase_rdData (p : Phase) (s : State) : (atPhase p s).rdData = s.rdData := rfl
@[simp] theorem atPhase_draws (p : Phase) (s : State) : (atPhase p s).draws = s.draws := rfl

/-! `allocRequest` -/

@[simp] theorem allocRequest_cfg (s : State) : (allocRequest s).cfg = s.cfg := rfl
@[simp] theorem allocRequest_status (s : State) :
    (allocRequest s).status = { s.status with phase := .allocWait } := rfl
@[simp] theorem allocRequest_src (s : State) : (allocRequest s).src = s.src := rfl
@[simp] theorem allocRequest_dst (s : State) :
    (allocRequest s).dst = { s.dst with rmask := channelMask (offR s.cfg.layout), gmask := channelMask (offG s.cfg.layout), bmask := channelMask (offB s.cfg.layout) } := rfl
@[simp] theorem allocRequest_seqRow (s : State) : (allocRequest s).seqRow = 0 := rfl
@[simp] theorem allocRequest_seqCol (s : State) : (allocRequest s).seqCol = 0 := rfl
@[simp] theorem allocRequest_palette (s : State) : (allocRequest s).palette = s.palette := rfl
@[simp] theorem allocRequest_op (s : State) : (allocRequest s).op = s.op := rfl
@[simp] theorem allocRequest_pend (s : State) : (allocRequest s).pend = s.pend := rfl
@[simp] theorem allocRequest_svcOut (s : State) :
    (allocRequest s).svcOut = some (.alloc s.src.width s.src.height 24 (channelMask (offR s.cfg.layout)) (channelMask (offG s.cfg.layout)) (channelMask (offB s.cfg.layout))) := rfl
@[simp] theorem allocRequest_mem (s : State) : (allocRequest s).mem = s.mem := rfl
@[simp] theorem allocRequest_bitmaps (s : State) : (allocRequest s).bitmaps = s.bitmaps := rfl
@[simp] theorem allocRequest_moves (s : State) : (allocRequest s).moves = s.moves := rfl
@[simp] theorem allocRequest_rdData (s : State) : (allocRequest s).rdData = s.rdData := rfl
@[simp] theorem allocRequest_draws (s : State) : (allocRequest s).draws = s.draws := rfl

/-! `selectOp` -/

@[simp] theorem selectOp_cfg (op : Op) (s : State) : (selectOp op s).cfg = s.cfg := rfl
@[simp] theorem selectOp_status (op : Op) (s : State) :
    (selectOp op s).status = { s.status with phase := .convert } := rfl
@[simp] theorem selectOp_src (op : Op) (s : State) : (selectOp op s).src = s.src := rfl
@[simp] theorem selectOp_dst (op : Op) (s : State) : (selectOp op s).dst = s.dst := rfl
@[simp] theorem selectOp_seqRow (op : Op) (s : State) : (selectOp op s).seqRow = 0 := rfl
@[simp] theorem selectOp_seqCol (op : Op) (s : State) : (selectOp op s).seqCol = 0 := rfl
@[simp] theorem selectOp_palette (op : Op) (s : State) : (selectOp op s).palette = s.palette := rfl
@[simp] theorem selectOp_op (op : Op) (s : State) : (selectOp op s).op = some op := rfl
@[simp] theorem selectOp_pend (op : Op) (s : State) : (selectOp op s).pend = s.pend := rfl
@[simp] theorem selectOp_svcOut (op : Op) (s : State) : (selectOp op s).svcOut = s.svcOut := rfl
@[simp] theorem selectOp_mem (op : Op) (s : State) : (selectOp op s).mem = s.mem := rfl
@[simp] theorem selectOp_bitmaps (op : Op) (s : State) : (selectOp op s).bitmaps = s.bitmaps := rfl
@[simp] theorem selectOp_moves (op : Op) (s : State) : (selectOp op s).moves = s.moves := rfl
@[simp] theorem selectOp_rdData (op : Op) (s : State) : (selectOp op s).rdData = s.rdData := rfl
@[simp] theorem selectOp_draws (op : Op) (s : State) : (selectOp op s).draws = s.draws := rfl

/-! `pixelDone` -/

@[simp] theorem pixelDone_cfg (m : Memory) (n : Nat) (s : State) : (pixelDone m n s).cfg = s.cfg := rfl
@[simp] theorem pixelDone_status (m : Memory) (n : Nat) (s : State) :
    (pixelDone m n s).status = s.status := rfl
@[simp] theorem pixelDone_src (m : Memory) (n : Nat) (s : State) : (pixelDone m n s).src = s.src := rfl
@[simp] theorem pixelDone_dst (m : Memory) (n : Nat) (s : State) : (pixelDone m n s).dst = s.dst := rfl
@[simp] theorem pixelDone_seqRow (m : Memory) (n : Nat) (s : State) :
    (pixelDone m n s).seqRow = s.seqRow := rfl
@[simp] theorem pixelDone_seqCol (m : Memory) (n : Nat) (s : State) :
    (pixelDone m n s).seqCol = s.seqCol + 1 := rfl
@[simp] theorem pixelDone_palette (m : Memory) (n : Nat) (s : State) :
    (pixelDone m n s).palette = s.palette := rfl
@[simp] theorem pixelDone_op (m : Memory) (n : Nat) (s : State) : (pixelDone m n s).op = s.op := rfl
@[simp] theorem pixelDone_pend (m : Memory) (n : Nat) (s : State) : (pixelDone m n s).pend = s.pend := rfl
@[simp] theorem pixelDone_svcOut (m : Memory) (n : Nat) (s : State) :
    (pixelDone m n s).svcOut = s.svcOut := rfl
@[simp] theorem pixelDone_mem (m : Memory) (n : Nat) (s : State) : (pixelDone m n s).mem = m := rfl
@[simp] theorem pixelDone_bitmaps (m : Memory) (n : Nat) (s : State) :
    (pixelDone m n s).bitmaps = s.bitmaps := rfl
@[simp] theorem pixelDone_moves (m : Memory) (n : Nat) (s : State) : (pixelDone m n s).moves = s.moves := rfl
@[simp] theorem pixelDone_rdData (m : Memory) (n : Nat) (s : State) :
    (pixelDone m n s).rdData = s.rdData := rfl
@[simp] theorem pixelDone_draws (m : Memory) (n : Nat) (s : State) : (pixelDone m n s).draws = n := rfl

/-! `rowEnd` -/

@[simp] theorem rowEnd_cfg (s : State) : (rowEnd s).cfg = s.cfg := rfl
@[simp] theorem rowEnd_status (s : State) : (rowEnd s).status = s.status := rfl
@[simp] theorem rowEnd_src (s : State) : (rowEnd s).src = s.src := rfl
@[simp] theorem rowEnd_dst (s : State) : (rowEnd s).dst = s.dst := rfl
@[simp] theorem rowEnd_seqRow (s : State) : (rowEnd s).seqRow = s.seqRow + 1 := rfl
@[simp] theorem rowEnd_seqCol (s : State) : (rowEnd s).seqCol = 0 := rfl
@[simp] theorem rowEnd_palette (s : State) : (rowEnd s).palette = s.palette := rfl
@[simp] theorem rowEnd_op (s : State) : (rowEnd s).op = s.op := rfl
@[simp] theorem rowEnd_pend (s : State) : (rowEnd s).pend = s.pend := rfl
@[simp] theorem rowEnd_svcOut (s : State) : (rowEnd s).svcOut = s.svcOut := rfl
@[simp] theorem rowEnd_mem (s : State) : (rowEnd s).mem = s.mem := rfl
@[simp] theorem rowEnd_bitmaps (s : State) : (rowEnd s).bitmaps = s.bitmaps := rfl
@[simp] theorem rowEnd_moves (s : State) : (rowEnd s).moves = s.moves := rfl
@[simp] theorem rowEnd_rdData (s : State) : (rowEnd s).rdData = s.rdData := rfl
@[simp] theorem rowEnd_draws (s : State) : (rowEnd s).draws = s.draws := rfl

/-! `cloneRequest` -/

@[simp] theorem cloneRequest_cfg (s : State) : (cloneRequest s).cfg = s.cfg := rfl
@[simp] theorem cloneRequest_status (s : State) :
    (cloneRequest s).status = { s.status with phase := .cloneWait } := rfl
@[simp] theorem cloneRequest_src (s : State) : (cloneRequest s).src = s.src := rfl
@[simp] theorem cloneRequest_dst (s : State) : (cloneRequest s).dst = s.dst := rfl
@[simp] theorem cloneRequest_seqRow (s : State) : (cloneRequest s).seqRow = 0 := rfl
@[simp] theorem cloneRequest_seqCol (s : State) : (cloneRequest s).seqCol = 0 := rfl
@[simp] theorem cloneRequest_palette (s : State) : (cloneRequest s).palette = s.palette := rfl
@[simp] theorem cloneRequest_op (s : State) : (cloneRequest s).op = s.op := rfl
@[simp] theorem cloneRequest_pend (s : State) : (cloneRequest s).pend = s.pend := rfl
@[simp] theorem cloneRequest_svcOut (s : State) : (cloneRequest s).svcOut = some (.clone s.src.handle) := rfl
@[simp] theorem cloneRequest_mem (s : State) : (cloneRequest s).mem = s.mem := rfl
@[simp] theorem cloneRequest_bitmaps (s : State) : (cloneRequest s).bitmaps = s.bitmaps := rfl
@[simp] theorem cloneRequest_moves (s : State) : (cloneRequest s).moves = s.moves := rfl
@[simp] theorem cloneRequest_rdData (s : State) : (cloneRequest s).rdData = s.rdData := rfl
@[simp] theorem cloneRequest_draws (s : State) : (cloneRequest s).draws = s.draws := rfl

/-! `allocGranted` -/

@[simp] theorem allocGranted_cfg (h base pitch : Word) (s : State) :
    (allocGranted h base pitch s).cfg = s.cfg := rfl
@[simp] theorem allocGranted_status (h base pitch : Word) (s : State) :
    (allocGranted h base pitch s).status = { s.status with phase := .metaWait } := rfl
@[simp] theorem allocGranted_src (h base pitch : Word) (s : State) :
    (allocGranted h base pitch s).src = s.src := rfl
@[simp] theorem allocGranted_dst (h base pitch : Word) (s : State) :
    (allocGranted h base pitch s).dst = grantDst s h base pitch := rfl
@[simp] theorem allocGranted_seqRow (h base pitch : Word) (s : State) :
    (allocGranted h base pitch s).seqRow = 0 := rfl
@[simp] theorem allocGranted_seqCol (h base pitch : Word) (s : State) :
    (allocGranted h base pitch s).seqCol = 0 := rfl
@[simp] theorem allocGranted_palette (h base pitch : Word) (s : State) :
    (allocGranted h base pitch s).palette = s.palette := rfl
@[simp] theorem allocGranted_op (h base pitch : Word) (s : State) :
    (allocGranted h base pitch s).op = s.op := rfl
@[simp] theorem allocGranted_pend (h base pitch : Word) (s : State) :
    (allocGranted h base pitch s).pend = s.pend := rfl
@[simp] theorem allocGranted_svcOut (h base pitch : Word) (s : State) :
    (allocGranted h base pitch s).svcOut = some (.metacopy h s.src.handle) := rfl
@[simp] theorem allocGranted_mem (h base pitch : Word) (s : State) :
    (allocGranted h base pitch s).mem = s.mem := rfl
@[simp] theorem allocGranted_bitmaps (h base pitch : Word) (s : State) :
    (allocGranted h base pitch s).bitmaps = putBitmap s.bitmaps (allocBitmap s h base pitch) := rfl
@[simp] theorem allocGranted_moves (h base pitch : Word) (s : State) :
    (allocGranted h base pitch s).moves = s.moves := rfl
@[simp] theorem allocGranted_rdData (h base pitch : Word) (s : State) :
    (allocGranted h base pitch s).rdData = s.rdData := rfl
@[simp] theorem allocGranted_draws (h base pitch : Word) (s : State) :
    (allocGranted h base pitch s).draws = s.draws + 1 := rfl

/-! `cloneGranted` -/

@[simp] theorem cloneGranted_cfg (m : Memory) (h base pitch : Word) (s : State) :
    (cloneGranted m h base pitch s).cfg = s.cfg := rfl
@[simp] theorem cloneGranted_status (m : Memory) (h base pitch : Word) (s : State) :
    (cloneGranted m h base pitch s).status = ⟨false, true, false, .none, .idle⟩ := rfl
@[simp] theorem cloneGranted_src (m : Memory) (h base pitch : Word) (s : State) :
    (cloneGranted m h base pitch s).src = s.src := rfl
@[simp] theorem cloneGranted_dst (m : Memory) (h base pitch : Word) (s : State) :
    (cloneGranted m h base pitch s).dst = { cloneDst s h base pitch with fmt := resultFmt } := rfl
@[simp] theorem cloneGranted_seqRow (m : Memory) (h base pitch : Word) (s : State) :
    (cloneGranted m h base pitch s).seqRow = s.seqRow := rfl
@[simp] theorem cloneGranted_seqCol (m : Memory) (h base pitch : Word) (s : State) :
    (cloneGranted m h base pitch s).seqCol = s.seqCol := rfl
@[simp] theorem cloneGranted_palette (m : Memory) (h base pitch : Word) (s : State) :
    (cloneGranted m h base pitch s).palette = s.palette := rfl
@[simp] theorem cloneGranted_op (m : Memory) (h base pitch : Word) (s : State) :
    (cloneGranted m h base pitch s).op = none := rfl
@[simp] theorem cloneGranted_pend (m : Memory) (h base pitch : Word) (s : State) :
    (cloneGranted m h base pitch s).pend = none := rfl
@[simp] theorem cloneGranted_svcOut (m : Memory) (h base pitch : Word) (s : State) :
    (cloneGranted m h base pitch s).svcOut = none := rfl
@[simp] theorem cloneGranted_mem (m : Memory) (h base pitch : Word) (s : State) :
    (cloneGranted m h base pitch s).mem = m := rfl
@[simp] theorem cloneGranted_bitmaps (m : Memory) (h base pitch : Word) (s : State) :
    (cloneGranted m h base pitch s).bitmaps = putBitmap s.bitmaps (cloneBitmap s h base pitch) := rfl
@[simp] theorem cloneGranted_moves (m : Memory) (h base pitch : Word) (s : State) :
    (cloneGranted m h base pitch s).moves = s.moves := rfl
@[simp] theorem cloneGranted_rdData (m : Memory) (h base pitch : Word) (s : State) :
    (cloneGranted m h base pitch s).rdData = s.rdData := rfl
@[simp] theorem cloneGranted_draws (m : Memory) (h base pitch : Word) (s : State) :
    (cloneGranted m h base pitch s).draws = s.draws := rfl

/-! `metaCopied` -/

@[simp] theorem metaCopied_cfg (dst src : Word) (s : State) : (metaCopied dst src s).cfg = s.cfg := rfl
@[simp] theorem metaCopied_status (dst src : Word) (s : State) :
    (metaCopied dst src s).status = { s.status with phase := .select } := rfl
@[simp] theorem metaCopied_src (dst src : Word) (s : State) : (metaCopied dst src s).src = s.src := rfl
@[simp] theorem metaCopied_dst (dst src : Word) (s : State) : (metaCopied dst src s).dst = s.dst := rfl
@[simp] theorem metaCopied_seqRow (dst src : Word) (s : State) : (metaCopied dst src s).seqRow = 0 := rfl
@[simp] theorem metaCopied_seqCol (dst src : Word) (s : State) : (metaCopied dst src s).seqCol = 0 := rfl
@[simp] theorem metaCopied_palette (dst src : Word) (s : State) :
    (metaCopied dst src s).palette = s.palette := rfl
@[simp] theorem metaCopied_op (dst src : Word) (s : State) : (metaCopied dst src s).op = s.op := rfl
@[simp] theorem metaCopied_pend (dst src : Word) (s : State) : (metaCopied dst src s).pend = s.pend := rfl
@[simp] theorem metaCopied_svcOut (dst src : Word) (s : State) : (metaCopied dst src s).svcOut = none := rfl
@[simp] theorem metaCopied_mem (dst src : Word) (s : State) : (metaCopied dst src s).mem = s.mem := rfl
@[simp] theorem metaCopied_bitmaps (dst src : Word) (s : State) :
    (metaCopied dst src s).bitmaps = copyMeta s dst src := rfl
@[simp] theorem metaCopied_moves (dst src : Word) (s : State) : (metaCopied dst src s).moves = s.moves := rfl
@[simp] theorem metaCopied_rdData (dst src : Word) (s : State) :
    (metaCopied dst src s).rdData = s.rdData := rfl
@[simp] theorem metaCopied_draws (dst src : Word) (s : State) : (metaCopied dst src s).draws = s.draws := rfl

/-! `freed` -/

@[simp] theorem freed_cfg (h : Word) (c : Cause) (s : State) : (freed h c s).cfg = s.cfg := rfl
@[simp] theorem freed_status (h : Word) (c : Cause) (s : State) :
    (freed h c s).status = ⟨false, true, true, c, .idle⟩ := rfl
@[simp] theorem freed_src (h : Word) (c : Cause) (s : State) : (freed h c s).src = s.src := rfl
@[simp] theorem freed_dst (h : Word) (c : Cause) (s : State) : (freed h c s).dst = DstRegs.zero := rfl
@[simp] theorem freed_seqRow (h : Word) (c : Cause) (s : State) : (freed h c s).seqRow = s.seqRow := rfl
@[simp] theorem freed_seqCol (h : Word) (c : Cause) (s : State) : (freed h c s).seqCol = s.seqCol := rfl
@[simp] theorem freed_palette (h : Word) (c : Cause) (s : State) : (freed h c s).palette = s.palette := rfl
@[simp] theorem freed_op (h : Word) (c : Cause) (s : State) : (freed h c s).op = none := rfl
@[simp] theorem freed_pend (h : Word) (c : Cause) (s : State) : (freed h c s).pend = none := rfl
@[simp] theorem freed_svcOut (h : Word) (c : Cause) (s : State) : (freed h c s).svcOut = none := rfl
@[simp] theorem freed_mem (h : Word) (c : Cause) (s : State) : (freed h c s).mem = s.mem := rfl
@[simp] theorem freed_bitmaps (h : Word) (c : Cause) (s : State) :
    (freed h c s).bitmaps = dropBitmap s.bitmaps h := rfl
@[simp] theorem freed_moves (h : Word) (c : Cause) (s : State) : (freed h c s).moves = s.moves := rfl
@[simp] theorem freed_rdData (h : Word) (c : Cause) (s : State) : (freed h c s).rdData = s.rdData := rfl
@[simp] theorem freed_draws (h : Word) (c : Cause) (s : State) : (freed h c s).draws = s.draws := rfl

/-! `raiseFail` -/

theorem raiseFail_held {c : Cause} {s : State} (h : s.status.phase = .select ∨ s.status.phase = .convert) :
    raiseFail c s = { s with
      status := { s.status with phase := .freeWait }
      pend := some c
      svcOut := some (.free s.dst.handle) } := by
  rcases h with h | h <;> simp [raiseFail, h]

theorem raiseFail_early {c : Cause} {s : State} (h1 : s.status.phase ≠ .select)
    (h2 : s.status.phase ≠ .convert) : raiseFail c s = failDone c s := by
  unfold raiseFail
  cases h : s.status.phase <;> simp_all

@[simp] theorem raiseFail_cfg (c : Cause) (s : State) : (raiseFail c s).cfg = s.cfg := by
  unfold raiseFail; cases s.status.phase <;> rfl
@[simp] theorem raiseFail_src (c : Cause) (s : State) : (raiseFail c s).src = s.src := by
  unfold raiseFail; cases s.status.phase <;> rfl
@[simp] theorem raiseFail_seqRow (c : Cause) (s : State) : (raiseFail c s).seqRow = s.seqRow := by
  unfold raiseFail; cases s.status.phase <;> rfl
@[simp] theorem raiseFail_seqCol (c : Cause) (s : State) : (raiseFail c s).seqCol = s.seqCol := by
  unfold raiseFail; cases s.status.phase <;> rfl
@[simp] theorem raiseFail_palette (c : Cause) (s : State) : (raiseFail c s).palette = s.palette := by
  unfold raiseFail; cases s.status.phase <;> rfl
@[simp] theorem raiseFail_mem (c : Cause) (s : State) : (raiseFail c s).mem = s.mem := by
  unfold raiseFail; cases s.status.phase <;> rfl
@[simp] theorem raiseFail_bitmaps (c : Cause) (s : State) : (raiseFail c s).bitmaps = s.bitmaps := by
  unfold raiseFail; cases s.status.phase <;> rfl
@[simp] theorem raiseFail_moves (c : Cause) (s : State) : (raiseFail c s).moves = s.moves := by
  unfold raiseFail; cases s.status.phase <;> rfl
@[simp] theorem raiseFail_rdData (c : Cause) (s : State) : (raiseFail c s).rdData = s.rdData := by
  unfold raiseFail; cases s.status.phase <;> rfl
@[simp] theorem raiseFail_draws (c : Cause) (s : State) : (raiseFail c s).draws = s.draws := by
  unfold raiseFail; cases s.status.phase <;> rfl

end Sys2Proof.Machine
end

