-- ==== Sys2Proof/Laws/Pixel.lean ====
section
/-! SUPPORT. What the operand reads give inside pixel memory, what a pixel step writes, and what every
converting operation is at a pixel. -/

namespace Sys2Proof.Machine

/-- A converting operation's meaning is the sequencer's step over its reads. -/
theorem exec_converting {i : Instr} {op : Op} (h : convertingOp i = some op) (s : State) :
    exec i s = convertingStep op (pixelFn op) s := by
  cases i <;> simp [convertingOp] at h <;> subst h <;> rfl

theorem convertingOp_instr (op : Op) : convertingOp op.instr = some op := by cases op <;> rfl

/-- The masks of the destination are the channel bytes (10_state.md R34). -/
theorem channelMask_eq (l : Layout) : channelMask (offR l) = (0xFF : Word) <<< (8 * offR l) ∧
   channelMask (offG l) = (0xFF : Word) <<< (8 * offG l) ∧ channelMask (offB l) = (0xFF : Word) <<< (8 * offB l) := by
  cases l <;> decide

/-- The channel offsets are the three bytes of a pixel, each once. -/
theorem layout_offsets (l : Layout) : (∀ k, k < 3 → k = offR l ∨ k = offG l ∨ k = offB l) ∧ offR l < 3 ∧ offG l < 3 ∧ offB l < 3 ∧ offR l ≠ offG l ∧ offR l ≠ offB l ∧ offG l ≠ offB l := by
  cases l <;> refine ⟨?_, by decide⟩ <;> intro k hk <;> simp [offR, offG, offB] <;> omega

/-- A source byte inside pixel memory reads as memory holds it. -/
theorem srcByte_ok {s : State} {y k : Nat} (h : sourceInside s y k) : srcByte s y k = .ok (sourceByte s y k) := by
  have h' : srcAddr s y k < memoryBytes := h
  simp only [srcByte, if_pos h']; rfl

theorem sourceInside_mono {s : State} {y k k' : Nat} (h : sourceInside s y k) (hk : k' ≤ k) : sourceInside s y k' := by
  unfold sourceInside at *; omega

theorem srcBytes_ok {s : State} {y k : Nat} (n : Nat) (h : sourceInside s y (k + n - 1)) : srcBytes s y k n = .ok ((List.range n).map (fun j => sourceByte s y (k + j))) := by
  induction n generalizing k with
  | zero => rfl
  | succ n ih =>
    rw [srcBytes, srcByte_ok (sourceInside_mono h (by omega))]
    rw [ih (sourceInside_mono h (by omega))]
    simp [bind, Except.bind, List.range_succ_eq_map, Function.comp_def]
    intro a _; congr 1; omega

theorem srcBytes_two {s : State} {y k : Nat} (h : sourceInside s y (k+1)) : srcBytes s y k 2 = .ok [sourceByte s y k, sourceByte s y (k+1)] := by
  simp [srcBytes, srcByte_ok h, srcByte_ok (sourceInside_mono h (Nat.le_succ k)), bind, Except.bind]

theorem ch16_ok {s : State} {y k : Nat} (h : sourceInside s y (k+1)) : ch16 s y k = .ok ((sourceByte s y k).toNat + 256 * (sourceByte s y (k+1)).toNat) := by
  simp [ch16, srcBytes_two h, bind, Except.bind, leNat]

theorem toneAt_ok {s : State} {y k n : Nat} (h : sourceInside s y (k + sampleBytes s.cfg.fw - 1)) :
   toneAt s y k n = .ok (tone s.cfg n (Datum.ofBits s.cfg.fw (sampleEncoding s y k))) := by
  simp only [toneAt, sampleBits, srcBytes_ok _ h]; rfl

/-- Writing a pixel keeps the canonical form. -/
theorem putPixel_wf {s : State} {y x : Nat} {p : Rgb} {m : Memory} (hw : s.mem.wf = true) (h : putPixel s y x p = .ok m) : m.wf = true := by
  unfold putPixel at h
  obtain ⟨-, h1, h2, h3, -⟩ := layout_offsets s.cfg.layout
  split at h
  · rename_i hb
    cases h
    unfold pixelTop dstAddr at hb
    exact Memory.wf_put (Memory.wf_put (Memory.wf_put hw _ (by unfold dstAddr; omega)) _ (by unfold dstAddr; omega)) _ (by unfold dstAddr; omega)
  · cases h

/-- Everything a pixel step whose reads give a triple does inside pixel memory. -/
theorem pixelStep_written {pix : PixelFn} {s : State} {p : Rgb} {n : Nat} (hw : s.mem.wf = true) (ho : outputInside s)
    (h : pix s s.seqRow.toNat s.seqCol.toNat = .ok (.rgb p n)) : ∃ t, pixelStep pix s = .next t ∧ PixelWritten s t p n := by
  have ho' : pixelTop s s.seqRow.toNat s.seqCol.toNat < memoryBytes := ho
  have hlt : ∀ k, k < 3 → dstAddr s s.seqRow.toNat (3 * s.seqCol.toNat + k) < memoryBytes := by
    intro k hk; unfold pixelTop dstAddr at *; omega
  simp only [pixelStep, h, putPixel, if_pos ho']
  obtain ⟨hk, h1, h2, h3, n1, n2, n3⟩ := layout_offsets s.cfg.layout
  have inj : ∀ j k, j ≠ k → dstAddr s s.seqRow.toNat (3 * s.seqCol.toNat + j) ≠ dstAddr s s.seqRow.toNat (3 * s.seqCol.toNat + k) := by
    intro j k; unfold dstAddr; omega
  refine ⟨_, rfl, ?_, ?_, ?_, ?_, rfl⟩
  · simp only [pixelDone]
    rw [Memory.get_put_other _ _ (inj _ _ n2), Memory.get_put_other _ _ (inj _ _ n1), Memory.get_put_same hw]
  · simp only [pixelDone]
    rw [Memory.get_put_other _ _ (inj _ _ n3), Memory.get_put_same (Memory.wf_put hw _ (hlt _ h1))]
  · simp only [pixelDone]
    rw [Memory.get_put_same (Memory.wf_put (Memory.wf_put hw _ (hlt _ h1)) _ (hlt _ h2))]
  · intro a ha
    simp only [pixelDone]
    rw [Memory.get_put_other _ _ (ha _ h3), Memory.get_put_other _ _ (ha _ h2), Memory.get_put_other _ _ (ha _ h1)]

/-- At a pixel a converting operation is its pixel step. -/
theorem exec_atPixel {i : Instr} {op : Op} (h : convertingOp i = some op) {s : State} (ha : AtPixel s) :
    exec i s = pixelStep (pixelFn op) s := by
  rw [exec_converting h]; simp only [convertingStep, ha.convert, convertStep]
  rw [if_neg (by intro e; have := ha.row; rw [e] at this; omega), if_pos ha.row, if_pos ha.col]

/-- A read that fails fails on an address outside pixel memory, and on nothing else (20_memory.md R74). -/
theorem pixelFn_error {op : Op} {s : State} {y x : Nat} {f : Fault} (h : pixelFn op s y x = .error f) :
    ∃ a, 4294967296 ≤ a ∧ f = .addressOutOfRange a := by
  have e1 : ∀ y k f, srcByte s y k = .error f → ∃ a, 4294967296 ≤ a ∧ f = .addressOutOfRange a := by
    intro y k f h
    simp only [srcByte] at h
    split at h
    · cases h
    · cases h; exact ⟨_, by unfold memoryBytes at *; omega, rfl⟩
  have e2 : ∀ n y k f, srcBytes s y k n = .error f → ∃ a, 4294967296 ≤ a ∧ f = .addressOutOfRange a := by
    intro n
    induction n with
    | zero => intro y k f h; cases h
    | succ n ih =>
      intro y k f h
      rw [srcBytes] at h
      cases hb : srcByte s y k with
      | error g => rw [hb] at h; cases h; exact e1 _ _ _ hb
      | ok b =>
        rw [hb] at h
        cases hr : srcBytes s y (k+1) n with
        | error g => simp [bind, Except.bind, hr] at h; subst h; exact ih _ _ _ hr
        | ok r => simp [bind, Except.bind, hr] at h
  have e3 : ∀ y k f, ch16 s y k = .error f → ∃ a, 4294967296 ≤ a ∧ f = .addressOutOfRange a := by
    intro y k f h
    cases hb : srcBytes s y k 2 with
    | error g => simp [ch16, bind, Except.bind, hb] at h; subst h; exact e2 _ _ _ _ hb
    | ok r => simp [ch16, bind, Except.bind, hb] at h
  have e4 : ∀ y k n f, toneAt s y k n = .error f → ∃ a, 4294967296 ≤ a ∧ f = .addressOutOfRange a := by
    intro y k n f h
    cases hb : srcBytes s y k (sampleBytes s.cfg.fw) with
    | error g => simp [toneAt, sampleBits, bind, Except.bind, hb] at h; subst h; exact e2 _ _ _ _ hb
    | ok r => simp [toneAt, sampleBits, bind, Except.bind, hb] at h
  have e5 : ∀ y k f, truncTriple s y k = .error f → ∃ a, 4294967296 ≤ a ∧ f = .addressOutOfRange a := by
    intro y k f h
    unfold truncTriple at h
    cases h1 : ch16 s y k with
    | error g => simp [bind, Except.bind, h1] at h; subst h; exact e3 _ _ _ h1
    | ok r =>
      cases h2 : ch16 s y (k+2) with
      | error g => simp [bind, Except.bind, h1, h2] at h; subst h; exact e3 _ _ _ h2
      | ok r =>
        cases h3 : ch16 s y (k+4) with
        | error g => simp [bind, Except.bind, h1, h2, h3] at h; subst h; exact e3 _ _ _ h3
        | ok r => simp [bind, Except.bind, h1, h2, h3] at h
  have e6 : ∀ y k f, toneTriple s y k = .error f → ∃ a, 4294967296 ≤ a ∧ f = .addressOutOfRange a := by
    intro y k f h
    unfold toneTriple at h
    cases h1 : toneAt s y k s.draws with
    | error g => simp [bind, Except.bind, h1] at h; subst h; exact e4 _ _ _ _ h1
    | ok r =>
      cases h2 : toneAt s y (k + sampleBytes s.cfg.fw) (s.draws + 1) with
      | error g => simp [bind, Except.bind, h1, h2] at h; subst h; exact e4 _ _ _ _ h2
      | ok r =>
        cases h3 : toneAt s y (k + 2 * sampleBytes s.cfg.fw) (s.draws + 2) with
        | error g => simp [bind, Except.bind, h1, h2, h3] at h; subst h; exact e4 _ _ _ _ h3
        | ok r => simp [bind, Except.bind, h1, h2, h3] at h
  cases op
  case unpack1 => cases hb : srcByte s y (x/8) <;> simp [pixelFn, pixelUnpack1, idx1, bind, Except.bind, hb] at h; subst h; exact e1 _ _ _ hb
  case unpack4 => cases hb : srcByte s y (x/2) <;> simp [pixelFn, pixelUnpack4, idx4, bind, Except.bind, hb] at h; subst h; exact e1 _ _ _ hb
  case unpack8 => cases hb : srcByte s y x <;> simp [pixelFn, pixelUnpack8, idx8, bind, Except.bind, hb] at h; subst h; exact e1 _ _ _ hb
  case unpack555 => cases hb : ch16 s y (2*x) <;> simp [pixelFn, pixelUnpack555, word16, bind, Except.bind, hb] at h; subst h; exact e3 _ _ _ hb
  case unpack565 => cases hb : ch16 s y (2*x) <;> simp [pixelFn, pixelUnpack565, word16, bind, Except.bind, hb] at h; subst h; exact e3 _ _ _ hb
  case copy32 =>
    cases h1 : srcByte s y (4 * x + offR s.cfg.layout) with
    | error g => simp [pixelFn, pixelCopy32, pix32, bind, Except.bind, h1] at h; subst h; exact e1 _ _ _ h1
    | ok r =>
      cases h2 : srcByte s y (4 * x + offG s.cfg.layout) with
      | error g => simp [pixelFn, pixelCopy32, pix32, bind, Except.bind, h1, h2] at h; subst h; exact e1 _ _ _ h2
      | ok r =>
        cases h3 : srcByte s y (4 * x + offB s.cfg.layout) with
        | error g => simp [pixelFn, pixelCopy32, pix32, bind, Except.bind, h1, h2, h3] at h; subst h; exact e1 _ _ _ h3
        | ok r => simp [pixelFn, pixelCopy32, pix32, bind, Except.bind, h1, h2, h3] at h
  case truncRgb16 => cases hb : truncTriple s y (6*x) <;> simp [pixelFn, pixelTruncRgb16, bind, Except.bind, hb] at h; subst h; exact e5 _ _ _ hb
  case truncRgba16 => cases hb : truncTriple s y (8*x) <;> simp [pixelFn, pixelTruncRgba16, bind, Except.bind, hb] at h; subst h; exact e5 _ _ _ hb
  case toneRgbf => cases hb : toneTriple s y (3 * sampleBytes s.cfg.fw * x) <;> simp [pixelFn, pixelToneRgbf, bind, Except.bind, hb] at h; subst h; exact e6 _ _ _ hb
  case toneRgbaf => cases hb : toneTriple s y (4 * sampleBytes s.cfg.fw * x) <;> simp [pixelFn, pixelToneRgbaf, bind, Except.bind, hb] at h; subst h; exact e6 _ _ _ hb

end Sys2Proof.Machine
end

