-- ==== Sys2Proof/Laws/Power.lean ====
section
/-! SUPPORT. The fixed-point bounds of the power are in order and monotone, the format's steps among the
fixed-point numbers, and POW is one of its two values (44_hdr_tonemapper.md R203). -/

namespace Sys2Proof.Machine

theorem isqrtFrom_eq (n : Nat) : ∀ fuel g : Nat, g ≤ fuel → isqrtFrom n fuel g = Nat.sqrt.iter n g := by
  intro fuel
  induction fuel with
  | zero => intro g hg; have : g = 0 := by omega
            subst this; rw [isqrtFrom, Nat.sqrt.iter]; simp
  | succ k ih =>
    intro g hg
    rw [isqrtFrom, Nat.sqrt.iter]
    split
    · exact ih _ (by omega)
    · rfl
theorem isqrt_eq (n : Nat) : isqrt n = Nat.sqrt n := by
  by_cases h : n ≤ 1
  · have : n = 0 ∨ n = 1 := by omega
    rcases this with rfl | rfl <;> decide
  · unfold isqrt Nat.sqrt
    rw [if_neg (by omega), if_neg h, isqrtFrom_eq _ _ _ (le_refl _), Nat.one_shiftLeft]
theorem isqrt_sq_le (n : Nat) : isqrt n * isqrt n ≤ n := by rw [isqrt_eq]; exact Nat.sqrt_le n
theorem lt_isqrt_succ (n : Nat) : n < (isqrt n + 1) * (isqrt n + 1) := by rw [isqrt_eq]; exact Nat.lt_succ_sqrt n
theorem isqrt_mono {a b : Nat} (h : a ≤ b) : isqrt a ≤ isqrt b := by rw [isqrt_eq, isqrt_eq]; exact Nat.sqrt_le_sqrt h
theorem le_isqrtUp_sq (n : Nat) : n ≤ isqrtUp n * isqrtUp n := by
  unfold isqrtUp; split
  · omega
  · exact le_of_lt (lt_isqrt_succ n)
theorem isqrtUp_le {n k : Nat} (h : n ≤ k * k) : isqrtUp n ≤ k := by
  unfold isqrtUp
  have h1 := isqrt_sq_le n
  have h2 : isqrt n ≤ k := by
    rw [isqrt_eq]; exact le_trans (Nat.sqrt_le_sqrt h) (by rw [Nat.sqrt_eq])
  split
  · exact h2
  · rename_i hn
    rcases Nat.eq_or_lt_of_le h2 with e | e
    · exfalso; rw [e] at h1 hn; omega
    · exact e
theorem isqrtUp_mono {a b : Nat} (h : a ≤ b) : isqrtUp a ≤ isqrtUp b := isqrtUp_le (le_trans h (le_isqrtUp_sq b))
theorem isqrt_le_up {a b : Nat} (h : a ≤ b) : isqrt a ≤ isqrtUp b := by
  have h1 := isqrt_sq_le a; have h2 := le_isqrtUp_sq b
  by_contra hlt
  have : isqrtUp b * isqrtUp b < isqrt a * isqrt a := Nat.mul_lt_mul'' (by omega) (by omega)
  omega

/-- Two chains of roots in the same order stay in order. -/
theorem rootPower_le {f g : Nat → Nat} (hfg : ∀ a b, a ≤ b → f a ≤ g b) {x y : Nat} (hxy : x ≤ y) :
    ∀ (n m a b : Nat), a ≤ b → rootPower f x n m a ≤ rootPower g y n m b := by
  intro n
  induction n with
  | zero => intro m a b h; exact h
  | succ n ih =>
    intro m a b h
    rw [rootPower, rootPower]
    refine ih _ _ _ (hfg _ _ (Nat.mul_le_mul h ?_))
    split
    · exact hxy
    · exact le_refl _
theorem toFixed_mono (fw : FloatWidth) {a b : Nat} (h : a ≤ b) : toFixed fw a ≤ toFixed fw b := by
  unfold toFixed; exact Nat.div_le_div_right (Nat.mul_le_mul_right _ h)
theorem powLower_mono (fw : FloatWidth) {a b : Nat} (h : a ≤ b) : powLower fw a ≤ powLower fw b :=
  rootPower_le (fun _ _ h => isqrt_mono h) (toFixed_mono fw h) _ _ _ _ (le_refl _)
theorem powUpper_mono (fw : FloatWidth) {a b : Nat} (h : a ≤ b) : powUpper fw a ≤ powUpper fw b :=
  rootPower_le (fun _ _ h => isqrtUp_mono h) (toFixed_mono fw h) _ _ _ _ (le_refl _)
theorem powLower_le_powUpper (fw : FloatWidth) (a : Nat) : powLower fw a ≤ powUpper fw a :=
  rootPower_le (fun _ _ h => isqrt_le_up h) (le_refl _) _ _ _ _ (le_refl _)

/-! The floor of the format. -/
theorem fixedFloor_le (fw : FloatWidth) (n : Nat) : fixedFloor fw n ≤ n := Nat.div_mul_le_self _ _
theorem lt_fixedNext (fw : FloatWidth) (n : Nat) : n < fixedNext fw n := by
  unfold fixedNext fixedFloor
  have := Nat.lt_div_mul_add (a := n) (b := 2 ^ fixedDrop fw n) (by positivity)
  exact this
theorem fixedNext_le {fw : FloatWidth} {a b : Nat} (hb : fixedNext fw a ≤ b) : fixedNext fw a ≤ fixedFloor fw b := by
  have ha := lt_fixedNext fw a
  have hp := precision_pos fw
  have h0 : b ≠ 0 := by omega
  have hlog : fixedDrop fw a ≤ fixedDrop fw b := by
    unfold fixedDrop
    have : a.log2 ≤ b.log2 := by
      by_cases h : a = 0
      · subst h; simp
      · exact (Nat.le_log2 h0).2 (le_trans (Nat.log2_self_le h) (by omega))
    omega
  rcases Nat.eq_or_lt_of_le hlog with e | e
  · -- the same spacing: both are multiples of it
    have h1 : fixedNext fw a = (a / 2 ^ fixedDrop fw a + 1) * 2 ^ fixedDrop fw b := by
      unfold fixedNext fixedFloor; rw [← e]; ring
    rw [h1] at hb ⊢
    unfold fixedFloor
    exact Nat.mul_le_mul_right _ ((Nat.le_div_iff_mul_le (by positivity)).2 hb)
  · -- a wider spacing: the power of two below `b` is between
    have hd : fixedDrop fw b = b.log2 + 1 - precision fw := rfl
    have h2 : 2 ^ b.log2 ≤ fixedFloor fw b := by
      unfold fixedFloor
      have : 2 ^ b.log2 = 2 ^ (precision fw - 1) * 2 ^ fixedDrop fw b := by rw [← pow_add]; congr 1; omega
      rw [this]
      refine Nat.mul_le_mul_right _ ((Nat.le_div_iff_mul_le (by positivity)).2 ?_)
      rw [← this]; exact Nat.log2_self_le h0
    refine le_trans ?_ h2
    have hlt : a < 2 ^ b.log2 := by
      by_contra hge
      have : b.log2 ≤ a.log2 := (Nat.le_log2 (by rintro rfl; simp at hge)).2 (by omega)
      unfold fixedDrop at e; omega
    -- both `2 ^ b.log2` and the floor of `a` are multiples of the smaller spacing
    have hk : fixedDrop fw a ≤ b.log2 := by
      unfold fixedDrop at *; omega
    have h3 : 2 ^ b.log2 = 2 ^ (b.log2 - fixedDrop fw a) * 2 ^ fixedDrop fw a := by rw [← pow_add]; congr 1; omega
    have h4 : a / 2 ^ fixedDrop fw a < 2 ^ (b.log2 - fixedDrop fw a) := by
      rw [Nat.div_lt_iff_lt_mul (by positivity), ← h3]; exact hlt
    have h5 : fixedNext fw a = (a / 2 ^ fixedDrop fw a + 1) * 2 ^ fixedDrop fw a := by
      unfold fixedNext fixedFloor; ring
    rw [h5, h3]
    exact Nat.mul_le_mul_right _ h4
theorem fixed_cases {fw : FloatWidth} {a b : Nat} (h : a ≤ b) : (fixedFloor fw a = fixedFloor fw b ∧ fixedNext fw a = fixedNext fw b) ∨ fixedNext fw a ≤ fixedFloor fw b := by
  by_cases hb : fixedNext fw a ≤ b
  · right; exact fixedNext_le hb
  · left
    -- no binade in between: next is at most the next power of two
    by_cases h0 : a = 0
    · subst h0
      have : fixedNext fw 0 = 1 := by
        unfold fixedNext fixedFloor fixedDrop; have := precision_pos fw; simp; omega
      have : b = 0 := by omega
      subst this; exact ⟨rfl, rfl⟩
    · have hlog : a.log2 ≤ b.log2 := (Nat.le_log2 (by omega)).2 (le_trans (Nat.log2_self_le h0) h)
      have hle : fixedNext fw a ≤ 2 ^ (a.log2 + 1) := by
        have hd : fixedDrop fw a ≤ a.log2 + 1 := by unfold fixedDrop; omega
        have h3 : 2 ^ (a.log2 + 1) = 2 ^ (a.log2 + 1 - fixedDrop fw a) * 2 ^ fixedDrop fw a := by rw [← pow_add]; congr 1; omega
        have h4 : a / 2 ^ fixedDrop fw a < 2 ^ (a.log2 + 1 - fixedDrop fw a) := by
          rw [Nat.div_lt_iff_lt_mul (by positivity), ← h3]; exact Nat.lt_log2_self
        have h5 : fixedNext fw a = (a / 2 ^ fixedDrop fw a + 1) * 2 ^ fixedDrop fw a := by
          unfold fixedNext fixedFloor; ring
        rw [h5, h3]
        exact Nat.mul_le_mul_right _ h4
      have hlog2 : b.log2 = a.log2 := by
        have : b.log2 < a.log2 + 1 := (Nat.log2_lt (by omega)).2 (by omega)
        omega
      have hd : fixedDrop fw b = fixedDrop fw a := by unfold fixedDrop; rw [hlog2]
      have hq : a / 2 ^ fixedDrop fw a = b / 2 ^ fixedDrop fw a := by
        have h1 : a / 2 ^ fixedDrop fw a ≤ b / 2 ^ fixedDrop fw a := Nat.div_le_div_right h
        have h5 : fixedNext fw a = (a / 2 ^ fixedDrop fw a + 1) * 2 ^ fixedDrop fw a := by
          unfold fixedNext fixedFloor; ring
        have h2 : b / 2 ^ fixedDrop fw a < a / 2 ^ fixedDrop fw a + 1 := by
          rw [Nat.div_lt_iff_lt_mul (by positivity), ← h5]; omega
        omega
      unfold fixedNext fixedFloor
      rw [hd, hq]; exact ⟨rfl, rfl⟩

theorem fixedToMag_mono (fw : FloatWidth) {a b : Nat} (h : a ≤ b) : fixedToMag fw a ≤ fixedToMag fw b := by
  unfold fixedToMag; exact Nat.div_le_div_right (Nat.mul_le_mul_right _ h)

theorem powEnds_le (fw : FloatWidth) (mag : Nat) : (powEnds fw mag).1 ≤ (powEnds fw mag).2 := by
  unfold powEnds
  split
  · exact le_refl _
  · split
    · exact fixedToMag_mono fw (Nat.sub_le _ _)
    · exact fixedToMag_mono fw (le_of_lt (lt_fixedNext fw _))
/-- POW answers one of the two values. -/
theorem pow_mem_ends (fw : FloatWidth) (mag : Nat) : pow fw mag = (powEnds fw mag).1 ∨ pow fw mag = (powEnds fw mag).2 := by
  unfold pow; split
  · right; rfl
  · left; rfl
theorem pow_le_end (fw : FloatWidth) (mag : Nat) : pow fw mag ≤ (powEnds fw mag).2 := by
  rcases pow_mem_ends fw mag with h | h <;> rw [h]; exact powEnds_le fw mag
theorem end_le_pow (fw : FloatWidth) (mag : Nat) : (powEnds fw mag).1 ≤ pow fw mag := by
  rcases pow_mem_ends fw mag with h | h <;> rw [h]; exact powEnds_le fw mag
end Sys2Proof.Machine
end

