-- ==== Sys2Proof/Laws/RealPower.lean ====
section
/-! SUPPORT. The fixed-point bounds enclose the real power `x ^ GI`, and `powerLt` decides its order with a
fixed-point number exactly (44_hdr_tonemapper.md R203). -/

namespace Sys2Proof.Machine

set_option Elab.async false

/-- The chain of roots in the reals. -/
noncomputable def realChain (x : ℝ) : Nat → Nat → ℝ → ℝ
  | 0, _, a => a
  | n + 1, m, a => realChain x n (m / 2) (Real.sqrt (a * (if m % 2 = 1 then x else 1)))

theorem realChain_eq {x : ℝ} (hx : 0 < x) : ∀ (n m : Nat) (a : ℝ), 0 < a →
    realChain x n m a = a ^ ((1 : ℝ) / 2 ^ n) * x ^ (((m % 2 ^ n : Nat) : ℝ) / 2 ^ n) := by
  intro n
  induction n with
  | zero => intro m a ha; simp [realChain, Nat.mod_one]
  | succ n ih =>
    intro m a ha
    have hb : 0 < (if m % 2 = 1 then x else (1 : ℝ)) := by split <;> [exact hx; exact one_pos]
    rw [realChain, ih _ _ (Real.sqrt_pos.2 (mul_pos ha hb)), Real.sqrt_eq_rpow, Real.mul_rpow ha.le hb.le]
    rw [Real.mul_rpow (Real.rpow_nonneg ha.le _) (Real.rpow_nonneg hb.le _), ← Real.rpow_mul ha.le, ← Real.rpow_mul hb.le]
    have h2 : (m : Nat) % 2 ^ (n + 1) = m % 2 + 2 * (m / 2 % 2 ^ n) := by
      rw [pow_succ, Nat.mul_comm, Nat.mod_mul]
    have e1 : (1 : ℝ) / 2 * (1 / 2 ^ n) = 1 / 2 ^ (n + 1) := by rw [pow_succ]; field_simp
    rw [e1, mul_assoc]
    congr 1
    rcases Nat.mod_two_eq_zero_or_one m with h | h
    · rw [h2, h]; simp
      rw [pow_succ]; congr 1; field_simp
    · rw [h2, h]; simp only [if_true]
      rw [← Real.rpow_add hx]
      congr 1
      push_cast
      rw [pow_succ]; field_simp

theorem scaleR_pos : (0 : ℝ) < 2 ^ powBits := by positivity

theorem rootPower_lower {x : ℝ} {X : Nat} (hx : 0 ≤ x) (hX : (X : ℝ) ≤ x * 2 ^ powBits) : ∀ (n m A : Nat) (a : ℝ), 0 ≤ a →
    (A : ℝ) ≤ a * 2 ^ powBits → (rootPower isqrt X n m A : ℝ) ≤ realChain x n m a * 2 ^ powBits := by
  intro n
  induction n with
  | zero => intro m A a _ h; exact h
  | succ n ih =>
    intro m A a ha h
    rw [rootPower, realChain]
    refine ih _ _ _ (Real.sqrt_nonneg _) ?_
    set Y := (if m % 2 = 1 then X else 2 ^ powBits)
    set y := (if m % 2 = 1 then x else (1 : ℝ))
    have hY : (Y : ℝ) ≤ y * 2 ^ powBits := by
      simp only [Y, y]; split
      · exact hX
      · push_cast; simp
    have hy : 0 ≤ y := by simp only [y]; split <;> [exact hx; exact zero_le_one]
    have h1 : ((isqrt (A * Y) : ℕ) : ℝ) ≤ Real.sqrt ((A * Y : ℕ) : ℝ) := by
      rw [isqrt_eq]; exact Real.nat_sqrt_le_real_sqrt
    refine le_trans h1 ?_
    have h2 : Real.sqrt (a * y) * 2 ^ powBits = Real.sqrt (a * y * (2 ^ powBits * 2 ^ powBits)) := by
      rw [Real.sqrt_mul (mul_nonneg ha hy), Real.sqrt_mul_self scaleR_pos.le]
    rw [h2]
    apply Real.sqrt_le_sqrt
    push_cast
    calc (A : ℝ) * Y ≤ (a * 2 ^ powBits) * (y * 2 ^ powBits) := mul_le_mul h hY (Nat.cast_nonneg _) (mul_nonneg ha scaleR_pos.le)
      _ = _ := by ring

theorem rootPower_upper {x : ℝ} {X : Nat} (hx : 0 ≤ x) (hX : x * 2 ^ powBits ≤ (X : ℝ)) : ∀ (n m A : Nat) (a : ℝ), 0 ≤ a →
    a * 2 ^ powBits ≤ (A : ℝ) → realChain x n m a * 2 ^ powBits ≤ (rootPower isqrtUp X n m A : ℝ) := by
  intro n
  induction n with
  | zero => intro m A a _ h; exact h
  | succ n ih =>
    intro m A a ha h
    rw [rootPower, realChain]
    refine ih _ _ _ (Real.sqrt_nonneg _) ?_
    set Y := (if m % 2 = 1 then X else 2 ^ powBits)
    set y := (if m % 2 = 1 then x else (1 : ℝ))
    have hY : y * 2 ^ powBits ≤ (Y : ℝ) := by
      simp only [Y, y]; split
      · exact hX
      · push_cast; simp
    have hy : 0 ≤ y := by simp only [y]; split <;> [exact hx; exact zero_le_one]
    have h1 : Real.sqrt ((A * Y : ℕ) : ℝ) ≤ ((isqrtUp (A * Y) : ℕ) : ℝ) := by
      apply Real.sqrt_le_iff.2
      refine ⟨Nat.cast_nonneg _, ?_⟩
      have := le_isqrtUp_sq (A * Y)
      rw [pow_two]; exact_mod_cast this
    refine le_trans ?_ h1
    have h2 : Real.sqrt (a * y) * 2 ^ powBits = Real.sqrt (a * y * (2 ^ powBits * 2 ^ powBits)) := by
      rw [Real.sqrt_mul (mul_nonneg ha hy), Real.sqrt_mul_self scaleR_pos.le]
    rw [h2]
    apply Real.sqrt_le_sqrt
    push_cast
    calc a * y * (2 ^ powBits * 2 ^ powBits) = (a * 2 ^ powBits) * (y * 2 ^ powBits) := by ring
      _ ≤ (A : ℝ) * Y := mul_le_mul h hY (mul_nonneg hy scaleR_pos.le) (Nat.cast_nonneg _)

theorem gammaNum_lt (fw : FloatWidth) : gammaNum fw < 2 ^ gammaBits fw := by cases fw <;> decide

theorem startMag (fw : FloatWidth) : ∃ m, toneStart fw = .fin false m ∧ 2 ^ (unitExp fw - 6) ≤ m ∧ m = (match fw with | .w32 => 0x9374BC * 2 ^ 120 | .w64 => 0x126E978D4FDF3B * 2 ^ 1016) := by
  cases fw
  · exact ⟨0x9374BC * 2 ^ 120, by decide, by decide, rfl⟩
  · exact ⟨0x126E978D4FDF3B * 2 ^ 1016, by decide +kernel, by decide +kernel, rfl⟩
theorem oneMag (fw : FloatWidth) : toneOne fw = .fin false (2 ^ unitExp fw) := by cases fw <;> decide +kernel

/-- The power branch, as bounds on the magnitude. -/
theorem onPowerBranch_iff (fw : FloatWidth) (mag : Nat) {m : Nat} (hm : toneStart fw = .fin false m) : OnPowerBranch fw mag ↔ m < mag ∧ mag ≤ 2 ^ unitExp fw := by
  unfold OnPowerBranch
  rw [hm, oneMag]
  simp [fgt, fle, signedUnits]
  intro _; constructor <;> intro h <;> exact_mod_cast h

theorem powerLow {fw : FloatWidth} {mag : Nat} (h : OnPowerBranch fw mag) : 2 ^ (unitExp fw - 6) ≤ mag ∧ mag ≤ 2 ^ unitExp fw := by
  obtain ⟨m, h1, h2, -⟩ := startMag fw
  have := (onPowerBranch_iff fw mag h1).1 h
  omega

/-- A value of the format on the power branch is a multiple of `2 ^ (unitExp - 6 - precision)`. -/
theorem representable_dvd {fw : FloatWidth} {mag e : Nat} (h : Representable fw mag) (hlow : 2 ^ (e + precision fw) ≤ mag) : 2 ^ e ∣ mag := by
  obtain ⟨k, x, hk, rfl⟩ := h
  have : e ≤ x := by
    by_contra hlt
    have : k * 2 ^ x < 2 ^ precision fw * 2 ^ e := by
      have h1 : 2 ^ x < 2 ^ e := Nat.pow_lt_pow_right (by omega) (by omega)
      exact Nat.mul_lt_mul'' hk h1
    rw [← pow_add, Nat.add_comm] at this
    omega
  exact Dvd.dvd.mul_left (pow_dvd_pow 2 this) k

theorem toFixed_exact {fw : FloatWidth} {mag : Nat} (hb : OnPowerBranch fw mag) (h : Representable fw mag) :
    (toFixed fw mag : ℝ) = (mag : ℝ) / 2 ^ unitExp fw * 2 ^ powBits := by
  have hd : 2 ^ unitExp fw ∣ mag * 2 ^ powBits := by
    cases fw
    · exact Dvd.dvd.mul_left (pow_dvd_pow 2 (by decide)) mag
    · have := representable_dvd (e := 1015) h (le_trans (by decide +kernel) (powerLow hb).1)
      have h2 : (2 : Nat) ^ unitExp .w64 ∣ 2 ^ 1015 * 2 ^ powBits := by rw [← pow_add]; exact pow_dvd_pow 2 (by decide)
      exact Dvd.dvd.trans h2 (Nat.mul_dvd_mul_right this _)
  unfold toFixed
  rw [Nat.cast_div hd (by positivity)]
  push_cast; ring

/-- The real power of the fixed-point sample, times `2 ^ powBits`. -/
noncomputable def powReal (fw : FloatWidth) (mag : Nat) : ℝ :=
  ((toFixed fw mag : ℝ) / 2 ^ powBits) ^ ((gammaNum fw : ℝ) / 2 ^ gammaBits fw) * 2 ^ powBits

/-- On the power branch it is the real power of the sample. -/
theorem powReal_eq {fw : FloatWidth} {mag : Nat} (hb : OnPowerBranch fw mag) (h : Representable fw mag) :
    powReal fw mag = ((mag : ℝ) / 2 ^ unitExp fw) ^ ((gammaNum fw : ℝ) / 2 ^ gammaBits fw) * 2 ^ powBits := by
  unfold powReal
  rw [toFixed_exact hb h, mul_div_assoc, div_self scaleR_pos.ne', mul_one]

theorem toFixed_pos {fw : FloatWidth} {mag : Nat} (h : 2 ^ (unitExp fw - 6) ≤ mag) : 0 < toFixed fw mag := by
  have h1 : toFixed fw (2 ^ (unitExp fw - 6)) ≠ 0 := by cases fw <;> decide +kernel
  exact lt_of_lt_of_le (Nat.pos_of_ne_zero h1) (toFixed_mono fw h)

theorem power_bounds {fw : FloatWidth} {mag : Nat} (h : 0 < toFixed fw mag) :
    (powLower fw mag : ℝ) ≤ powReal fw mag ∧ powReal fw mag ≤ (powUpper fw mag : ℝ) := by
  have hpos : (0 : ℝ) < (toFixed fw mag : ℝ) / 2 ^ powBits := by positivity
  have hc : powReal fw mag = realChain ((toFixed fw mag : ℝ) / 2 ^ powBits) (gammaBits fw) (gammaNum fw) 1 * 2 ^ powBits := by
    rw [realChain_eq hpos _ _ _ one_pos, Nat.mod_eq_of_lt (gammaNum_lt fw), Real.one_rpow, one_mul, powReal]
  have hX : (toFixed fw mag : ℝ) = (toFixed fw mag : ℝ) / 2 ^ powBits * 2 ^ powBits := by
    rw [div_mul_cancel₀ _ scaleR_pos.ne']
  rw [hc]
  exact ⟨rootPower_lower hpos.le hX.le _ _ _ _ zero_le_one (by push_cast; simp), rootPower_upper hpos.le hX.ge _ _ _ _ zero_le_one (by push_cast; simp)⟩

theorem exact_compare {X m N v : Nat} {S : Nat} (hX : 0 < X) (hN : N ≠ 0) (hS : 0 < S) :
    X ^ m * S ^ N < v ^ N * S ^ m ↔ ((X : ℝ) / S) ^ ((m : ℝ) / N) * S < v := by
  have hs : (0 : ℝ) < S := by exact_mod_cast hS
  have hx : (0 : ℝ) < (X : ℝ) / S := by positivity
  have hn : (N : ℝ) ≠ 0 := by exact_mod_cast hN
  rw [← pow_lt_pow_iff_left₀ (a := ((X : ℝ) / S) ^ ((m : ℝ) / N) * S) (b := (v : ℝ)) (by positivity) (Nat.cast_nonneg v) hN, mul_pow, ← Real.rpow_natCast (((X : ℝ) / S) ^ _),
    ← Real.rpow_mul hx.le, div_mul_cancel₀ _ hn, Real.rpow_natCast, div_pow, div_mul_eq_mul_div, div_lt_iff₀ (by positivity)]
  exact_mod_cast Iff.rfl

/-- `powerLt` decides the order of the real power and a fixed-point number. -/
theorem powerLt_iff {fw : FloatWidth} {mag : Nat} (h : 0 < toFixed fw mag) (v : Nat) :
    powerLt fw mag v = true ↔ powReal fw mag < v := by
  obtain ⟨hl, hu⟩ := power_bounds h
  unfold powerLt
  split
  · rename_i hv
    simp only [true_iff]
    exact lt_of_le_of_lt hu (by exact_mod_cast hv)
  · split
    · rename_i hv
      simp only [Bool.false_eq_true, false_iff, not_lt]
      exact le_trans (by exact_mod_cast hv) hl
    · rw [decide_eq_true_iff, exact_compare h (by positivity) (by positivity)]
      unfold powReal; push_cast; rfl

theorem powReal_mono {fw : FloatWidth} {a b : Nat} (h : a ≤ b) : powReal fw a ≤ powReal fw b := by
  unfold powReal
  refine mul_le_mul_of_nonneg_right (Real.rpow_le_rpow (by positivity) ?_ (by positivity)) scaleR_pos.le
  exact div_le_div_of_nonneg_right (by exact_mod_cast toFixed_mono fw h) scaleR_pos.le

theorem gamma_pos (fw : FloatWidth) : 0 < gammaNum fw := by cases fw <;> decide

theorem powReal_lt_one {fw : FloatWidth} {mag : Nat} (h : mag < 2 ^ unitExp fw) : powReal fw mag < 2 ^ powBits := by
  have h1 : toFixed fw mag < 2 ^ powBits := by
    unfold toFixed
    rw [Nat.div_lt_iff_lt_mul (by positivity), Nat.mul_comm (2 ^ powBits)]
    exact Nat.mul_lt_mul_of_pos_right h (by positivity)
  unfold powReal
  have h2 : (toFixed fw mag : ℝ) / 2 ^ powBits < 1 := by rw [div_lt_one scaleR_pos]; exact_mod_cast h1
  have h3 : (0 : ℝ) < (gammaNum fw : ℝ) / 2 ^ gammaBits fw := by have := gamma_pos fw; positivity
  calc _ < 1 * (2 : ℝ) ^ powBits := mul_lt_mul_of_pos_right (Real.rpow_lt_one (by positivity) h2 h3) scaleR_pos
    _ = _ := one_mul _

theorem powLower_low {fw : FloatWidth} {mag : Nat} (h : 2 ^ (unitExp fw - 6) ≤ mag) : 2 ^ 253 ≤ powLower fw mag := by
  have h1 : 2 ^ 253 ≤ powLower fw (2 ^ (unitExp fw - 6)) := by cases fw <;> decide +kernel
  exact le_trans h1 (powLower_mono fw h)

end Sys2Proof.Machine
end

