-- ==== Sys2Proof/Laws/PowEnds.lean ====
section
/-! SUPPORT. POW's two values: where the two numbers of the format nearest to the real power lie, in order and
monotone in the sample, so that POW is monotone whatever its free choice is (44_hdr_tonemapper.md R203). -/

namespace Sys2Proof.Machine

set_option Elab.async false

/-- A multiple of the spacing as a magnitude. -/
theorem fixedToMag_mul (fw : FloatWidth) (q d : Nat) (h : 200 ≤ d) : fixedToMag fw (q * 2 ^ d) = q * 2 ^ (d + unitExp fw - 256) := by
  unfold fixedToMag
  have hu : 149 ≤ unitExp fw := by cases fw <;> decide +kernel
  rw [Nat.mul_assoc, ← pow_add]
  have : q * 2 ^ (d + unitExp fw) = q * 2 ^ (d + unitExp fw - 256) * 2 ^ powBits := by
    have e : d + unitExp fw - 256 + powBits = d + unitExp fw := by unfold powBits; omega
    rw [Nat.mul_assoc, ← pow_add, e]
  rw [this]; exact Nat.mul_div_cancel _ (by positivity)

/-- The significand and the exponent of the gap that holds the lower bound. -/
theorem gap_shape {fw : FloatWidth} {n : Nat} (h : 2 ^ 253 ≤ n) : ∃ q d : Nat, 201 ≤ d ∧ 2 ^ (precision fw - 1) ≤ q ∧ q < 2 ^ precision fw ∧
    fixedFloor fw n = q * 2 ^ d ∧ fixedNext fw n = (q + 1) * 2 ^ d := by
  have h0 : n ≠ 0 := by rintro rfl; exact absurd h (by decide +kernel)
  have hl : 253 ≤ n.log2 := (Nat.le_log2 h0).2 h
  have hp : precision fw ≤ 53 ∧ 0 < precision fw := by cases fw <;> decide
  have hd : fixedDrop fw n = n.log2 + 1 - precision fw := rfl
  refine ⟨n / 2 ^ fixedDrop fw n, fixedDrop fw n, by omega, ?_, ?_, rfl, by unfold fixedNext fixedFloor; ring⟩
  · rw [Nat.le_div_iff_mul_le (by positivity), ← pow_add]
    refine le_trans (Nat.pow_le_pow_right (by omega) ?_) (Nat.log2_self_le h0); omega
  · rw [Nat.div_lt_iff_lt_mul (by positivity), ← pow_add]
    refine lt_of_lt_of_le (Nat.lt_log2_self) (Nat.pow_le_pow_right (by omega) ?_); omega
theorem succ_representable {fw : FloatWidth} {q x : Nat} (h : q ≤ 2 ^ precision fw) : Representable fw (q * 2 ^ x) := by
  have hp := precision_pos fw
  rcases Nat.eq_or_lt_of_le h with rfl | h
  · refine ⟨2 ^ (precision fw - 1), x + 1, Nat.pow_lt_pow_right (by omega) (by omega), ?_⟩
    rw [← pow_add, ← pow_add]; congr 1; omega
  · exact ⟨q, x, h, rfl⟩
theorem not_between {fw : FloatWidth} {q x c : Nat} (hq : 2 ^ (precision fw - 1) ≤ q) (hc : Representable fw c) : ¬(q * 2 ^ x < c ∧ c < (q + 1) * 2 ^ x) := by
  have hp := precision_pos fw
  rintro ⟨h1, h2⟩
  obtain ⟨k, e, hk, rfl⟩ := hc
  by_cases he : x ≤ e
  · have : k * 2 ^ e = k * 2 ^ (e - x) * 2 ^ x := by rw [Nat.mul_assoc, ← pow_add]; congr 2; omega
    rw [this] at h1 h2
    have := Nat.lt_of_mul_lt_mul_right h1
    have := Nat.lt_of_mul_lt_mul_right h2
    omega
  · have h3 : k * 2 ^ e ≤ 2 ^ precision fw * 2 ^ (x - 1) := Nat.mul_le_mul (le_of_lt hk) (Nat.pow_le_pow_right (by omega) (by omega))
    have h4 : 2 ^ precision fw * 2 ^ (x - 1) = 2 ^ (precision fw - 1) * 2 ^ x := by rw [← pow_add, ← pow_add]; congr 1; omega
    have h5 := Nat.mul_le_mul_right (2 ^ x) hq
    omega


/-- A number of the format by its significand and exponent. -/
theorem format_shape {fw : FloatWidth} {q d : Nat} (h1 : 2 ^ (precision fw - 1) ≤ q) (h2 : q < 2 ^ precision fw) :
    fixedDrop fw (q * 2 ^ d) = d ∧ fixedFloor fw (q * 2 ^ d) = q * 2 ^ d ∧ fixedNext fw (q * 2 ^ d) = (q + 1) * 2 ^ d := by
  have hp := precision_pos fw
  have h0 : q * 2 ^ d ≠ 0 := by
    have : 0 < 2 ^ (precision fw - 1) := by positivity
    have : 0 < q * 2 ^ d := Nat.mul_pos (by omega) (by positivity)
    omega
  have hl : (q * 2 ^ d).log2 = precision fw - 1 + d := by
    apply le_antisymm
    · have : (q * 2 ^ d).log2 < precision fw + d := (Nat.log2_lt h0).2 (by rw [pow_add]; exact Nat.mul_lt_mul_of_pos_right h2 (by positivity))
      omega
    · exact (Nat.le_log2 h0).2 (by rw [pow_add]; exact Nat.mul_le_mul_right _ h1)
  have hd : fixedDrop fw (q * 2 ^ d) = d := by unfold fixedDrop; omega
  have hf : fixedFloor fw (q * 2 ^ d) = q * 2 ^ d := by
    unfold fixedFloor; rw [hd, Nat.mul_div_cancel _ (by positivity)]
  exact ⟨hd, hf, by unfold fixedNext; rw [hd, hf]; ring⟩

theorem fixedFloor_idem (fw : FloatWidth) (n : Nat) : fixedFloor fw (fixedFloor fw n) = fixedFloor fw n := by
  rcases fixed_cases (fw := fw) (fixedFloor_le fw n) with ⟨h, -⟩ | h
  · exact h
  · have := lt_fixedNext fw (fixedFloor fw n); omega

theorem next_format (fw : FloatWidth) (v : Nat) : fixedFloor fw (fixedNext fw v) = fixedNext fw v :=
  le_antisymm (fixedFloor_le fw _) (fixedNext_le (le_refl _))

/-- Between two numbers of the format lies at least the next of the lower one. -/
theorem next_le_of_lt {fw : FloatWidth} {a b : Nat} (ha : fixedFloor fw a = a) (hb : fixedFloor fw b = b) (h : a < b) :
    fixedNext fw a ≤ b := by
  rcases fixed_cases (fw := fw) h.le with ⟨e, -⟩ | e
  · omega
  · omega

theorem powClimb_spec {fw : FloatWidth} {mag : Nat} (h : 0 < toFixed fw mag) (h1 : powReal fw mag < 2 ^ powBits) :
    ∀ fuel v, fixedFloor fw v = v → (v : ℝ) ≤ powReal fw mag → 2 ^ powBits < v + fuel →
      fixedFloor fw (powClimb fw mag fuel v) = powClimb fw mag fuel v ∧ v ≤ powClimb fw mag fuel v ∧
      (powClimb fw mag fuel v : ℝ) ≤ powReal fw mag ∧ powReal fw mag < fixedNext fw (powClimb fw mag fuel v) := by
  intro fuel
  induction fuel with
  | zero =>
    intro v _ hv hb
    exfalso
    have : (2 : ℝ) ^ powBits < v := by exact_mod_cast (show 2 ^ powBits < v by omega)
    linarith
  | succ f ih =>
    intro v hf hv hb
    have hlt := lt_fixedNext fw v
    rw [powClimb]
    split
    · rename_i hn
      exact ⟨hf, le_refl _, hv, (powerLt_iff h _).1 hn⟩
    · rename_i hn
      rw [powerLt_iff h, not_lt] at hn
      obtain ⟨a, b, c⟩ := ih _ (next_format fw v) hn (by omega)
      exact ⟨a, by omega, c⟩

/-- The last number of the format at or below the power. -/
theorem powFloor_spec {fw : FloatWidth} {mag : Nat} (h : 2 ^ (unitExp fw - 6) ≤ mag) (h1 : mag < 2 ^ unitExp fw) :
    fixedFloor fw (powFloor fw mag) = powFloor fw mag ∧ 2 ^ 253 ≤ powFloor fw mag ∧
    (powFloor fw mag : ℝ) ≤ powReal fw mag ∧ powReal fw mag < fixedNext fw (powFloor fw mag) := by
  have hX := toFixed_pos h
  have hf := fixedFloor_le fw (powLower fw mag)
  obtain ⟨a, b, c⟩ := powClimb_spec hX (powReal_lt_one h1) (2 ^ powBits + 1) (fixedFloor fw (powLower fw mag))
    (fixedFloor_idem fw _) (le_trans (by exact_mod_cast hf) (power_bounds hX).1) (by omega)
  refine ⟨a, le_trans ?_ b, c⟩
  have e : fixedFloor fw (2 ^ 253) = 2 ^ 253 := by cases fw <;> decide +kernel
  rcases fixed_cases (fw := fw) (powLower_low h) with ⟨e', -⟩ | e'
  · omega
  · have := lt_fixedNext fw (2 ^ 253); omega

/-- Below a power of two the spacing halves. -/
theorem below_shape {fw : FloatWidth} {lo : Nat} (h : 2 ^ 253 ≤ lo) (hk : lo = 2 ^ lo.log2) :
    ∃ d, fixedDrop fw lo = d + 1 ∧ 200 ≤ d ∧ lo = 2 ^ precision fw * 2 ^ d ∧
      lo - 2 ^ fixedDrop fw lo / 2 = (2 ^ precision fw - 1) * 2 ^ d ∧
      fixedFloor fw (lo - 2 ^ fixedDrop fw lo / 2) = lo - 2 ^ fixedDrop fw lo / 2 ∧
      fixedNext fw (lo - 2 ^ fixedDrop fw lo / 2) = lo := by
  have hp := precision_pos fw
  have hp2 : 2 ≤ precision fw ∧ precision fw ≤ 53 := by cases fw <;> decide
  have h0 : lo ≠ 0 := by rintro rfl; exact absurd h (by decide +kernel)
  have hl : 253 ≤ lo.log2 := (Nat.le_log2 h0).2 h
  have hd : fixedDrop fw lo = lo.log2 - precision fw + 1 := by unfold fixedDrop; omega
  have e1 : lo = 2 ^ precision fw * 2 ^ (lo.log2 - precision fw) := by
    rw [← pow_add]; rw [Nat.add_sub_cancel' (by omega)]; exact hk
  have e2 : lo - 2 ^ fixedDrop fw lo / 2 = (2 ^ precision fw - 1) * 2 ^ (lo.log2 - precision fw) := by
    rw [hd, pow_succ, Nat.mul_div_cancel _ (by omega), Nat.sub_mul, Nat.one_mul, ← e1]
  have hq : 2 ^ (precision fw - 1) ≤ 2 ^ precision fw - 1 ∧ 2 ^ precision fw - 1 < 2 ^ precision fw := by
    have : 2 ^ precision fw = 2 * 2 ^ (precision fw - 1) := by rw [← pow_succ']; congr 1; omega
    have : 0 < 2 ^ (precision fw - 1) := by positivity
    omega
  obtain ⟨-, f1, f2⟩ := format_shape (d := lo.log2 - precision fw) hq.1 hq.2
  refine ⟨_, hd, by omega, e1, e2, by rw [e2, f1], ?_⟩
  rw [e2, f2, Nat.sub_add_cancel (by omega), ← e1]

/-- When the number below is the nearer one. -/
theorem powNearBelow_iff {fw : FloatWidth} {mag : Nat} (h : 2 ^ (unitExp fw - 6) ≤ mag) (lo : Nat) :
    powNearBelow fw mag lo = true ↔ lo = 2 ^ lo.log2 ∧ powReal fw mag < ((lo + 2 ^ fixedDrop fw lo / 4 : Nat) : ℝ) := by
  unfold powNearBelow
  rw [Bool.and_eq_true, decide_eq_true_iff, powerLt_iff (toFixed_pos h)]

theorem fixedToMag_one (fw : FloatWidth) : fixedToMag fw (2 ^ powBits) = 2 ^ unitExp fw := by
  unfold fixedToMag; exact Nat.mul_div_cancel_left _ (by positivity)

theorem powEnds_one (fw : FloatWidth) : powEnds fw (2 ^ unitExp fw) = (2 ^ unitExp fw, 2 ^ unitExp fw) := by
  unfold powEnds; rw [if_pos (le_refl _)]
theorem pow_toneOne (fw : FloatWidth) : pow fw (2 ^ unitExp fw) = 2 ^ unitExp fw := by
  unfold pow; rw [powEnds_one]; simp

/-- Of two samples either both have the same two values or those of the first are at or below those of the
second. -/
theorem powEnds_mono {fw : FloatWidth} {x x' : Nat} (hx : 2 ^ (unitExp fw - 6) ≤ x) (h : x ≤ x') :
    powEnds fw x = powEnds fw x' ∨ (powEnds fw x).2 ≤ (powEnds fw x').1 := by
  by_cases h1 : 2 ^ unitExp fw ≤ x
  · left; unfold powEnds; rw [if_pos h1, if_pos (le_trans h1 h)]
  have h1' : x < 2 ^ unitExp fw := by omega
  obtain ⟨a1, a2, a3, a4⟩ := powFloor_spec hx h1'
  have hR := powReal_mono (fw := fw) h
  by_cases h2 : 2 ^ unitExp fw ≤ x'
  · right
    have e : (powEnds fw x').1 = fixedToMag fw (2 ^ powBits) := by unfold powEnds; rw [if_pos h2, fixedToMag_one]
    have hone : fixedFloor fw (2 ^ powBits) = 2 ^ powBits := by cases fw <;> decide +kernel
    have hlt : powFloor fw x < 2 ^ powBits := by
      have := lt_of_le_of_lt a3 (powReal_lt_one h1'); exact_mod_cast this
    have hn := next_le_of_lt a1 hone hlt
    rw [e]; unfold powEnds; rw [if_neg h1]
    split
    · exact fixedToMag_mono fw hlt.le
    · exact fixedToMag_mono fw hn
  have hx' : 2 ^ (unitExp fw - 6) ≤ x' := le_trans hx h
  obtain ⟨b1, b2, b3, b4⟩ := powFloor_spec hx' (by omega)
  have hle : powFloor fw x ≤ powFloor fw x' := by
    by_contra hc
    have h5 := next_le_of_lt b1 a1 (by omega)
    have : (fixedNext fw (powFloor fw x') : ℝ) ≤ powFloor fw x := by exact_mod_cast h5
    linarith
  unfold powEnds
  rw [if_neg h1, if_neg h2]
  rcases Nat.eq_or_lt_of_le hle with e | e
  · rw [← e]
    by_cases n' : powNearBelow fw x' (powFloor fw x) = true
    · have n : powNearBelow fw x (powFloor fw x) = true := by
        rw [powNearBelow_iff hx'] at n'; rw [powNearBelow_iff hx]
        exact ⟨n'.1, lt_of_le_of_lt hR n'.2⟩
      left; rw [if_pos n, if_pos n']
    · rw [if_neg n']
      by_cases n : powNearBelow fw x (powFloor fw x) = true
      · right; rw [if_pos n]
      · left; rw [if_neg n]
  · have hn := next_le_of_lt a1 b1 e
    by_cases n' : powNearBelow fw x' (powFloor fw x') = true
    · rw [if_pos n']
      obtain ⟨d, -, -, -, -, p1, p2⟩ := below_shape (fw := fw) b2 ((powNearBelow_iff hx' _).1 n').1
      have hpl := lt_fixedNext fw (powFloor fw x' - 2 ^ fixedDrop fw (powFloor fw x') / 2)
      rw [p2] at hpl
      have hc : powFloor fw x ≤ powFloor fw x' - 2 ^ fixedDrop fw (powFloor fw x') / 2 := by
        by_contra hc
        have := next_le_of_lt p1 a1 (by omega)
        omega
      by_cases n : powNearBelow fw x (powFloor fw x) = true
      · right; rw [if_pos n]; exact fixedToMag_mono fw hc
      · rw [if_neg n]
        rcases Nat.eq_or_lt_of_le hc with e' | e'
        · left; rw [e', p2]
        · right; exact fixedToMag_mono fw (next_le_of_lt a1 p1 e')
    · right; rw [if_neg n']
      by_cases n : powNearBelow fw x (powFloor fw x) = true
      · rw [if_pos n]; exact fixedToMag_mono fw hle
      · rw [if_neg n]; exact fixedToMag_mono fw hn

/-- POW is monotone whatever its free choice is. -/
theorem pow_nonDecreasing (fw : FloatWidth) {x x' : Nat} (hx : 2 ^ (unitExp fw - 6) ≤ x) (h : x ≤ x') : pow fw x ≤ pow fw x' := by
  rcases powEnds_mono hx h with e | e
  · have := powEnds_le fw x'
    unfold pow; rw [e]
    split
    · rw [if_pos (by omega)]
    · split
      · exact this
      · exact le_refl _
  · exact le_trans (pow_le_end fw x) (le_trans e (end_le_pow fw x'))

end Sys2Proof.Machine
end

