-- ==== Sys2Proof/Laws/Registers.lean ====
section
/-! SUPPORT. The offsets of the palette entries. -/

namespace Sys2Proof.Machine

theorem ofOffset_palette (i : Nat) (h : i < 256) : Reg.ofOffset (0x400 + 4 * i) = some (.palette i) := by
  unfold Reg.ofOffset
  rw [if_neg (by omega), if_pos (by omega), if_pos (by omega)]
  congr 2; omega

theorem ofOffset_palette_lt {o i : Nat} (h : Reg.ofOffset o = some (.palette i)) : i < 256 := by
  unfold Reg.ofOffset at h
  split at h
  · cases h
  · split at h
    · split at h
      · cases h; omega
      · cases h
    · have := List.mem_of_find?_eq_some h; simp [Reg.bank] at this

end Sys2Proof.Machine
end

