-- ==== Sys2Proof/Laws/Service.lean ====
section
/-! SUPPORT. The environment's bitmaps under put and drop, the promises of a grant, and the duplicate a granted
CLONE makes. -/

namespace Sys2Proof.Machine

theorem find_put_same (bs : List Bitmap) (b : Bitmap) : findBitmap (putBitmap bs b) b.handle = some b := by
  induction bs with
  | nil => simp [putBitmap, findBitmap]
  | cons c rest ih =>
    simp only [putBitmap]
    split
    · simp [findBitmap]
    · split
      · simp [findBitmap]
      · rename_i h1 h2
        simp only [findBitmap, List.find?_cons] at ih ⊢
        rw [show (c.handle == b.handle) = false by simp; exact fun e => h2 e.symm]; exact ih

theorem find_put_other (bs : List Bitmap) (b : Bitmap) {h : Word} (hn : h ≠ b.handle) : findBitmap (putBitmap bs b) h = findBitmap bs h := by
  have hb : (b.handle == h) = false := by simp; exact fun e => hn e.symm
  induction bs with
  | nil => simp [putBitmap, findBitmap]; exact fun e => hn e.symm
  | cons c rest ih =>
    simp only [putBitmap]
    split
    · simp only [findBitmap, List.find?_cons, hb]
    · split
      · rename_i h1 h2
        have hc : (c.handle == h) = false := by rw [← h2]; exact hb
        simp only [findBitmap, List.find?_cons, hb, hc]
      · simp only [findBitmap, List.find?_cons] at ih ⊢
        rw [ih]

theorem find_drop_same (bs : List Bitmap) (h : Word) : findBitmap (dropBitmap bs h) h = none := by
  simp only [findBitmap, dropBitmap, List.find?_eq_none, List.mem_filter]
  rintro b ⟨-, h2⟩; simp at h2 ⊢; exact h2

theorem find_drop_other (bs : List Bitmap) {h h' : Word} (hn : h' ≠ h) : findBitmap (dropBitmap bs h) h' = findBitmap bs h' := by
  induction bs with
  | nil => rfl
  | cons c rest ih =>
    simp only [findBitmap, dropBitmap, List.filter_cons, List.find?_cons] at ih ⊢
    by_cases hc : c.handle = h
    · subst hc; simp; rw [show (c.handle == h') = false by simp; exact fun e => hn e.symm]; simpa using ih
    · rw [if_pos (by simpa using hc), List.find?_cons]; rw [ih]

/-- The bytes of the source rows, row by row. -/
theorem sourceRowByte_iff (s : State) (a : Nat) :
    sourceRowByte s a ↔ ∃ y, y < s.src.height.toNat ∧ srcAddr s y 0 ≤ a ∧ a < srcAddr s y 0 + rowSpan s := by
  unfold sourceRowByte rowSpan srcAddr
  constructor
  · rintro ⟨hp, y, k, hy, hk, rfl⟩
    rw [if_pos hp]; exact ⟨y, hy, by omega, by omega⟩
  · rintro ⟨y, hy, h1, h2⟩
    by_cases hp : s.src.fmt.toNat % 2 = 1
    · rw [if_pos hp] at h2
      exact ⟨hp, y, a - (s.src.base.toNat + y * s.src.pitch.toNat), hy, by omega, by omega⟩
    · rw [if_neg hp] at h2; omega

/-- The check of a grant is the promises as the spec lists them (45_dispatcher_sequencer.md R246). -/
theorem promise_iff (s : State) (base pitch : Word) : promiseKept s base pitch = true ↔ Promised s base pitch := by
  simp only [promiseKept, Bool.and_eq_true, decide_eq_true_eq, List.all_eq_true, List.mem_range, rowApart]
  constructor
  · rintro ⟨⟨h1, h2⟩, h3⟩
    refine ⟨h1, h2, fun a ha hb => ?_⟩
    obtain ⟨y, hy, h4, h5⟩ := (sourceRowByte_iff s a).1 ha
    have := h3 y hy; omega
  · rintro ⟨h1, h2, h3⟩
    refine ⟨⟨h1, h2⟩, fun y hy => ?_⟩
    by_contra hc
    exact h3 (max (srcAddr s y 0) base.toNat) ((sourceRowByte_iff s _).2 ⟨y, hy, by omega, by omega⟩) ⟨by omega, by omega⟩

/-- The promises of a grant depend on the source descriptor and the configuration only. -/
theorem promised_cong {s t : State} {base pitch : Word} (h : t.src = s.src) (hc : t.cfg = s.cfg)
    (hp : Promised s base pitch) : Promised t base pitch := by
  have hd : dispatchWord t = dispatchWord s := by unfold dispatchWord is565; rw [h]
  have hr : rowBytes t = rowBytes s := by unfold rowBytes; rw [hd, h, hc]
  have hs : ∀ a, sourceRowByte t a ↔ sourceRowByte s a := fun a => by unfold sourceRowByte; rw [hr, h]
  exact ⟨by rw [h]; exact hp.wide, by rw [h]; exact hp.inside,
    fun a ha => by rw [h]; exact hp.apart a ((hs a).1 ha)⟩

/-- Everything the duplication of one row does. -/
theorem cloneRow_ok {s : State} {base pitch : Word} {y : Nat} : ∀ (n : Nat) {m : Memory}, m.wf = true →
    (∀ k, k < n → sourceInside s y k) → base.toNat + y * pitch.toNat + n ≤ 4294967296 →
    ∃ m', cloneRow s base pitch y n m = .ok m' ∧ m'.wf = true ∧
      (∀ k, k < n → m'.get (base.toNat + y * pitch.toNat + k) = sourceByte s y k) ∧
      (∀ a, (∀ k, k < n → a ≠ base.toNat + y * pitch.toNat + k) → m'.get a = m.get a) := by
  intro n
  induction n with
  | zero => intro m hm _ _; exact ⟨m, rfl, hm, by simp, fun _ _ => rfl⟩
  | succ n ih =>
    intro m hm hs hb
    obtain ⟨m', h1, h2, h3, h4⟩ := ih hm (fun k hk => hs k (by omega)) (by omega)
    refine ⟨m'.put (base.toNat + y * pitch.toNat + n) (sourceByte s y n), ?_, Memory.wf_put h2 _ (by unfold memoryBytes; omega), ?_, ?_⟩
    · simp [cloneRow, h1, srcByte_ok (hs n (by omega)), bind, Except.bind]
    · intro k hk
      by_cases e : k = n
      · subst e; exact Memory.get_put_same h2 _ _
      · rw [Memory.get_put_other _ _ (by omega)]; exact h3 k (by omega)
    · intro a ha
      rw [Memory.get_put_other _ _ (ha n (by omega))]; exact h4 a (fun k hk => ha k (by omega))

/-- Everything the duplication does (45_dispatcher_sequencer.md R247). -/
theorem cloneRows_ok {s : State} {base pitch : Word} (hw : 3 * s.src.width.toNat ≤ pitch.toNat) : ∀ (n : Nat) {m : Memory}, m.wf = true →
    (∀ y k, y < n → k < 3 * s.src.width.toNat → sourceInside s y k) → base.toNat + n * pitch.toNat ≤ 4294967296 →
    ∃ m', cloneRows s base pitch n m = .ok m' ∧ m'.wf = true ∧
      (∀ y k, y < n → k < 3 * s.src.width.toNat → m'.get (base.toNat + y * pitch.toNat + k) = sourceByte s y k) ∧
      (∀ a, (∀ y k, y < n → k < 3 * s.src.width.toNat → a ≠ base.toNat + y * pitch.toNat + k) → m'.get a = m.get a) := by
  intro n
  induction n with
  | zero => intro m hm _ _; exact ⟨m, rfl, hm, by simp, fun _ _ => rfl⟩
  | succ n ih =>
    intro m hm hs hb
    have hsucc : (n+1) * pitch.toNat = n * pitch.toNat + pitch.toNat := by ring
    obtain ⟨m1, h1, h2, h3, h4⟩ := ih hm (fun y k hy hk => hs y k (by omega) hk) (by omega)
    obtain ⟨m2, g1, g2, g3, g4⟩ := cloneRow_ok (s := s) (base := base) (pitch := pitch) (y := n) (3 * s.src.width.toNat) h2 (fun k hk => hs n k (by omega) hk) (by omega)
    refine ⟨m2, by simp [cloneRows, h1, bind, Except.bind, g1], g2, ?_, ?_⟩
    · intro y k hy hk
      by_cases e : y = n
      · subst e; exact g3 k hk
      · rw [g4]
        · exact h3 y k (by omega) hk
        · intro j hj
          have : (y + 1) * pitch.toNat ≤ n * pitch.toNat := Nat.mul_le_mul_right _ (by omega)
          have e2 : (y + 1) * pitch.toNat = y * pitch.toNat + pitch.toNat := by ring
          omega
    · intro a ha
      rw [g4 a (fun k hk => ha n k (by omega) hk)]; exact h4 a (fun y k hy hk => ha y k (by omega) hk)

/-- The duplication keeps the canonical form. -/
theorem cloneRow_wf {s : State} {base pitch : Word} {y : Nat} : ∀ (n : Nat) {m m' : Memory}, m.wf = true →
    base.toNat + y * pitch.toNat + n ≤ 4294967296 → cloneRow s base pitch y n m = .ok m' → m'.wf = true := by
  intro n; induction n with
  | zero => intro m m' hm _ h; cases h; exact hm
  | succ n ih =>
    intro m m' hm hb h
    simp only [cloneRow, bind, Except.bind] at h
    split at h
    · cases h
    · rename_i h1
      split at h
      · cases h
      · cases h; exact Memory.wf_put (ih hm (by omega) h1) _ (by unfold memoryBytes; omega)

theorem cloneRows_wf {s : State} {base pitch : Word} (hw : 3 * s.src.width.toNat ≤ pitch.toNat) : ∀ (n : Nat) {m m' : Memory}, m.wf = true →
    base.toNat + n * pitch.toNat ≤ 4294967296 → cloneRows s base pitch n m = .ok m' → m'.wf = true := by
  intro n; induction n with
  | zero => intro m m' hm _ h; cases h; exact hm
  | succ n ih =>
    intro m m' hm hb h
    have e : (n+1) * pitch.toNat = n * pitch.toNat + pitch.toNat := by ring
    simp only [cloneRows, bind, Except.bind] at h
    split at h
    · cases h
    · rename_i h1
      exact cloneRow_wf _ (ih hm (by omega) h1) (by omega) h

/-- The duplication stops only on an address outside pixel memory. -/
theorem cloneRow_err {s : State} {base pitch : Word} {y : Nat} : ∀ (n : Nat) {m : Memory} {f : Fault}, cloneRow s base pitch y n m = .error f → f ≠ .noTransition := by
  intro n; induction n with
  | zero => intro m f h; cases h
  | succ n ih =>
    intro m f h
    simp only [cloneRow, bind, Except.bind] at h
    split at h
    · cases h; exact ih ‹_›
    · split at h
      · rename_i h2
        cases h
        unfold srcByte at h2; split at h2 <;> cases h2; simp
      · cases h

theorem cloneRows_err {s : State} {base pitch : Word} : ∀ (n : Nat) {m : Memory} {f : Fault}, cloneRows s base pitch n m = .error f → f ≠ .noTransition := by
  intro n; induction n with
  | zero => intro m f h; cases h
  | succ n ih =>
    intro m f h
    simp only [cloneRows, bind, Except.bind] at h
    split at h
    · cases h; exact ih ‹_›
    · exact cloneRow_err _ h

end Sys2Proof.Machine
end

