-- ==== Sys2Proof/Laws/Step.lean ====
section
/-! SUPPORT. Everything one step can do, said once: an invariant of the machine is a case analysis over
`StepKind`, with no meaning unfolded. -/

namespace Sys2Proof.Machine

set_option Elab.async false

/-- With the core's move next, a step is the core's. -/
theorem step_core {s : State} {rest : List Move} (h : CoreNext s rest) :
    step s = coreStep { s with moves := rest } := by
  rcases h with h | ⟨h, rfl⟩ <;> simp only [step, nextStep, h]
  · rfl
  · rw [← h]

/-- With a move at the head of the list, a step is that move. -/
theorem step_move {s : State} {rest : List Move} {m : Move} (h : s.moves = m :: rest) :
    step s = moveStep m { s with moves := rest } := by simp only [step, nextStep, h]

/-- Everything one core step can do. -/
inductive CoreKind (s : State) : State → Prop where
  /-- IDLE, an outstanding request, or a START in the core's place: no step. -/
  | stay : CoreKind s s
  /-- R233, R234. -/
  | failAtCheck (c : Cause) : s.status.phase = .check → c = .nullSource ∨ c = .unsupportedType →
      CoreKind s (raiseFail c s)
  /-- R235. -/
  | clone : s.status.phase = .check → CoreKind s (cloneRequest s)
  /-- R236. -/
  | alloc : s.status.phase = .check → goesToAlloc s = true → CoreKind s (allocRequest s)
  /-- R252. -/
  | select (op : Op) : s.status.phase = .select → selectedOp s = some op → CoreKind s (selectOp op s)
  /-- R253. -/
  | noMatch : s.status.phase = .select → CoreKind s (raiseFail .unsupportedDepth s)
  /-- R257, R258. -/
  | done : s.status.phase = .convert → s.seqRow = s.src.height → CoreKind s (success s)
  /-- R255. -/
  | pixel (op : Op) (p : Rgb) (n : Nat) (m : Memory) : AtPixel s → s.op = some op →
      pixelFn op s s.seqRow.toNat s.seqCol.toNat = .ok (.rgb p n) →
      putPixel s s.seqRow.toNat s.seqCol.toNat p = .ok m → CoreKind s (pixelDone m n s)
  /-- R256. -/
  | badIndex : AtPixel s → CoreKind s (raiseFail .paletteIndex s)
  /-- R254. -/
  | rowEnd : s.status.phase = .convert → s.seqRow.toNat < s.src.height.toNat → s.seqCol = s.src.width →
      CoreKind s (rowEnd s)

/-- Everything one step can do to the state whose move has been taken off the list. -/
inductive StepKind (s : State) : State → Prop where
  | core {t : State} : CoreKind s t → StepKind s t
  /-- R231. -/
  | start : s.status.phase = .idle → StepKind s (startRun s)
  /-- A host write to a register other than CTRL. -/
  | write (r : Reg) (d : Word) : (∀ i, r = .palette i → i < 256) → StepKind s (regWrite r d s)
  /-- A host read of a register or of a byte. -/
  | observe (v : Word) (n : Nat) : StepKind s { s with rdData := some v, draws := n }
  /-- A byte written by the host or the environment. -/
  | memory (a : Nat) (b : Byte) : a < memoryBytes → StepKind s { s with mem := s.mem.put a b }
  /-- R310. -/
  | reset : s.status.phase = .idle → StepKind s
      { s with
        status := Status.reset
        src := SrcRegs.reset
        dst := DstRegs.zero
        seqRow := 0
        seqCol := 0
        op := none
        pend := none
        svcOut := none }
  /-- R246. -/
  | allocGranted (h base pitch : Word) : s.status.phase = .allocWait → Promised s base pitch →
      StepKind s (allocGranted h base pitch s)
  /-- R246, R248. -/
  | denied : s.status.phase = .allocWait ∨ s.status.phase = .cloneWait → StepKind s (denied s)
  /-- R247. -/
  | cloneGranted (h base pitch : Word) (m : Memory) : s.status.phase = .cloneWait → Promised s base pitch →
      cloneRows s base pitch s.src.height.toNat s.mem = .ok m → StepKind s (cloneGranted m h base pitch s)
  /-- R249. -/
  | metaCopied (d c : Word) : s.status.phase = .metaWait → s.svcOut = some (.metacopy d c) →
      StepKind s (metaCopied d c s)
  /-- R250. -/
  | freed (d : Word) (c : Cause) : s.status.phase = .freeWait → s.pend = some c → StepKind s (freed d c s)

/-- The cases of a step in CONVERT. -/
theorem convert_cases {s t : State} {op : Op} (hop : s.op = some op) (hp : s.status.phase = .convert)
    (h : convertStep (pixelFn op) s = .next t) : CoreKind s t := by
  simp only [convertStep] at h
  split at h
  · cases h; exact .done hp ‹_›
  · split at h
    · split at h
      · have ha : AtPixel s := ⟨hp, ‹_›, ‹_›⟩
        simp only [pixelStep] at h
        cases hx : pixelFn op s s.seqRow.toNat s.seqCol.toNat with
        | error f => rw [hx] at h; cases h
        | ok q =>
          cases q with
          | badIndex => rw [hx] at h; cases h; exact .badIndex ha
          | rgb p n =>
            rw [hx] at h
            dsimp only at h
            cases hm : putPixel s s.seqRow.toNat s.seqCol.toNat p with
            | error f => rw [hm] at h; cases h
            | ok m => rw [hm] at h; cases h; exact .pixel op p n m ha hop hx hm
      · split at h
        · cases h; exact .rowEnd hp ‹_› ‹_›
        · cases h
    · cases h

theorem core_cases {s t : State} (h : coreStep s = .next t) : CoreKind s t := by
  have sel : ∀ i op, decode .dispatch (dispatchWord s) = .ok i → convertingOp i = some op → selectedOp s = some op ∧ goesToAlloc s = true := by
    intro i op h1 h2; simp [selectedOp, goesToAlloc, h1, h2]
  cases hp : s.status.phase <;> simp only [coreStep, hp, Host.Outcome.next.injEq] at h
  case idle => subst h; exact .stay
  case cloneWait => subst h; exact .stay
  case allocWait => subst h; exact .stay
  case metaWait => subst h; exact .stay
  case freeWait => subst h; exact .stay
  case check =>
    cases hd : decode .dispatch (dispatchWord s) with
    | error e =>
      rw [hd] at h; cases h
      cases e with
      | unsupportedType => exact .failAtCheck _ hp (.inr rfl)
      | unsupportedDepth => exact .alloc hp (by simp [goesToAlloc, hd])
      | noStart => simp only [decode, decodeFields, decodeStd] at hd; exfalso; repeat' split at hd
                   all_goals cases hd
    | ok i =>
      rw [hd] at h; dsimp only at h
      cases hc : convertingOp i with
      | some op => rw [exec_converting hc] at h; simp only [convertingStep, hp] at h; cases h; exact .alloc hp (sel _ _ hd hc).2
      | none =>
        cases i <;> simp [convertingOp] at hc
        · simp only [exec, execRejectNull, hp] at h; cases h; exact .failAtCheck _ hp (.inl rfl)
        · simp only [exec, execClone24, hp] at h; cases h; exact .clone hp
        · simp only [exec, execStart, hp] at h; cases h; exact .stay
  case select =>
    cases hd : decode .dispatch (dispatchWord s) with
    | error e => rw [hd] at h; cases h; exact .noMatch hp
    | ok i =>
      rw [hd] at h; dsimp only at h
      cases hc : convertingOp i with
      | some op => rw [exec_converting hc] at h; simp only [convertingStep, hp] at h; cases h; exact .select op hp (sel _ _ hd hc).1
      | none =>
        cases i <;> simp [convertingOp] at hc
        · simp only [exec, execRejectNull, hp] at h; cases h
        · simp only [exec, execClone24, hp] at h; cases h
        · simp only [exec, execStart, hp] at h; cases h; exact .stay
  case convert =>
    cases ho : s.op with
    | none => rw [ho] at h; cases h
    | some op =>
      rw [ho] at h; dsimp only at h
      rw [exec_converting (convertingOp_instr op)] at h
      simp only [convertingStep, hp] at h
      exact convert_cases ho hp h

theorem answer_cases {s t : State} {a : Answer} (h : answerStep a s = .next t) : StepKind s t := by
  unfold answerStep at h
  split at h
  · split at h
    · cases h; exact .allocGranted _ _ _ ‹_› ((promise_iff _ _ _).1 ‹_›)
    · cases h
  · cases h; exact .denied (.inl ‹_›)
  · split at h
    · cases hm : cloneRows s _ _ s.src.height.toNat s.mem with
      | error f => rw [hm] at h; cases h
      | ok m => rw [hm] at h; cases h; exact .cloneGranted _ _ _ m ‹_› ((promise_iff _ _ _).1 ‹_›) hm
    · cases h
  · cases h; exact .denied (.inr ‹_›)
  · cases h; exact .metaCopied _ _ ‹_› ‹_›
  · split at h
    · cases h; exact .freed _ _ ‹_› ‹_›
    · cases h
  · cases h

theorem move_cases {s t : State} {m : Move} (h : moveStep m s = .next t) : StepKind s t := by
  cases m with
  | wr o d =>
    simp only [moveStep, hostWrite] at h
    split at h
    · split at h
      · cases h; exact .core .stay
      · split at h
        · rename_i i hi
          have : ∃ n, i = .start n := by
            simp only [decode] at hi; split at hi <;> cases hi; exact ⟨_, rfl⟩
          obtain ⟨n, rfl⟩ := this
          cases hp : s.status.phase <;> simp only [exec, execStart, hp] at h <;> cases h
          · exact .start hp
          all_goals exact .core .stay
        · cases h; exact .core .stay
      · rename_i r _ hr
        cases h; exact .write _ _ (fun i e => by subst e; exact ofOffset_palette_lt hr)
    · cases h
  | rd o =>
    simp only [moveStep, hostRead] at h
    split at h
    · split at h <;> cases h <;> exact .observe _ _
    · cases h
  | ans a => exact answer_cases h
  | core => exact .core (core_cases h)
  | memWr a b =>
    simp only [moveStep, memoryWrite] at h
    split at h
    · cases h
    · split at h
      · cases h
      · cases h; exact .memory _ _ (by omega)
  | memRd a =>
    simp only [moveStep, memoryRead] at h
    split at h
    · cases h
    · split at h
      · cases h
      · cases h; exact .observe _ _
  | reset =>
    cases hp : s.status.phase <;> simp only [moveStep, hardReset, hp] at h <;> cases h
    exact .reset hp

/-- Everything one step can do. -/
theorem step_cases {s t : State} (h : step s = .next t) : ∃ rest, (CoreNext s rest ∨ ∃ m, s.moves = m :: rest) ∧ StepKind { s with moves := rest } t := by
  cases hm : s.moves with
  | nil =>
    have hc : CoreNext s [] := .inr ⟨hm, rfl⟩
    refine ⟨[], .inl hc, .core (core_cases ?_)⟩
    rw [← step_core hc]; exact h
  | cons m rest =>
    refine ⟨rest, .inr ⟨m, rfl⟩, move_cases (m := m) ?_⟩
    rw [← step_move hm]; exact h

/-- A core step leaves the moves still to come. -/
theorem core_moves {s t : State} (h : coreStep s = .next t) : t.moves = s.moves := by
  have hr : ∀ c, (raiseFail c s).moves = s.moves := by intro c; unfold raiseFail; split <;> rfl
  cases core_cases h with
  | failAtCheck c => exact hr _
  | noMatch => exact hr _
  | badIndex => exact hr _
  | _ => rfl

/-- The dispatch word depends on the source registers only. -/
theorem selected_cong {s t : State} (h : t.src = s.src) : selectedOp t = selectedOp s ∧ goesToAlloc t = goesToAlloc s := by
  have : dispatchWord t = dispatchWord s := by unfold dispatchWord is565; rw [h]
  simp [selectedOp, goesToAlloc, this]

theorem selected_decode {s : State} {op : Op} (h : selectedOp s = some op) : ∃ i, decode .dispatch (dispatchWord s) = .ok i ∧ convertingOp i = some op := by
  cases hd : decode .dispatch (dispatchWord s) with
  | error e => simp [selectedOp, hd] at h
  | ok i => exact ⟨i, rfl, by simpa [selectedOp, hd] using h⟩

/-- CHECK of a run whose word selects a converting operation (45_dispatcher_sequencer.md R236). -/
theorem check_step {s : State} {op : Op} (h : selectedOp s = some op) (hp : s.status.phase = .check) : coreStep s = .next (allocRequest s) := by
  obtain ⟨i, h1, h2⟩ := selected_decode h
  simp only [coreStep, hp, h1]; rw [exec_converting h2]; simp only [convertingStep, hp]

/-- SELECT of a run whose word selects a converting operation (45_dispatcher_sequencer.md R252). -/
theorem select_step {s : State} {op : Op} (h : selectedOp s = some op) (hp : s.status.phase = .select) : coreStep s = .next (selectOp op s) := by
  obtain ⟨i, h1, h2⟩ := selected_decode h
  simp only [coreStep, hp, h1]; rw [exec_converting h2]; simp only [convertingStep, hp]

/-- ALLOC answered with a GRANT that keeps its promises (45_dispatcher_sequencer.md R246). -/
theorem answer_allocGrant {s : State} {h base pitch w ht r g b : Word} {d : Nat} (hp : s.status.phase = .allocWait)
    (hs : s.svcOut = some (.alloc w ht d r g b)) (hk : Promised s base pitch) :
    answerStep (.grant h base pitch) s = .next (allocGranted h base pitch s) := by
  simp only [answerStep, hp, hs, (promise_iff _ _ _).2 hk, if_true]

/-- CLONE answered with a GRANT that keeps its promises (45_dispatcher_sequencer.md R247). -/
theorem answer_cloneGrant {s : State} {h base pitch src : Word} {m : Memory} (hp : s.status.phase = .cloneWait)
    (hs : s.svcOut = some (.clone src)) (hk : Promised s base pitch) (hm : cloneRows s base pitch s.src.height.toNat s.mem = .ok m) :
    answerStep (.grant h base pitch) s = .next (cloneGranted m h base pitch s) := by
  simp only [answerStep, hp, hs, (promise_iff _ _ _).2 hk, if_true, hm]

/-- A grant that breaks its promises is refused by name (93_implementation_defined.md U14, U16). -/
theorem answer_brokenGrant {s : State} {h base pitch : Word} (hk : ¬ Promised s base pitch)
    (hor : (s.status.phase = .allocWait ∧ ∃ w ht d r g b, s.svcOut = some (.alloc w ht d r g b)) ∨
      (s.status.phase = .cloneWait ∧ ∃ c, s.svcOut = some (.clone c))) :
    answerStep (.grant h base pitch) s = .refused .grantBreaksPromise := by
  have hk' : ¬ promiseKept s base pitch = true := fun e => hk ((promise_iff _ _ _).1 e)
  rcases hor with ⟨hp, w, ht, d, r, g, b, hs⟩ | ⟨hp, c, hs⟩ <;> simp only [answerStep, hp, hs, if_neg hk']

/-- METACOPY acknowledged (45_dispatcher_sequencer.md R249). -/
theorem answer_metacopy {s : State} {d c : Word} (hp : s.status.phase = .metaWait)
    (hs : s.svcOut = some (.metacopy d c)) : answerStep .ack s = .next (metaCopied d c s) := by
  simp only [answerStep, hp, hs]

/-- What a failure entry never touches. -/
theorem raiseFail_same (c : Cause) (s : State) : (raiseFail c s).src = s.src ∧ (raiseFail c s).palette = s.palette ∧ (raiseFail c s).cfg = s.cfg ∧ (raiseFail c s).mem = s.mem := by
  unfold raiseFail; split <;> exact ⟨rfl, rfl, rfl, rfl⟩

end Sys2Proof.Machine
end

