-- ==== Sys2Proof/Laws/Run.lean ====
section
/-! SUPPORT. A conversion in progress: what holds at each position, and that a pixel step and a row end go from one
position to the next. -/

namespace Sys2Proof.Machine

/-- Two bytes of rows no wider than the pitch are one byte only if row and column agree. -/
theorem row_inj {P y y' a b : Nat} (ha : a < P) (hb : b < P) (h : y * P + a = y' * P + b) : y = y' ∧ a = b := by
  have h1 : (y * P + a) / P = y := by
    rw [Nat.add_comm, Nat.add_mul_div_right _ _ (by omega), Nat.div_eq_of_lt ha]; omega
  have h2 : (y' * P + b) / P = y' := by
    rw [Nat.add_comm, Nat.add_mul_div_right _ _ (by omega), Nat.div_eq_of_lt hb]; omega
  have : y = y' := by rw [← h1, ← h2, h]
  subst this; exact ⟨rfl, by omega⟩

/-- A conversion of `s` by `op` with pixels `f` stands at row `y`, column `x` in the state `u`. -/
structure ConversionAt (s u : State) (op : Op) (f : Nat → Nat → Rgb) (y x : Nat) : Prop where
  cfg : u.cfg = s.cfg
  src : u.src = s.src
  dst : u.dst = s.dst
  pal : u.palette = s.palette
  phase : u.status.phase = .convert
  op : u.op = some op
  wf : u.mem.wf = true
  row : u.seqRow.toNat = y
  col : u.seqCol.toNat = x
  pixels : ∀ y' x', y' < s.src.height.toNat → x' < s.src.width.toNat → Before y' x' y x → getPixel u y' x' = f y' x'
  others : ∀ a, (∀ y' x' k, y' < s.src.height.toNat → x' < s.src.width.toNat → Before y' x' y x → k < 3 →
    a ≠ dstAddr s y' (3 * x' + k)) → u.mem.get a = s.mem.get a

/-- In particular no byte but the pixel bytes of the destination has changed. -/
theorem ConversionAt.outside {s u : State} {op : Op} {f : Nat → Nat → Rgb} {y x : Nat} (h : ConversionAt s u op f y x) :
    ∀ a, ¬ destPixelByte s a → u.mem.get a = s.mem.get a :=
  fun a ha => h.others a fun y' x' k hy hx _ hk e => ha ⟨y', 3 * x' + k, hy, by omega, e⟩

theorem dst_inside {s : State} {op : Op} (hb : Begins s op) {y k : Nat} (hy : y < s.src.height.toNat) (hk : k < 3 * s.src.width.toNat) :
    s.dst.base.toNat + y * s.dst.pitch.toNat + k < 4294967296 := by
  have h1 := hb.inside; have h2 := hb.wide
  have : (y + 1) * s.dst.pitch.toNat ≤ s.src.height.toNat * s.dst.pitch.toNat := Nat.mul_le_mul_right _ hy
  have e : (y+1) * s.dst.pitch.toNat = y * s.dst.pitch.toNat + s.dst.pitch.toNat := by ring
  omega

theorem prog_pixel {s u : State} {op : Op} {f : Nat → Nat → Rgb} {y x : Nat} (hb : Begins s op) (hu : ConversionAt s u op f y x)
    (hf : ∃ n, pixelFn op u y x = .ok (.rgb (f y x) n))
    (hy : y < s.src.height.toNat) (hx : x < s.src.width.toNat) : ∃ v, coreStep u = .next v ∧ ConversionAt s v op f y (x+1) := by
  obtain ⟨n, hn⟩ := hf
  have ha : AtPixel u := ⟨hu.phase, by rw [hu.row, hu.src]; exact hy, by rw [hu.col, hu.src]; exact hx⟩
  have ho : outputInside u := by
    unfold outputInside; rw [hu.dst, hu.row, hu.col]; exact dst_inside hb hy (by omega)
  obtain ⟨v, h1, h2⟩ := pixelStep_written (pix := pixelFn op) (p := f y x) (n := n) hu.wf ho (by rw [hu.row, hu.col]; exact hn)
  have hc : coreStep u = .next v := by
    simp only [coreStep, hu.phase, hu.op]
    rw [exec_atPixel (convertingOp_instr op) ha, h1]
  have hd : dstAddr u = dstAddr s := by unfold dstAddr; rw [hu.dst]
  have hrest := h2.rest
  have hvd : dstAddr v = dstAddr s := by rw [hrest]; exact hd
  have hW : s.src.width.toNat < 4294967296 := s.src.width.isLt
  have hwide := hb.wide
  refine ⟨v, hc, ?_⟩
  have hcfg : v.cfg = u.cfg := by rw [hrest]
  refine ⟨by rw [hrest]; exact hu.cfg, by rw [hrest]; exact hu.src, by rw [hrest]; exact hu.dst, by rw [hrest]; exact hu.pal,
    by rw [hrest]; exact hu.phase, by rw [hrest]; exact hu.op, ?_, by rw [hrest]; exact hu.row, ?_, ?_, ?_⟩
  · -- wf
    simp only [pixelStep] at h1
    rw [show pixelFn op u u.seqRow.toNat u.seqCol.toNat = .ok (.rgb (f y x) n) by rw [hu.row, hu.col]; exact hn] at h1
    dsimp only at h1
    cases hm : putPixel u u.seqRow.toNat u.seqCol.toNat (f y x) with
    | error g => rw [hm] at h1; cases h1
    | ok m =>
      rw [hm] at h1; cases h1
      obtain ⟨-, l1, l2, l3, -⟩ := layout_offsets u.cfg.layout
      unfold putPixel at hm
      split at hm
      · rename_i hlt
        cases hm
        unfold pixelTop dstAddr at hlt
        exact Memory.wf_put (Memory.wf_put (Memory.wf_put hu.wf _ (by unfold dstAddr; omega)) _ (by unfold dstAddr; omega)) _ (by unfold dstAddr; omega)
      · cases hm
  · rw [hrest]; show (u.seqCol + 1).toNat = x + 1
    rw [BitVec.toNat_add, hu.col]; simp; omega
  · intro y' x' hy' hx' hlt
    obtain ⟨-, l1, l2, l3, -⟩ := layout_offsets v.cfg.layout
    by_cases e : y' = y ∧ x' = x
    · obtain ⟨rfl, rfl⟩ := e
      have r := h2.red; have g := h2.green; have b := h2.blue
      rw [hu.row, hu.col, hd, ← hcfg] at r g b
      unfold getPixel
      rw [hvd, r, g, b]
    · rw [← hu.pixels y' x' hy' hx' (by unfold Before at *; omega)]
      have key : ∀ j, j < 3 → v.mem.get (dstAddr s y' (3 * x' + j)) = u.mem.get (dstAddr s y' (3 * x' + j)) := by
        intro j hj
        apply h2.others
        intro k hk
        rw [hd, hu.row, hu.col]
        intro heq
        unfold dstAddr at heq
        have := row_inj (P := s.dst.pitch.toNat) (y := y') (y' := y) (a := 3*x'+j) (b := 3*x+k) (by omega) (by omega) (by omega)
        omega
      unfold getPixel
      rw [hvd, hd, key _ l1, key _ l2, key _ l3, hcfg]
  · intro a hna
    rw [h2.others, hu.others a fun y' x' k hy' hx' hlt hk => hna y' x' k hy' hx' (by unfold Before at *; omega) hk]
    intro k hk
    rw [hd, hu.row, hu.col]
    exact hna y x k hy hx (by unfold Before; omega) hk

theorem prog_rowEnd {s u : State} {op : Op} {f : Nat → Nat → Rgb} {y : Nat} (hu : ConversionAt s u op f y s.src.width.toNat)
    (hy : y < s.src.height.toNat) : ∃ v, coreStep u = .next v ∧ ConversionAt s v op f (y+1) 0 := by
  refine ⟨rowEnd u, ?_, hu.cfg, hu.src, hu.dst, hu.pal, hu.phase, hu.op, hu.wf, ?_, rfl, ?_, fun a ha =>
    hu.others a fun y' x' k hy' hx' hlt hk => ha y' x' k hy' hx' (by unfold Before at *; omega) hk⟩
  · simp only [coreStep, hu.phase, hu.op]
    rw [exec_converting (convertingOp_instr op)]
    simp only [convertingStep, hu.phase, convertStep]
    have h1 : u.seqRow.toNat < u.src.height.toNat := by rw [hu.row, hu.src]; exact hy
    have h2 : u.seqCol = u.src.width := BitVec.eq_of_toNat_eq (by rw [hu.col, hu.src])
    rw [if_neg (by intro e; rw [e] at h1; omega), if_pos h1, if_neg (by rw [h2]; omega), if_pos h2]
  · have := s.src.height.isLt
    show (u.seqRow + 1).toNat = y + 1
    rw [BitVec.toNat_add, hu.row]; simp; omega
  · intro y' x' hy' hx' hlt
    exact hu.pixels y' x' hy' hx' (by unfold Before at *; omega)

theorem coreRun_add (n m : Nat) {s t : State} (h : coreRun n s = .next t) : coreRun (n + m) s = coreRun m t := by
  induction n generalizing s with
  | zero => cases h; simp
  | succ n ih =>
    rw [Nat.add_right_comm, coreRun]; rw [coreRun] at h
    cases hc : coreStep s with
    | next u => rw [hc] at h; exact ih h
    | fault f => rw [hc] at h; cases h
    | refused f => rw [hc] at h; cases h

theorem run_core (n : Nat) {s : State} (h : s.moves = []) : run n s = coreRun n s := by
  induction n generalizing s with
  | zero => rfl
  | succ n ih =>
    rw [run, coreRun, step_core (.inr ⟨h, rfl⟩)]
    have e : ({ s with moves := [] } : State) = s := by rw [← h]
    rw [e]
    cases hc : coreStep s with
    | next t => exact ih (by rw [core_moves hc, h])
    | fault f => rfl
    | refused f => rfl

theorem run_succ {n : Nat} {s t : State} (h : step s = .next t) : run (n + 1) s = run n t := by rw [run, h]

/-- From START in IDLE with the grant and the acknowledgement to come, the fifth step leaves the machine about to
convert, its source, palette, configuration and pixel memory as they were (45_dispatcher_sequencer.md R231, R236, R246,
R249, R252). -/
theorem run_to_conversion {s : State} {op : Op} {h base pitch : Word} (hidle : s.status.phase = .idle)
    (hw : s.mem.wf = true) (hsel : selectedOp s = some op) (hpr : Promised s base pitch)
    (hm : s.moves = [.wr 0x000 0x00000001, .core, .ans (.grant h base pitch), .ans .ack]) :
    ∃ u, (∀ n, run (5 + n) s = run n u) ∧ u.moves = [] ∧ Begins u op ∧ u.cfg = s.cfg ∧ u.src = s.src ∧
      u.palette = s.palette ∧ u.mem = s.mem ∧
      u.dst = ⟨0, h, s.src.width, s.src.height, pitch, base, (0xFF : Word) <<< (8 * offR s.cfg.layout),
        (0xFF : Word) <<< (8 * offG s.cfg.layout), (0xFF : Word) <<< (8 * offB s.cfg.layout)⟩ := by
  have e1 : step s = .next (startRun { s with moves := [.core, .ans (.grant h base pitch), .ans .ack] }) := by
    rw [step_move hm]
    have hr : Reg.ofOffset 0 = some .ctrl := by decide
    have ho : offsetOk 0 = true := by decide
    have hd : decode .ctrl 0x00000001 = .ok (.start 0) := by decide
    simp only [moveStep, hostWrite, ho, hr, if_true, hd, exec, execStart, hidle]
  obtain ⟨s1, hs1⟩ : ∃ x, startRun { s with moves := [.core, .ans (.grant h base pitch), .ans .ack] } = x := ⟨_, rfl⟩
  rw [hs1] at e1
  have e2 : step s1 = .next (allocRequest { s1 with moves := [.ans (.grant h base pitch), .ans .ack] }) := by
    rw [step_core (.inl (by rw [← hs1]; rfl : s1.moves = _))]
    exact check_step (by rw [(selected_cong (s := s) (by rw [← hs1]; rfl)).1]; exact hsel) (by rw [← hs1]; rfl)
  obtain ⟨s2, hs2⟩ : ∃ x, allocRequest { s1 with moves := [.ans (.grant h base pitch), .ans .ack] } = x := ⟨_, rfl⟩
  rw [hs2] at e2
  have src2 : s2.src = s.src := by rw [← hs2, ← hs1]; rfl
  have cfg2 : s2.cfg = s.cfg := by rw [← hs2, ← hs1]; rfl
  have e3 : step s2 = .next (allocGranted h base pitch { s2 with moves := [.ans .ack] }) := by
    rw [step_move (m := .ans (.grant h base pitch)) (rest := [.ans .ack]) (by rw [← hs2]; rfl)]
    exact answer_allocGrant (s := { s2 with moves := [.ans .ack] }) (by rw [← hs2]; rfl) (by rw [← hs2]; rfl) (promised_cong (t := { s2 with moves := [.ans .ack] }) src2 cfg2 hpr)
  obtain ⟨s3, hs3⟩ : ∃ x, allocGranted h base pitch { s2 with moves := [.ans .ack] } = x := ⟨_, rfl⟩
  rw [hs3] at e3
  have e4 : step s3 = .next (metaCopied h s2.src.handle { s3 with moves := [] }) := by
    rw [step_move (m := .ans .ack) (rest := []) (by rw [← hs3]; rfl)]
    have hp : s3.status.phase = .metaWait := by rw [← hs3]; rfl
    have hs : s3.svcOut = some (.metacopy h s2.src.handle) := by rw [← hs3]; rfl
    simp only [moveStep, answerStep, hp, hs]
  obtain ⟨s4, hs4⟩ : ∃ x, metaCopied h s2.src.handle { s3 with moves := [] } = x := ⟨_, rfl⟩
  rw [hs4] at e4
  have src4 : s4.src = s.src := by rw [← hs4, ← hs3]; exact src2
  have m4 : s4.moves = [] := by rw [← hs4]; rfl
  have e5 : step s4 = .next (selectOp op s4) := by
    rw [step_core (.inr ⟨m4, rfl⟩)]
    have : ({ s4 with moves := [] } : State) = s4 := by rw [← m4]
    rw [this]
    exact select_step (by rw [(selected_cong src4).1]; exact hsel) (by rw [← hs4]; rfl)
  obtain ⟨s5, hs5⟩ : ∃ x, selectOp op s4 = x := ⟨_, rfl⟩
  rw [hs5] at e5
  have src5 : s5.src = s.src := by rw [← hs5]; exact src4
  have cfg5 : s5.cfg = s.cfg := by rw [← hs5, ← hs4, ← hs3]; exact cfg2
  have pal5 : s5.palette = s.palette := by rw [← hs5, ← hs4, ← hs3, ← hs2, ← hs1]; rfl
  have mem5 : s5.mem = s.mem := by rw [← hs5, ← hs4, ← hs3, ← hs2, ← hs1]; rfl
  have m5 : s5.moves = [] := by rw [← hs5]; exact m4
  obtain ⟨cr, cg, cb⟩ := channelMask_eq s.cfg.layout
  have dst5 : s5.dst = ⟨0, h, s.src.width, s.src.height, pitch, base, (0xFF : Word) <<< (8 * offR s.cfg.layout),
        (0xFF : Word) <<< (8 * offG s.cfg.layout), (0xFF : Word) <<< (8 * offB s.cfg.layout)⟩ := by
    rw [← cr, ← cg, ← cb, ← hs5, ← hs4, ← hs3, ← hs2, ← hs1]; rfl
  have db : s5.dst.base = base := by rw [dst5]
  have dp : s5.dst.pitch = pitch := by rw [dst5]
  have hbeg : Begins s5 op := ⟨by rw [← hs5]; rfl, by rw [← hs5]; rfl, by rw [← hs5]; rfl, by rw [← hs5]; rfl, by rw [mem5]; exact hw,
    by rw [src5, dp]; exact hpr.wide, by rw [src5, dp, db]; exact hpr.inside⟩
  refine ⟨s5, fun n => ?_, m5, hbeg, cfg5, src5, pal5, mem5, dst5⟩
  rw [show 5 + n = n + 1 + 1 + 1 + 1 + 1 by omega, run_succ e1, run_succ e2, run_succ e3, run_succ e4, run_succ e5]

end Sys2Proof.Machine
end

