-- ==== Sys2Proof/Laws/Tone.lean ====
section
/-! SUPPORT. The tone-mapper on non-negative samples: POW's free choice is consulted only where it
matters, and the integer along each branch is a monotone chain of roundings
(44_hdr_tonemapper.md R206 to R209). -/

namespace Sys2Proof.Machine

set_option Elab.async false
/-- Where both of POW's two values give the same integer POW's choice does not matter. -/
theorem powerBranch_eq (fw : FloatWidth) (mag : Nat) : powerBranch fw mag = powerTail fw (pow fw mag) := by
  unfold powerBranch
  split
  · rename_i h
    rcases pow_mem_ends fw mag with e | e <;> rw [e]
    exact h
  · rfl

/-- The magnitude of a constant. -/
def magOf : Datum → Nat
  | .fin _ m => m
  | _ => 0
/-- The magnitudes along the last steps, for a non-negative `out`. -/
def scaleMag (fw : FloatWidth) (out : Nat) : Nat :=
  roundMag fw (roundMag fw (out * magOf (toneC255 fw)) (unitExp fw) + magOf (toneHalf fw)) 0
theorem scaleMag_mono (fw : FloatWidth) {a b : Nat} (h : a ≤ b) : scaleMag fw a ≤ scaleMag fw b := by
  unfold scaleMag
  exact roundMag_mono fw _ (Nat.add_le_add_right (roundMag_mono fw _ (Nat.mul_le_mul_right _ h)) _)
theorem scaleMag_one (fw : FloatWidth) : scaleMag fw (2 ^ unitExp fw) / 2 ^ unitExp fw = 255 ∧
    roundMag fw (2 ^ unitExp fw * magOf (toneC255 fw)) (unitExp fw) < overflowMag fw ∧ scaleMag fw (2 ^ unitExp fw) < overflowMag fw := by
  cases fw <;> decide +kernel
theorem const_fin (fw : FloatWidth) : toneC255 fw = .fin false (magOf (toneC255 fw)) ∧ toneHalf fw = .fin false (magOf (toneHalf fw)) ∧
    toneSlope fw = .fin false (magOf (toneSlope fw)) ∧ toneK1 fw = .fin false (magOf (toneK1 fw)) ∧ toneK2 fw = .fin false (magOf (toneK2 fw)) := by
  cases fw <;> decide +kernel
theorem scaleTrunc_eq {fw : FloatWidth} {out : Nat} (h : out ≤ 2 ^ unitExp fw) :
    scaleTrunc fw (.fin false out) = some ((scaleMag fw out / 2 ^ unitExp fw : Nat) : Int) := by
  obtain ⟨c1, c2, -⟩ := const_fin fw
  obtain ⟨-, h1, h2⟩ := scaleMag_one fw
  have e1 : fmul fw (.fin false out) (toneC255 fw) = .fin false (roundMag fw (out * magOf (toneC255 fw)) (unitExp fw)) := by
    rw [c1]; exact round_fin (Nat.mul_le_mul_right _ h) h1
  have e2 : fadd fw (.fin false (roundMag fw (out * magOf (toneC255 fw)) (unitExp fw))) (toneHalf fw) = .fin false (scaleMag fw out) := by
    rw [c2]; exact round_fin (num' := roundMag fw (2 ^ unitExp fw * magOf (toneC255 fw)) (unitExp fw) + magOf (toneHalf fw))
      (Nat.add_le_add_right (roundMag_mono fw _ (Nat.mul_le_mul_right _ h)) _) h2
  unfold scaleTrunc
  rw [e1, e2]; rfl
/-- The linear branch's magnitude. -/
def linearMag (fw : FloatWidth) (x : Nat) : Nat := roundMag fw (x * magOf (toneSlope fw)) (unitExp fw)
theorem linear_start (fw : FloatWidth) : scaleMag fw (linearMag fw (magOf (toneStart fw))) / 2 ^ unitExp fw = 21 ∧
    linearMag fw (magOf (toneStart fw)) < overflowMag fw ∧ linearMag fw (magOf (toneStart fw)) ≤ 2 ^ unitExp fw ∧ toneStart fw = .fin false (magOf (toneStart fw)) := by
  cases fw <;> decide +kernel
theorem linearMag_mono (fw : FloatWidth) {a b : Nat} (h : a ≤ b) : linearMag fw a ≤ linearMag fw b := roundMag_mono fw _ (Nat.mul_le_mul_right _ h)
theorem linear_eq {fw : FloatWidth} {x : Nat} (h : x ≤ magOf (toneStart fw)) :
    scaleTrunc fw (fmul fw (.fin false x) (toneSlope fw)) = some ((scaleMag fw (linearMag fw x) / 2 ^ unitExp fw : Nat) : Int) := by
  obtain ⟨-, -, c3, -⟩ := const_fin fw
  obtain ⟨-, h1, h2, -⟩ := linear_start fw
  have e1 : fmul fw (.fin false x) (toneSlope fw) = .fin false (linearMag fw x) := by
    rw [c3]; exact round_fin (Nat.mul_le_mul_right _ h) h1
  rw [e1]; exact scaleTrunc_eq (le_trans (linearMag_mono fw h) h2)
/-- The power branch's magnitude after POW. -/
def powerMag (fw : FloatWidth) (p : Nat) : Nat := roundMag fw (roundMag fw (magOf (toneK1 fw) * p) (unitExp fw) - magOf (toneK2 fw)) 0
theorem power_consts (fw : FloatWidth) : magOf (toneK2 fw) < roundMag fw (magOf (toneK1 fw) * (powEnds fw (magOf (toneStart fw))).1) (unitExp fw) ∧
    21 ≤ scaleMag fw (powerMag fw (powEnds fw (magOf (toneStart fw))).1) / 2 ^ unitExp fw ∧
    roundMag fw (magOf (toneK1 fw) * 2 ^ unitExp fw) (unitExp fw) < overflowMag fw ∧ powerMag fw (2 ^ unitExp fw) = 2 ^ unitExp fw ∧ 2 ^ unitExp fw < overflowMag fw := by
  cases fw <;> decide +kernel
theorem powerMag_mono (fw : FloatWidth) {a b : Nat} (h : a ≤ b) : powerMag fw a ≤ powerMag fw b := by
  unfold powerMag
  exact roundMag_mono fw _ (Nat.sub_le_sub_right (roundMag_mono fw _ (Nat.mul_le_mul_left _ h)) _)
theorem power_eq {fw : FloatWidth} {p : Nat} (hlo : (powEnds fw (magOf (toneStart fw))).1 ≤ p) (hhi : p ≤ 2 ^ unitExp fw) :
    powerTail fw p = some ((scaleMag fw (powerMag fw p) / 2 ^ unitExp fw : Nat) : Int) := by
  obtain ⟨-, -, -, c4, c5⟩ := const_fin fw
  obtain ⟨h1, -, h3, h4, h5⟩ := power_consts fw
  have e1 : fmul fw (toneK1 fw) (.fin false p) = .fin false (roundMag fw (magOf (toneK1 fw) * p) (unitExp fw)) := by
    rw [c4]; exact round_fin (Nat.mul_le_mul_left _ hhi) h3
  have hgt : magOf (toneK2 fw) < roundMag fw (magOf (toneK1 fw) * p) (unitExp fw) := lt_of_lt_of_le h1 (roundMag_mono fw _ (Nat.mul_le_mul_left _ hlo))
  have e2 : fsub fw (.fin false (roundMag fw (magOf (toneK1 fw) * p) (unitExp fw))) (toneK2 fw) = .fin false (powerMag fw p) := by
    rw [c5]
    simp only [fsub, Datum.neg, fadd, Bool.not_false, Bool.false_eq_true, if_false, if_pos hgt]
    refine round_fin (num' := roundMag fw (magOf (toneK1 fw) * 2 ^ unitExp fw) (unitExp fw) - magOf (toneK2 fw)) (Nat.sub_le_sub_right (roundMag_mono fw _ (Nat.mul_le_mul_left _ hhi)) _) ?_
    show powerMag fw (2 ^ unitExp fw) < _
    rw [h4]; exact h5
  unfold powerTail
  rw [e1, e2]
  exact scaleTrunc_eq (le_trans (powerMag_mono fw hhi) h4.le)
/-- The integer of a non-negative sample, as a natural. -/
def toneNat (fw : FloatWidth) (x : Nat) : Nat :=
  if x ≤ magOf (toneStart fw) then scaleMag fw (linearMag fw x) / 2 ^ unitExp fw
  else scaleMag fw (powerMag fw (pow fw (min x (2 ^ unitExp fw)))) / 2 ^ unitExp fw
theorem start_lt_one (fw : FloatWidth) : magOf (toneStart fw) < 2 ^ unitExp fw := by cases fw <;> decide +kernel
theorem start_low (fw : FloatWidth) : 2 ^ (unitExp fw - 6) ≤ magOf (toneStart fw) := by cases fw <;> decide +kernel
theorem toneInt_eq (fw : FloatWidth) (x : Nat) : toneInt fw (toneClamp fw (.fin false x)) = some ((toneNat fw x : Nat) : Int) := by
  have hs := start_lt_one fw
  obtain ⟨-, -, -, hst⟩ := linear_start fw
  have hcl : toneClamp fw (.fin false x) = .fin false (min x (2 ^ unitExp fw)) := by
    unfold toneClamp
    rw [oneMag]
    simp only [fgt, signedUnits, Bool.false_eq_true, if_false, decide_eq_true_eq]
    split
    · rename_i h
      rw [Nat.min_eq_right]
      exact_mod_cast h.le
    · rename_i h
      rw [Nat.min_eq_left]
      rw [not_lt] at h; exact_mod_cast h
  rw [hcl]
  unfold toneInt toneNat
  have hle : fle (.fin false (min x (2 ^ unitExp fw))) (toneStart fw) = decide (x ≤ magOf (toneStart fw)) := by
    rw [hst]
    rw [show magOf (.fin false (magOf (toneStart fw))) = magOf (toneStart fw) from rfl]
    simp only [fle, signedUnits, Bool.false_eq_true, if_false]
    congr 1
    rw [Nat.cast_le, eq_iff_iff]; generalize magOf (toneStart fw) = z at *; generalize 2 ^ unitExp fw = o at *; omega
  rw [hle]
  by_cases h : x ≤ magOf (toneStart fw)
  · rw [if_pos h, if_pos (by simpa using h)]
    rw [Nat.min_eq_left (by omega)]
    exact linear_eq h
  · rw [if_neg h, if_neg (by simpa using h)]
    dsimp only
    rw [powerBranch_eq]
    have hmin : magOf (toneStart fw) ≤ min x (2 ^ unitExp fw) := by generalize 2 ^ unitExp fw = o at *; omega
    refine power_eq ?_ ?_
    · exact le_trans (end_le_pow fw _) (pow_nonDecreasing fw (start_low fw) hmin)
    · rw [← pow_toneOne fw]; rw [pow_toneOne fw]
      have := pow_nonDecreasing fw (le_trans (start_low fw) hmin) (Nat.min_le_right x (2 ^ unitExp fw))
      rw [pow_toneOne] at this; exact this
end Sys2Proof.Machine
end

