-- ==== Sys2Proof/Tests/Slice0.lean ====
section
/-! SUPPORT. Tests of one step each, with expected results from 95_test_vectors.md and the worked examples of the
rules, and a witness for the hypotheses of every statement. -/

namespace Sys2Proof.Tests.Slice0

set_option Elab.async false

open Sys2Proof Sys2Proof.Machine

/-! ### WellFormed and decoding -/

theorem smoke_type_of_five_bits_refused : (Instr.rejectNull 16 0 false).wellFormed = false := by decide
theorem smoke_depth_of_nine_bits_refused : (Instr.rejectNull 1 256 false).wellFormed = false := by decide
theorem smoke_rgb16_depth_refused : (Instr.truncRgb16 256 false).wellFormed = false := by decide
theorem smoke_rgba16_depth_refused : (Instr.truncRgba16 256 false).wellFormed = false := by decide
theorem smoke_rgbf_depth_refused : (Instr.toneRgbf 256 false).wellFormed = false := by decide
theorem smoke_rgbaf_depth_refused : (Instr.toneRgbaf 256 false).wellFormed = false := by decide
theorem smoke_start_of_32_bits_refused : (Instr.start 2147483648).wellFormed = false := by decide
theorem smoke_largest_fields_accepted :
    (Instr.rejectNull 15 255 true).wellFormed = true ∧ (Instr.start 2147483647).wellFormed = true := by decide

/-- 95_test_vectors.md F1, F2. -/
theorem test_decode_rejectNull : decode .dispatch 0x00000000 = .ok (.rejectNull 0 0 false) ∧
    decode .dispatch 0x00000810 = .ok (.rejectNull 1 8 false) := by decide
/-- F3 to F5, palette family. -/
theorem test_decode_palette : decode .dispatch 0x00000111 = .ok (.unpack1 false) ∧
    decode .dispatch 0x00000411 = .ok (.unpack4 false) ∧
    decode .dispatch 0x00010811 = .ok (.unpack8 true) := by decide
/-- F6, F7, packed 16-bit family. -/
theorem test_decode_packed16 : decode .dispatch 0x00001011 = .ok .unpack555 ∧
    decode .dispatch 0x00011011 = .ok .unpack565 := by decide
/-- F8, dispatcher family. -/
theorem test_decode_clone24 : decode .dispatch 0x00001811 = .ok (.clone24 false) := by decide
/-- F9 to F13, direct family. -/
theorem test_decode_direct : decode .dispatch 0x00002011 = .ok (.copy32 false) ∧
    decode .dispatch 0x00003021 = .ok (.truncRgb16 48 false) ∧
    decode .dispatch 0x00000031 = .ok (.truncRgba16 0 false) := by decide
/-- F14, tone-mapper family. -/
theorem test_decode_tone : decode .dispatch 0x00000041 = .ok (.toneRgbf 0 false) ∧
    decode .dispatch 0x00000051 = .ok (.toneRgbaf 0 false) := by decide
/-- 10_state.md R21: bit 0 of the CTRL data. -/
theorem test_decode_start : decode .ctrl 0x00000001 = .ok (.start 0) ∧ decode .ctrl 0xFFFFFFFF = .ok (.start 2147483647) ∧
    decode .ctrl 0xFFFFFFFE = .error .noStart := by decide
/-- 30_encoding.md R116, R117, at the ends of each range. -/
theorem test_decode_reserved : decode .dispatch 0x00000001 = .error .unsupportedType ∧
    decode .dispatch 0x00000061 = .error .unsupportedType ∧ decode .dispatch 0x000000F1 = .error .unsupportedType ∧
    decode .dispatch 0x00000011 = .error .unsupportedDepth ∧ decode .dispatch 0x00000211 = .error .unsupportedDepth ∧
    decode .dispatch 0x0000FF11 = .error .unsupportedDepth := by decide
/-- Table words of a dispatch row and of START. -/
theorem test_table_words : decodeTableWord 32 0x00000111 = some (.unpack1 false) ∧
    decodeTableWord 32 0x00000001 = some (.start 0) ∧ decodeTableWord 32 0x00000211 = some (.start 264) := by decide

/-! ### Small states -/

/-- Bytes placed from an address up. -/
def place (a : Nat) : List Nat → Memory → Memory
  | [], m => m
  | b :: rest, m => place (a + 1) rest (m.put a (BitVec.ofNat 8 b))

/-- A 2 x 2 source at 0x100 with rows of 32 bytes. -/
def smallSrc (fmt : Word) : SrcRegs := ⟨fmt, 7, 2, 2, 32, 0x100, 0, 0, 0, 4⟩

/-- A destination at 0x200 with rows of 8 bytes. -/
def smallDst : DstRegs := ⟨0, 9, 2, 2, 8, 0x200, 0x00FF0000, 0x0000FF00, 0x000000FF⟩

/-- The palette of 95_test_vectors.md family A. -/
def smallPalette : Palette := [(0, 0x000000), (1, 0xFF8040), (3, 0x112233), (10, 0x0A0B0C), (255, 0xFFFFFF)]

/-- A run in a phase before CONVERT. -/
def inPhase (p : Phase) (fmt : Word) (req : Option SvcRequest) : State :=
  { State.reset with status := ⟨true, false, false, .none, p⟩, src := smallSrc fmt, svcOut := req }

/-- A conversion at (0,0) of the given bytes. -/
def conv (op : Op) (fmt : Word) (bytes : List Nat) : State :=
  { State.reset with
    status := ⟨true, false, false, .none, .convert⟩
    src := smallSrc fmt
    dst := smallDst
    op := some op
    palette := smallPalette
    mem := place 0x100 bytes [] }

/-- The first three bytes of the destination after a step. -/
def outBytes (r : Result) : Option (List Nat) :=
  match r with
  | .next t => some ((List.range 3).map (fun k => (t.mem.get (0x200 + k)).toNat))
  | .fault _ => none
  | .refused _ => none

/-- STATUS after a step. -/
def statusAfter (r : Result) : Option Nat :=
  match r with
  | .next t => some t.status.word.toNat
  | .fault _ => none
  | .refused _ => none

/-- The value a host read returned. -/
def readAfter (r : Result) : Option Word :=
  match r with
  | .next t => t.rdData
  | .fault _ => none
  | .refused _ => none

/-! ### One step of each instruction -/

/-- S2, A10: a set bit 7 selects entry 1, (255,128,64); bytes under LAYOUT_BGR. -/
theorem test_unpack1 : outBytes (exec (.unpack1 false) (conv .unpack1 0x111 [0x80])) = some [0x40, 0x80, 0xFF] := by
  decide
/-- A6, A11: the high nibble 3 selects (17,34,51). -/
theorem test_unpack4 : outBytes (exec (.unpack4 false) (conv .unpack4 0x411 [0x3A])) = some [0x33, 0x22, 0x11] := by
  decide
/-- A14, R256: index 10 at length 4 fails: FREE_WAIT, STATUS.PHASE = 7, BUSY. -/
theorem test_unpack4_guard : statusAfter (exec (.unpack4 false) { conv .unpack4 0x411 [0x3A] with seqCol := 1 }) =
    some 0x701 := by decide
/-- A9, A13 with a palette length of 256 (A18: 511 acts as 256). -/
theorem test_unpack8 : outBytes (exec (.unpack8 false)
    { conv .unpack8 0x811 [0xFF] with src := { smallSrc 0x811 with palLen := 511 } }) = some [255, 255, 255] := by
  decide
/-- A15: an index equal to the length is out of range. -/
theorem test_unpack8_guard : statusAfter (exec (.unpack8 false) (conv .unpack8 0x811 [4])) = some 0x701 := by decide
/-- B10: 0x1234 as 5-5-5 is (32,139,164). -/
theorem test_unpack555 : outBytes (exec .unpack555 (conv .unpack555 0x1011 [0x34, 0x12])) = some [164, 139, 32] := by
  decide
/-- B4: the unused bit is ignored. -/
theorem test_unpack555_bit15 : outBytes (exec .unpack555 (conv .unpack555 0x1011 [0x00, 0x80])) = some [0, 0, 0] := by
  decide
/-- B10: 0x1234 as 5-6-5 is (16,68,164). -/
theorem test_unpack565 : outBytes (exec .unpack565 (conv .unpack565 0x1011 [0x34, 0x12])) = some [164, 68, 16] := by
  decide
/-- S5, C1: alpha is discarded. -/
theorem test_copy32 : outBytes (exec (.copy32 false) (conv .copy32 0x2011 [0x1E, 0x14, 0x0A, 0xC8])) =
    some [0x1E, 0x14, 0x0A] := by decide
/-- C5: high bytes (18,0,255). -/
theorem test_truncRgb16 : outBytes (exec (.truncRgb16 0 false) (conv .truncRgb16 0x21
    [0x34, 0x12, 0xFF, 0x00, 0x00, 0xFF])) = some [255, 0, 18] := by decide
/-- C7: (18,86,154). -/
theorem test_truncRgba16 : outBytes (exec (.truncRgba16 0 false) (conv .truncRgba16 0x31
    [0x34, 0x12, 0x78, 0x56, 0xBC, 0x9A, 0xFF, 0xFF])) = some [154, 86, 18] := by decide
/-- 44_hdr_tonemapper.md R211's example: samples 1.5, 0.018, 0.0 give (255,21,0). -/
theorem test_toneRgbf : outBytes (exec (.toneRgbf 0 false) (conv .toneRgbf 0x41
    [0x00, 0x00, 0xC0, 0x3F, 0xBC, 0x74, 0x93, 0x3C, 0x00, 0x00, 0x00, 0x00])) = some [0, 21, 255] := by
  decide +kernel
/-- 44_hdr_tonemapper.md R212's example: samples 0.5, 0.25, 1.0, alpha 0.0 give (186,134,255). -/
theorem test_toneRgbaf : outBytes (exec (.toneRgbaf 0 false) (conv .toneRgbaf 0x51
    [0x00, 0x00, 0x00, 0x3F, 0x00, 0x00, 0x80, 0x3E, 0x00, 0x00, 0x80, 0x3F, 0, 0, 0, 0])) = some [255, 134, 186] := by
  decide +kernel
/-- 45_dispatcher_sequencer.md R231: STATUS reads 0x101 after START. -/
theorem test_start : statusAfter (exec (.start 0) State.reset) = some 0x101 := by decide
/-- 45_dispatcher_sequencer.md R233's example. -/
theorem test_rejectNull : statusAfter (step (inPhase .check 0x810 none)) = some 0x16 := by decide
/-- 45_dispatcher_sequencer.md R235: CLONE_WAIT. -/
theorem test_clone24 : statusAfter (step (inPhase .check 0x1811 none)) = some 0x201 := by decide
/-- R234's example. -/
theorem test_unsupported_type : statusAfter (step (inPhase .check 0x61 none)) = some 0x26 := by decide
/-- R253's example, at SELECT: FREE_WAIT. -/
theorem test_unsupported_depth : statusAfter (step (inPhase .select 0x211 none)) = some 0x701 := by decide

/-! ### The tone-mapper's arithmetic -/

/-- Family D: linear, jump, power, clamp, negative (D6, D7, D13, D17, D22). -/
theorem test_tone_single : [0x3C9374BC, 0x3C9374BD, 0x3F000000, 0x3FC00000, 0xBC23D70A].map
    (fun b => (tone ⟨.bgr, .w32, .wrap⟩ 0 (Datum.ofBits .w32 b)).toNat) = [21, 29, 186, 255, 246] := by decide +kernel
/-- Family D for FW = 64. -/
theorem test_tone_double : [0x3F926E978D4FDF3B, 0x3F926E978D4FDF3C, 0x3FE0000000000000, 0xBF847AE147AE147B].map
    (fun b => (tone ⟨.bgr, .w64, .wrap⟩ 0 (Datum.ofBits .w64 b)).toNat) = [21, 29, 186, 246] := by decide +kernel
/-- `gammaNum` and `gammaBits` are the encodings of GI (44_hdr_tonemapper.md R201). -/
theorem test_gamma_encoding :
    Datum.ofBits .w32 0x3ED1743F = .fin false (gammaNum .w32 * 2 ^ (unitExp .w32 - gammaBits .w32)) ∧
    Datum.ofBits .w64 0x3FDA2E87D2C7B891 = .fin false (gammaNum .w64 * 2 ^ (unitExp .w64 - gammaBits .w64)) := by
  decide +kernel

/-! ### Moves -/

/-- 10_state.md R45: bits 31:24 of an entry word are ignored and read 0. -/
theorem test_palette_write : readAfter (match step { State.reset with moves := [.wr 0x428 0xAB0A0B0C, .rd 0x428] } with
    | .next t => step t
    | r => r) = some 0x000A0B0C := by decide
/-- 45_dispatcher_sequencer.md R246: META_WAIT after a GRANT. -/
theorem test_alloc_grant : statusAfter (step { inPhase .allocWait 0x811 (some (.alloc 2 2 24 0 0 0)) with
    moves := [.ans (.grant 9 0x200 8)] }) = some 0x401 := by decide
/-- A GRANT with a pitch below `3 * width` is refused (93_implementation_defined.md U14). -/
theorem test_alloc_grant_narrow : step { inPhase .allocWait 0x811 (some (.alloc 2 2 24 0 0 0)) with
    moves := [.ans (.grant 9 0x200 5)] } = .refused .grantBreaksPromise := by rfl
/-- An empty block shares no byte with the source row around it, and is granted (45_dispatcher_sequencer.md R260). -/
theorem test_alloc_grant_empty : statusAfter (step { inPhase .allocWait 0x811 (some (.alloc 0 2 24 0 0 0)) with
    src := { smallSrc 0x811 with width := 0 }, moves := [.ans (.grant 9 0x110 0)] }) = some 0x401 := by decide
theorem test_clone_grant_empty : statusAfter (step { inPhase .cloneWait 0x1811 (some (.clone 7)) with
    src := { smallSrc 0x1811 with width := 0 }, moves := [.ans (.grant 9 0x110 0)] }) = some 2 := by decide
/-- S1: a granted CLONE duplicates the bytes and ends with STATUS 2. -/
theorem test_clone_grant : (fun r => (statusAfter r, outBytes r)) (step
    { inPhase .cloneWait 0x1811 (some (.clone 7)) with
      mem := place 0x100 [1, 2, 3, 4, 5, 6] [], moves := [.ans (.grant 9 0x200 8)] }) =
    (some 2, some [1, 2, 3]) := by decide

/-! ### A placed word is run by the next step -/

theorem test_placed_start : step (State.reset.withFetchWord 32 0x00000001) =
    exec (.start 0) State.reset := by rfl
theorem test_placed_unpack565 : statusAfter (step (State.reset.withFetchWord 32 0x00011011)) = some 0x301 := by decide

/-! ### Witnesses: the hypotheses of each statement met by concrete states, clause by clause -/

/-- `inPhase` with moves. -/
def phaseMoves (p : Phase) (fmt : Word) (req : Option SvcRequest) (ms : List Move) : State :=
  { inPhase p fmt req with moves := ms }

/-- The reset state with moves. -/
def idleMoves (ms : List Move) : State := { State.reset with moves := ms }

theorem coreNext_nil (p : Phase) (fmt : Word) (req : Option SvcRequest) : CoreNext (inPhase p fmt req) [] :=
  .inr ⟨rfl, rfl⟩

theorem coreNext_cons (p : Phase) (fmt : Word) (req : Option SvcRequest) (rest : List Move) :
    CoreNext (phaseMoves p fmt req (.core :: rest)) rest := .inl rfl

theorem witness_DecodeInvertsEncode : (Instr.rejectNull 15 255 true).wellFormed = true ∧
    (Instr.unpack1 true).wellFormed = true ∧ (Instr.unpack4 false).wellFormed = true ∧
    (Instr.unpack8 true).wellFormed = true ∧ Instr.unpack555.wellFormed = true ∧
    Instr.unpack565.wellFormed = true ∧ (Instr.clone24 true).wellFormed = true ∧
    (Instr.copy32 false).wellFormed = true ∧ (Instr.truncRgb16 255 true).wellFormed = true ∧
    (Instr.truncRgba16 0 false).wellFormed = true ∧ (Instr.toneRgbf 255 true).wellFormed = true ∧
    (Instr.toneRgbaf 1 false).wellFormed = true ∧ (Instr.start 0).wellFormed = true := by decide

theorem witness_ReservedDispatchWordsAreRejectedByName :
    ((0x00000061 : Word).toNat % 2 = 1 ∧ (0x00000061 : Word).toNat / 16 % 16 ∉ [1, 2, 3, 4, 5]) ∧
    ((0x00001911 : Word).toNat % 2 = 1 ∧ (0x00001911 : Word).toNat / 16 % 16 = 1 ∧
      (0x00001911 : Word).toNat / 256 % 256 ∉ [1, 4, 8, 16, 24, 32]) := by decide

/-- A source with the 5-6-5 constants, and one whose red mask has bit 16 set besides. -/
def maskedSrc (r : Word) : State :=
  { State.reset with src := { smallSrc 0x1011 with rmask := r, gmask := 0x07E0, bmask := 0x001F } }

theorem witness_DispatchWordComesFromTheDescriptor :
    ((maskedSrc 0xF800).src.rmask = 0x0000F800 ∧ (maskedSrc 0xF800).src.gmask = 0x000007E0 ∧
      (maskedSrc 0xF800).src.bmask = 0x0000001F ∧ dispatchWord (maskedSrc 0xF800) = 0x00011011) ∧
    (¬((maskedSrc 0x1F800).src.rmask = 0x0000F800 ∧ (maskedSrc 0x1F800).src.gmask = 0x000007E0 ∧
      (maskedSrc 0x1F800).src.bmask = 0x0000001F) ∧ dispatchWord (maskedSrc 0x1F800) = 0x00001011) := by decide

theorem witness_CoreMoveRunsTheDispatchedInstruction :
    (CoreNext (inPhase .check 0x111 none) [] ∧ (inPhase .check 0x111 none).status.phase = .check ∧
      decode .dispatch (dispatchWord (inPhase .check 0x111 none)) = .ok (.unpack1 false)) ∧
    (CoreNext (phaseMoves .select 0x811 none [.core, .rd 4]) [.rd 4] ∧
      (phaseMoves .select 0x811 none [.core, .rd 4]).status.phase = .select ∧
      decode .dispatch (dispatchWord (phaseMoves .select 0x811 none [.core, .rd 4])) = .ok (.unpack8 false)) :=
  ⟨⟨coreNext_nil _ _ _, rfl, by decide⟩, coreNext_cons _ _ _ _, rfl, by decide⟩

theorem witness_CoreMoveInConvertRunsTheSelectedOperation :
    CoreNext (conv .copy32 0x2011 [1, 2, 3]) [] ∧ (conv .copy32 0x2011 [1, 2, 3]).status.phase = .convert ∧
    (conv .copy32 0x2011 [1, 2, 3]).op = some .copy32 := ⟨.inr ⟨rfl, rfl⟩, rfl, rfl⟩

theorem witness_PlacedWordIsRunByTheNextStep : decodeTableWord 32 0x00000000 = some (.rejectNull 0 0 false) ∧
    decodeTableWord 32 0x00011011 = some .unpack565 ∧ decodeTableWord 32 0x0000FF51 = some (.toneRgbaf 255 false) ∧
    decodeTableWord 8 0x00000001 = some (.start 0) := by decide

theorem witness_StartBeginsARunOnlyInIdle :
    State.reset.status.phase = .idle ∧ (inPhase .allocWait 0x111 none).status.phase ≠ .idle ∧
    ((idleMoves [.wr 0x000 0xFFFFFFFF]).moves = .wr 0x000 0xFFFFFFFF :: [] ∧ (0xFFFFFFFF : Word).toNat % 2 = 1) ∧
    ((idleMoves [.wr 0x000 0xFFFFFFFE]).moves = .wr 0x000 0xFFFFFFFE :: [] ∧ (0xFFFFFFFE : Word).toNat % 2 = 0) := by
  decide

theorem witness_RejectNullEndsTheRunAtCheck :
    CoreNext (inPhase .check 0x1810 none) [] ∧ (inPhase .check 0x1810 none).status.phase = .check ∧
    (inPhase .check 0x1810 none).src.fmt.toNat % 2 = 0 := ⟨coreNext_nil _ _ _, rfl, by decide⟩

theorem witness_UnsupportedTagEndsTheRunAtCheck :
    CoreNext (inPhase .check 0x61 none) [] ∧ (inPhase .check 0x61 none).status.phase = .check ∧
    (inPhase .check 0x61 none).src.fmt.toNat % 2 = 1 ∧
    (inPhase .check 0x61 none).src.fmt.toNat / 16 % 16 ∉ [1, 2, 3, 4, 5] :=
  ⟨coreNext_nil _ _ _, rfl, by decide⟩

theorem witness_Clone24RequestsADuplicate :
    CoreNext (inPhase .check 0x1811 none) [] ∧ (inPhase .check 0x1811 none).status.phase = .check ∧
    (inPhase .check 0x1811 none).src.fmt.toNat % 2 = 1 ∧ (inPhase .check 0x1811 none).src.fmt.toNat / 16 % 16 = 1 ∧
    (inPhase .check 0x1811 none).src.fmt.toNat / 256 % 256 = 24 := ⟨coreNext_nil _ _ _, rfl, by decide⟩

/-- A word that selects an operation and one of an unsupported depth. -/
theorem witness_CheckRequestsTheAllocation : ∀ fmt : Word, fmt ∈ [(0x1051 : Word), 0x1911] →
    CoreNext (inPhase .check fmt none) [] ∧ (inPhase .check fmt none).status.phase = .check ∧
    (inPhase .check fmt none).src.fmt.toNat % 2 = 1 ∧
    (inPhase .check fmt none).src.fmt.toNat / 16 % 16 ∈ [1, 2, 3, 4, 5] ∧
    ¬((inPhase .check fmt none).src.fmt.toNat / 16 % 16 = 1 ∧
      (inPhase .check fmt none).src.fmt.toNat / 256 % 256 = 24) := by
  intro fmt h
  refine ⟨coreNext_nil _ _ _, rfl, ?_⟩
  simp only [List.mem_cons, List.not_mem_nil, or_false] at h
  rcases h with rfl | rfl <;> decide

theorem witness_SelectStoresTheOperation : convertingOp .unpack555 = some .unpack555 ∧
    (inPhase .select 0x1011 none).status.phase = .select ∧ CoreNext (inPhase .select 0x1011 none) [] ∧
    decode .dispatch (dispatchWord (inPhase .select 0x1011 none)) = .ok .unpack555 :=
  ⟨rfl, rfl, coreNext_nil _ _ _, by decide⟩

theorem witness_SelectWithoutMatchReleasesTheDestination : CoreNext (inPhase .select 0x2111 none) [] ∧
    (inPhase .select 0x2111 none).status.phase = .select ∧ (inPhase .select 0x2111 none).src.fmt.toNat % 2 = 1 ∧
    (inPhase .select 0x2111 none).src.fmt.toNat / 16 % 16 = 1 ∧
    (inPhase .select 0x2111 none).src.fmt.toNat / 256 % 256 ∉ [1, 4, 8, 16, 24, 32] :=
  ⟨coreNext_nil _ _ _, rfl, by decide⟩

/-- A conversion at a given position. -/
def convAt (op : Op) (fmt : Word) (bytes : List Nat) (row col : Word) : State :=
  { conv op fmt bytes with seqRow := row, seqCol := col }

theorem witness_RowEndGoesToTheNextRow : (convertingOp .unpack565).isSome = true ∧
    (convAt .unpack565 0x1011 [] 1 2).status.phase = .convert ∧
    (convAt .unpack565 0x1011 [] 1 2).seqRow.toNat < (convAt .unpack565 0x1011 [] 1 2).src.height.toNat ∧
    (convAt .unpack565 0x1011 [] 1 2).seqCol = (convAt .unpack565 0x1011 [] 1 2).src.width := by decide

theorem witness_LastRowEndsTheRunWithAResult : (convertingOp .unpack565).isSome = true ∧
    (convAt .unpack565 0x1011 [] 2 0).status.phase = .convert ∧
    (convAt .unpack565 0x1011 [] 2 0).seqRow = (convAt .unpack565 0x1011 [] 2 0).src.height := by decide

theorem witness_CoreTakesNoStepWhileItWaits : ∀ p, p ∈ [Phase.idle, .cloneWait, .allocWait, .metaWait, .freeWait] →
    CoreNext (phaseMoves p 0x811 none [.core]) [] ∧ (∀ n, Instr.unpack8 false ≠ .start n) ∧
    (phaseMoves p 0x811 none [.core]).status.phase ∈ [Phase.idle, .cloneWait, .allocWait, .metaWait, .freeWait] :=
  fun _ h => ⟨coreNext_cons _ _ _ _, (by intro n e; cases e), h⟩

theorem small_at (op : Op) (fmt : Word) (bytes : List Nat) : AtPixel (convAt op fmt bytes 1 1) :=
  ⟨rfl, by show (1 : Word).toNat < (2 : Word).toNat; decide, by show (1 : Word).toNat < (2 : Word).toNat; decide⟩

/-- The last pixel of a 2 x 2 conversion: the hypotheses common to Unpack1, Unpack4, Unpack8, Unpack555, Unpack565,
Copy32, Trunc16 and ToneConvertsOnePixel. -/
theorem witness_ConvertsOnePixel (op : Op) (fmt : Word) : AtPixel (convAt op fmt [0x80] 1 1) ∧
    (convAt op fmt [0x80] 1 1).mem.wf = true ∧ outputInside (convAt op fmt [0x80] 1 1) ∧
    ∀ k, k < 1000 → sourceInside (convAt op fmt [0x80] 1 1) 1 k := by
  refine ⟨small_at _ _ _, ?_, ?_, fun k hk => ?_⟩
  · show (place 0x100 [0x80] []).wf = true; decide
  · show 0x200 + 1 * 8 + (3 * 1 + 2) < 4294967296; decide
  · show 0x100 + 1 * 32 + k < 4294967296; omega

/-- Both sides of the guard, at PLEN - 1 and PLEN, for each operation, and the two nibbles of UNPACK4. -/
theorem witness_IndexedPixels :
    (let s := convAt .unpack1 0x111 [0x80] 0 0
     (sourceByte s 0 0).toNat / 2 ^ (7 - 0 % 8) % 2 < min (s.src.palLen.toNat % 512) 256) ∧
    (let s := { convAt .unpack1 0x111 [0x80] 0 0 with src := { smallSrc 0x111 with palLen := 1 } }
     (sourceByte s 0 0).toNat / 2 ^ (7 - 0 % 8) % 2 = 1 ∧ min (s.src.palLen.toNat % 512) 256 = 1) ∧
    (let s := convAt .unpack4 0x411 [0x34] 0 0
     (sourceByte s 0 0).toNat / 16 = 3 ∧ 3 < min (s.src.palLen.toNat % 512) 256 ∧ s.seqCol.toNat % 2 = 0) ∧
    (let s := convAt .unpack4 0x411 [0x34] 0 1
     (sourceByte s 0 0).toNat % 16 = 4 ∧ min (s.src.palLen.toNat % 512) 256 ≤ 4 ∧ s.seqCol.toNat % 2 = 1) ∧
    (let s := convAt .unpack8 0x811 [3, 4] 0 0
     (sourceByte s 0 0).toNat < min (s.src.palLen.toNat % 512) 256 ∧
     min (s.src.palLen.toNat % 512) 256 ≤ (sourceByte s 0 1).toNat) := by decide

/-- A conversion of the given source bytes to the given destination base. -/
def topConv (op : Op) (fmt : Word) (bytes : List Nat) (base : Word) : State :=
  { conv op fmt bytes with dst := { smallDst with base := base } }

/-- A conversion from the given source base. -/
def lateSource (base : Word) : State :=
  { conv .copy32 0x2011 [1, 2, 3] with src := { smallSrc 0x2011 with base := base } }

theorem topConv_at (op : Op) (fmt : Word) (bytes : List Nat) (base : Word) : AtPixel (topConv op fmt bytes base) :=
  ⟨rfl, by show (0 : Word).toNat < (2 : Word).toNat; decide, by show (0 : Word).toNat < (2 : Word).toNat; decide⟩

/-- A source pixel ending at 2^32 and one below, an output pixel ending at 2^32 and one below, and there both an index
at PLEN and one below it. -/
theorem witness_PixelOutsideMemoryIsNotWritten :
    (AtPixel (lateSource 0xFFFFFFFE) ∧ ¬ sourceInside (lateSource 0xFFFFFFFE) 0 (lastByte .w32 .copy32 0) ∧
      sourceInside (lateSource 0xFFFFFFFD) 0 (lastByte .w32 .copy32 0)) ∧
    (AtPixel (topConv .copy32 0x2011 [1, 2, 3] 0xFFFFFFFE) ∧
      sourceInside (topConv .copy32 0x2011 [1, 2, 3] 0xFFFFFFFE) 0 (lastByte .w32 .copy32 0) ∧
      ¬ outputInside (topConv .copy32 0x2011 [1, 2, 3] 0xFFFFFFFE) ∧
      outputInside (topConv .copy32 0x2011 [1, 2, 3] 0xFFFFFFFD)) ∧
    ∀ idx : Nat, idx ∈ [3, 4] → AtPixel (topConv .unpack8 0x811 [idx] 0xFFFFFFFE) ∧
      sourceInside (topConv .unpack8 0x811 [idx] 0xFFFFFFFE) 0 (lastByte .w32 .unpack8 0) ∧
      ¬ outputInside (topConv .unpack8 0x811 [idx] 0xFFFFFFFE) ∧
      (min ((topConv .unpack8 0x811 [idx] 0xFFFFFFFE).src.palLen.toNat % 512) 256 ≤
        pixelIndex .unpack8 (topConv .unpack8 0x811 [idx] 0xFFFFFFFE) 0 0 ↔ idx = 4) := by
  refine ⟨⟨⟨rfl, by decide, by decide⟩, ?_, ?_⟩, ⟨topConv_at _ _ _ _, ?_, ?_, ?_⟩, fun idx h =>
    ⟨topConv_at _ _ _ _, ?_, ?_, ?_⟩⟩
  · show ¬ 0xFFFFFFFE + 0 * 32 + (4 * 0 + 2) < 4294967296; decide
  · show 0xFFFFFFFD + 0 * 32 + (4 * 0 + 2) < 4294967296; decide
  · show 0x100 + 0 * 32 + (4 * 0 + 2) < 4294967296; decide
  · show ¬ 0xFFFFFFFE + 0 * 8 + (3 * 0 + 2) < 4294967296; decide
  · show 0xFFFFFFFD + 0 * 8 + (3 * 0 + 2) < 4294967296; decide
  · show 0x100 + 0 * 32 + 0 < 4294967296; decide
  · show ¬ 0xFFFFFFFE + 0 * 8 + (3 * 0 + 2) < 4294967296; decide
  · simp only [List.mem_cons, List.not_mem_nil, or_false] at h
    rcases h with rfl | rfl <;> decide

/-- One converting operation and the three other instructions. -/
theorem witness_OnlyIndexedOperationsReadThePalette :
    (∀ i ∈ [Instr.unpack565, .clone24 false, .rejectNull 1 8 false, .start 0],
      convertingOp i ∉ [some Op.unpack1, some .unpack4, some .unpack8]) ∧
    (∃ t, exec .unpack565 (conv .unpack565 0x1011 [0x34, 0x12]) = .next t) ∧
    (∃ t, exec (.clone24 false) (inPhase .check 0x1811 none) = .next t) ∧
    (∃ t, exec (.rejectNull 1 8 false) (inPhase .check 0x810 none) = .next t) ∧
    ∃ t, exec (.start 0) State.reset = .next t := ⟨by decide, ⟨_, rfl⟩, ⟨_, rfl⟩, ⟨_, rfl⟩, _, rfl⟩

/-- The ALLOC request of a 2 x 2 source. -/
def smallAlloc : SvcRequest := .alloc 2 2 24 0x00FF0000 0x0000FF00 0x000000FF

theorem small_promised (p : Phase) (fmt : Word) (req : Option SvcRequest) (ms : List Move) (fmtIs : fmt = 0x811 ∨ fmt = 0x1811) :
    Promised (phaseMoves p fmt req ms) 0x200 6 := by
  refine ⟨by show 3 * 2 ≤ 6; decide, by show 0x200 + 2 * 6 ≤ 4294967296; decide, ?_⟩
  rintro a ⟨-, y, k, hy, hk, e⟩ ⟨ha, -⟩
  have hy' : y < 2 := hy
  have hr : rowBytes (phaseMoves p fmt req ms) ≤ 32 := by
    have e : rowBytes (phaseMoves p fmt req ms) = rowBytes (inPhase .check fmt none) := rfl
    rw [e]; rcases fmtIs with e | e <;> subst e <;> decide
  have hk' : k < 32 ∨ k < rowBytes (phaseMoves p fmt req ms) := hk
  have e' : a = 0x100 + y * 32 + k := e
  have ha' : 0x200 ≤ a := ha
  omega

/-- A source without columns, its padded rows at 0x100 and 0x120. -/
def emptyMoves (p : Phase) (fmt : Word) (req : Option SvcRequest) (ms : List Move) : State :=
  { phaseMoves p fmt req ms with src := { smallSrc fmt with width := 0 } }

/-- An empty block inside a source row keeps every promise (45_dispatcher_sequencer.md R260). -/
theorem empty_promised (p : Phase) (fmt : Word) (req : Option SvcRequest) (ms : List Move) :
    Promised (emptyMoves p fmt req ms) 0x110 0 := by
  refine ⟨by show 3 * 0 ≤ 0; decide, by show 0x110 + 2 * 0 ≤ 4294967296; decide, ?_⟩
  rintro a - ⟨h1, h2⟩
  have h1' : 0x110 ≤ a := h1
  have h2' : a < 0x110 + 2 * 0 := h2
  omega

/-- The same source, granted a row inside its own second row. -/
theorem overlap_not_promised (p : Phase) (fmt : Word) (req : Option SvcRequest) (ms : List Move) (hf : fmt.toNat % 2 = 1) :
    ¬ Promised (emptyMoves p fmt req ms) 0x12F 1 := fun h =>
  h.apart 0x12F ⟨hf, 1, 15, by show 1 < 2; decide, .inl (by show 15 < 32; decide), by show 0x12F = 0x100 + 1 * 32 + 15; decide⟩
    ⟨by decide, by show 0x12F < 0x12F + 2 * 1; decide⟩

theorem witness_AllocGrantHoldsTheDestination :
    let s := phaseMoves .allocWait 0x811 (some smallAlloc) [.ans (.grant 9 0x200 6)]
    s.moves = [.ans (.grant 9 0x200 6)] ∧ s.status.phase = .allocWait ∧ s.svcOut = some smallAlloc ∧
    Promised s 0x200 6 ∧ Promised (emptyMoves .allocWait 0x811 (some smallAlloc) [.ans (.grant 9 0x110 0)]) 0x110 0 :=
  ⟨rfl, rfl, rfl, small_promised _ _ _ _ (.inl rfl), empty_promised _ _ _ _⟩

theorem witness_DeniedRequestEndsTheRun :
    ((phaseMoves .allocWait 0x811 (some smallAlloc) [.ans .deny]).moves = [.ans .deny] ∧
      ∃ w ht d r g b, (phaseMoves .allocWait 0x811 (some smallAlloc) [.ans .deny]).svcOut = some (.alloc w ht d r g b)) ∧
    (phaseMoves .cloneWait 0x1811 (some (.clone 7)) [.ans .deny]).moves = [.ans .deny] ∧
      ∃ h, (phaseMoves .cloneWait 0x1811 (some (.clone 7)) [.ans .deny]).svcOut = some (.clone h) :=
  ⟨⟨rfl, _, _, _, _, _, _, rfl⟩, rfl, _, rfl⟩

theorem witness_CloneGrantDuplicatesTheSource :
    let s := phaseMoves .cloneWait 0x1811 (some (.clone 7)) [.ans (.grant 9 0x200 6)]
    s.moves = [.ans (.grant 9 0x200 6)] ∧ s.status.phase = .cloneWait ∧ s.svcOut = some (.clone 7) ∧
    Promised s 0x200 6 ∧ s.mem.wf = true ∧
    ∀ y k, y < s.src.height.toNat → k < 3 * s.src.width.toNat → sourceInside s y k := by
  refine ⟨rfl, rfl, rfl, small_promised _ _ _ _ (.inr rfl), rfl, fun y k hy hk => ?_⟩
  have hy' : y < 2 := hy
  have hk' : k < 6 := hk
  show 0x100 + y * 32 + k < 4294967296
  omega

/-- The held destination as the environment has it. -/
def smallBitmap : Bitmap := ⟨9, 1, 24, 2, 2, 0x200, 6, 0, 0, 0, 5⟩

/-- With the destination among the environment's bitmaps and without. -/
theorem witness_MetacopyGoesToSelect : ∀ bs, bs ∈ [[smallBitmap], []] →
    let s := { phaseMoves .metaWait 0x811 (some (.metacopy 9 7)) [.ans .ack] with bitmaps := bs }
    s.moves = [.ans .ack] ∧ s.status.phase = .metaWait ∧ s.svcOut = some (.metacopy 9 7) ∧
    (findBitmap s.bitmaps 9 = some smallBitmap ∨ findBitmap s.bitmaps 9 = none) := by decide

theorem witness_FreeCompletesThePendingFailure :
    let s := { phaseMoves .freeWait 0x811 (some (.free 9)) [.ans .ack] with pend := some .paletteIndex }
    s.moves = [.ans .ack] ∧ s.status.phase = .freeWait ∧ s.svcOut = some (.free 9) ∧
    s.pend = some .paletteIndex := by decide

theorem witness_UnfittingAnswerIsRefused :
    (¬ Promised (emptyMoves .allocWait 0x811 (some smallAlloc) [.ans (.grant 9 0x12F 1)]) 0x12F 1 ∧
      ∃ w ht d r g b, (emptyMoves .allocWait 0x811 (some smallAlloc) [.ans (.grant 9 0x12F 1)]).svcOut =
        some (.alloc w ht d r g b)) ∧
    (¬ Promised (emptyMoves .cloneWait 0x1811 (some (.clone 7)) [.ans (.grant 9 0x12F 1)]) 0x12F 1 ∧
      ∃ c, (emptyMoves .cloneWait 0x1811 (some (.clone 7)) [.ans (.grant 9 0x12F 1)]).svcOut = some (.clone c)) ∧
    ((phaseMoves .check 0x811 none [.ans .ack]).moves = [.ans .ack] ∧
      (phaseMoves .check 0x811 none [.ans .ack]).svcOut = none) ∧
    (∃ w ht d r g b, (phaseMoves .allocWait 0x811 (some smallAlloc) [.ans .ack]).svcOut = some (.alloc w ht d r g b)) ∧
    (∃ h, (phaseMoves .cloneWait 0x1811 (some (.clone 7)) [.ans .ack]).svcOut = some (.clone h)) ∧
    (Answer.deny ≠ .ack ∧
      ∃ d c, (phaseMoves .metaWait 0x811 (some (.metacopy 9 7)) [.ans .deny]).svcOut = some (.metacopy d c)) ∧
    (Answer.grant 1 2 3 ≠ .ack ∧
      ∃ d, (phaseMoves .freeWait 0x811 (some (.free 9)) [.ans (.grant 1 2 3)]).svcOut = some (.free d)) :=
  ⟨⟨overlap_not_promised _ _ _ _ (by decide), _, _, _, _, _, _, rfl⟩,
    ⟨overlap_not_promised _ _ _ _ (by decide), _, rfl⟩,
    ⟨rfl, rfl⟩, ⟨_, _, _, _, _, _, rfl⟩, ⟨_, rfl⟩, ⟨by decide, _, _, rfl⟩, by decide, _, rfl⟩

theorem witness_WritesWhileBusyAreIgnored : ∀ offset, offset ∈ [(4 : Nat), 0x008, 0x07C, 0x400, 0x7FC] →
    (phaseMoves .convert 0x811 none [.wr offset 5]).moves = [.wr offset 5] ∧
    (phaseMoves .convert 0x811 none [.wr offset 5]).status.busy = true ∧ offset ≠ 0 ∧ offset % 4 = 0 ∧
    offset ≤ 0x7FC := by decide

/-- Every register, and the two ends of the palette. -/
theorem witness_WrittenRegistersReadBack :
    (∀ offset, offset ∈ [(0x008 : Nat), 0x00C, 0x010, 0x014, 0x018, 0x01C, 0x020, 0x024, 0x028, 0x02C,
        0x400 + 4 * 0, 0x400 + 4 * 255] →
      (idleMoves [.wr offset 0xFFFFFFFF, .rd offset]).moves = [.wr offset 0xFFFFFFFF, .rd offset] ∧
      (idleMoves [.wr offset 0xFFFFFFFF, .rd offset]).status.busy = false) := by decide

/-- The first and the last register, and a written and an unwritten palette entry, in IDLE and while BUSY. -/
theorem witness_ReadsFollowTheRegisterMap :
    (∀ offset, offset ∈ [(0x000 : Nat), 0x074, 0x400 + 4 * 0, 0x400 + 4 * 254, 0x400 + 4 * 255] →
      (idleMoves [.rd offset]).moves = [.rd offset] ∧
      { conv .unpack8 0x811 [3] with moves := [.rd offset] }.moves = [.rd offset]) ∧
    (idleMoves [.rd 0x7FC]).palette.get? 255 = none ∧
    (conv .unpack8 0x811 [3]).palette.get? 254 = none ∧
    (conv .unpack8 0x811 [3]).palette.get? 255 = some 0xFFFFFF := by decide

/-- Both ends of each range, and no offset in two of them with different outcomes. -/
theorem witness_UnmappedAndReadOnlyOffsetsIgnoreWrites :
    (∀ offset, offset ∈ [(0x064 : Nat), 0x06C, 0x030, 0x03C, 0x078, 0x3FC] → offset % 4 = 0 ∧
      (offset ∈ [0x064, 0x068, 0x06C] ∨ (0x02C < offset ∧ offset < 0x040) ∨ (0x074 < offset ∧ offset < 0x400)) ∧
      (idleMoves [.wr offset 5]).moves = [.wr offset 5] ∧ (idleMoves [.rd offset]).moves = [.rd offset]) ∧
    (∀ offset, offset ∈ [(0x004 : Nat), 0x040, 0x060, 0x070, 0x074] → offset % 4 = 0 ∧
      (idleMoves [.wr offset 5]).moves = [.wr offset 5]) := by decide

theorem witness_AccessOutsideTheInterfaceIsRefused : ∀ offset, offset ∈ [(1 : Nat), 0x7FD, 0x800] →
    (offset % 4 ≠ 0 ∨ 0x7FC < offset) ∧ (idleMoves [.wr offset 5]).moves = [.wr offset 5] ∧
    (idleMoves [.rd offset]).moves = [.rd offset] := by decide

/-- A conversion of a supported or an unsupported depth with moves. -/
def convMoves (fmt : Word) (ms : List Move) : State := { conv .unpack8 fmt [3, 4] with moves := ms }

/-- The last padding byte of the second source row (rows of 32 bytes at 0x100 and 0x120), for a supported and an
unsupported depth, the last byte of the destination (16 bytes at 0x200), and the bytes behind each. -/
theorem witness_HostCannotTouchTheRowsOfARun :
    (∀ fmt : Word, fmt ∈ [(0x811 : Word), 0x1911] → (convMoves fmt [.memWr 0x13F 9]).moves = [.memWr 0x13F 9] ∧
      (convMoves fmt [.memWr 0x13F 9]).status.busy = true ∧ (convMoves fmt [.memWr 0x13F 9]).mem.wf = true ∧
      sourceRowByte (convMoves fmt [.memWr 0x13F 9]) 0x13F) ∧
    (¬ sourceRowByte (convMoves 0x811 [.memWr 0x140 9]) 0x140 ∧
      ¬ destRowByte (convMoves 0x811 [.memWr 0x140 9]) 0x140) ∧
    destRowByte (convMoves 0x811 [.memRd 0x20F]) 0x20F ∧ ¬ destRowByte (convMoves 0x811 [.memRd 0x210]) 0x210 ∧
    (convMoves 0x811 [.memRd 0x20F]).status.busy = true ∧
    (idleMoves [.memWr 4294967295 9]).status.busy = false ∧ (idleMoves [.memRd 0]).status.busy = false := by
  refine ⟨fun fmt h => ?_, ⟨?_, ?_⟩, ⟨1, 7, by decide, by decide, by decide⟩, ?_, rfl, rfl, rfl⟩
  · have hm : (place 0x100 [3, 4] []).wf = true := by decide
    simp only [List.mem_cons, List.not_mem_nil, or_false] at h
    rcases h with rfl | rfl <;> exact ⟨rfl, rfl, hm, by decide, 1, 31, by decide, .inl (by decide), by decide⟩
  · rintro ⟨-, y, k, hy, hk, e⟩
    have hy' : y < 2 := hy
    have hk' : k < 32 ∨ k < 2 := hk
    have e' : 0x140 = 0x100 + y * 32 + k := e
    omega
  · rintro ⟨y, k, -, -, e⟩
    have e' : 0x140 = 0x200 + y * 8 + k := e
    omega
  · rintro ⟨y, k, hy, hk, e⟩
    have hy' : y < 2 := hy
    have hk' : k < 8 := hk
    have e' : 0x210 = 0x200 + y * 8 + k := e
    omega

theorem witness_ResetClearsTheRegistersOnly :
    ((idleMoves [.reset, .core]).moves = [.reset, .core] ∧ (idleMoves [.reset, .core]).status.phase = .idle) ∧
    (phaseMoves .check 0x811 none [.reset]).moves = [.reset] ∧
    (phaseMoves .check 0x811 none [.reset]).status.phase ≠ .idle := by decide

/-! ### Witnesses: arithmetic -/

/-- A tie, 2^24 + 1 halves, that rounds to the even 2^23; the two sides of the overflow boundary, 2^278 - 2^253 and
one below; finite data whose sum is zero and whose sum is not. -/
theorem witness_RoundingIsToNearestTiesToEven : Datum.round .w32 false 16777217 1 = .fin false 8388608 ∧
    2 * (16777217 % 2 ^ droppedBits .w32 16777217 1) = 2 ^ droppedBits .w32 16777217 1 ∧
    2 ^ (precision .w32 + 1) * 16777217 < (2 ^ (precision .w32 + 1) - 1) * overflowMag .w32 * 2 ^ 1 ∧
    (2 ^ (precision .w32 + 1) - 1) * overflowMag .w32 * 2 ^ 0 ≤ 2 ^ (precision .w32 + 1) * (2 ^ 277 - 2 ^ 252) ∧
    2 ^ (precision .w32 + 1) * (2 ^ 277 - 2 ^ 252 - 1) < (2 ^ (precision .w32 + 1) - 1) * overflowMag .w32 * 2 ^ 0 ∧
    signedUnits false 3 + signedUnits true 3 = 0 ∧ signedUnits false 3 - signedUnits true 3 ≠ 0 := by decide +kernel

theorem representable_pow (fw : FloatWidth) (e : Nat) : Representable fw (2 ^ e) :=
  ⟨1, e, by cases fw <;> decide, (Nat.one_mul _).symm⟩

theorem witness_RescaleIsFloorDivision : (31 : Nat) < 32 ∧ (63 : Nat) < 64 ∧ (30 : Nat) < 31 := by decide

/-- The sample 0.5 and the sample 0x3E3C2015, whose power lies just above 1/2, for FW = 32. -/
theorem witness_PowIsOneOfTheTwoNearestToTheRealPower :
    (OnPowerBranch .w32 (2 ^ 148) ∧ Representable .w32 (2 ^ 148) ∧
      ∃ r : ℝ, r = (((2 ^ 148 : Nat) : ℝ) / 2 ^ unitExp .w32) ^ ((gammaNum .w32 : ℝ) / 2 ^ gammaBits .w32)) ∧
    OnPowerBranch .w32 (0xBC2015 * 2 ^ 123) ∧ Representable .w32 (0xBC2015 * 2 ^ 123) :=
  ⟨⟨by unfold OnPowerBranch; decide +kernel, representable_pow _ _, _, rfl⟩, by unfold OnPowerBranch; decide +kernel,
    _, _, by decide, rfl⟩

/-- Just above a power of two the two nearest values lie on both sides of it: `x^GI` is `1/2 + 4.5e-9` at the sample
0x3E3C2015, nearer to `1/2 - 2^-25` than to `1/2 + 2^-24` (44_hdr_tonemapper.md R203). -/
theorem test_pow_nearest_below_half : Datum.ofBits .w32 0x3E3C2015 = .fin false (0xBC2015 * 2 ^ 123) ∧
    powEnds .w32 (0xBC2015 * 2 ^ 123) = (2 ^ 148 - 2 ^ 124, 2 ^ 148) := by decide +kernel

/-- On the power branch the first sample above START, one at 0.5 and the sample 1, for both widths; on the linear
branch START itself, minus infinity, and a finite sample that overflows. -/
theorem witness_EachBranchFollowsItsFormula : OnPowerBranch .w32 (0x9374BD * 2 ^ 120) ∧ OnPowerBranch .w32 (2 ^ 149) ∧
    OnPowerBranch .w64 (2 ^ 1073) ∧ toneOne .w32 = .fin false (2 ^ 149) ∧
    fle (toneStart .w32) (toneStart .w32) = true ∧ fle (.inf true) (toneStart .w32) = true ∧
    (let v := Datum.ofBits .w32 0xFF7FFFFF
     fle v (toneStart .w32) = true ∧
     fadd .w32 (fmul .w32 (fmul .w32 v (toneSlope .w32)) (toneC255 .w32)) (toneHalf .w32) = .inf true) := by
  unfold OnPowerBranch; decide +kernel

theorem witness_PowKeepsOneStaysInRangeAndIsMonotone : toneOne .w64 = .fin false (2 ^ 1074) ∧
    OnPowerBranch .w64 (2 ^ 1073) ∧ OnPowerBranch .w64 (2 ^ 1074) ∧ 2 ^ 1073 ≤ 2 ^ 1074 := by
  unfold OnPowerBranch; decide +kernel

theorem witness_ToneOfThresholdAndOfSamplesAboveOne : fgt (.inf false) (toneOne .w64) = true ∧
    fgt (Datum.ofBits .w32 0x3F800001) (toneOne .w32) = true := by decide +kernel

/-- A sample whose `t` is finite, below zero, and one whose `t` is minus infinity. -/
theorem witness_NarrowingWrapsModulo256 : (⟨.rgb, .w64, .wrap⟩ : Config).narrow = .wrap ∧
    fle (Datum.neg (toneOne .w64)) (toneStart .w64) = true ∧
    fadd .w64 (fmul .w64 (fmul .w64 (Datum.neg (toneOne .w64)) (toneSlope .w64)) (toneC255 .w64)) (toneHalf .w64) =
      .fin true (1147 * 2 ^ 1074) ∧
    fle (.inf true) (toneStart .w64) = true ∧
    fadd .w64 (fmul .w64 (fmul .w64 (.inf true) (toneSlope .w64)) (toneC255 .w64)) (toneHalf .w64) = .inf true :=
  by decide +kernel

/-- Minus zero, 0.5 and plus infinity, and a negative sample whose integer is still 0. -/
theorem witness_ToneOfNonNegativeSamplesIsAMonotoneByte :
    fle (.fin false 0) (.fin true 0) = true ∧ fle (.fin true 0) (.fin false (2 ^ 148)) = true ∧
    fle (.fin false (2 ^ 148)) (.inf false) = true ∧ toneInt .w32 (toneClamp .w32 (.fin false (2 ^ 148))) = some 186 ∧
    toneInt .w32 (toneClamp .w32 (Datum.ofBits .w32 0xBA83126F)) = some 0 := by decide +kernel

/-! ### Witnesses: the whole machine -/

theorem reset_inv : Inv State.reset := by
  constructor <;> decide

/-- A conversion in progress meets the invariant. -/
theorem conv_inv : Inv (conv .unpack8 0x811 [3, 4]) := by
  constructor <;> decide

theorem witness_EveryStepKeepsTheInvariant : Inv (conv .unpack8 0x811 [3, 4]) ∧
    (∃ t, step (conv .unpack8 0x811 [3, 4]) = .next t) ∧
    ∃ t, step { conv .unpack8 0x811 [3, 4] with seqCol := 1 } = .next t := ⟨conv_inv, ⟨_, rfl⟩, _, rfl⟩

theorem witness_ATransitionAlwaysExists : Inv (conv .unpack8 0x811 [3, 4]) := conv_inv

theorem witness_PhaseChangesFollowTheTransitionTable :
    (∃ t, step (idleMoves [.wr 0 1]) = .next t ∧ t.status.phase ≠ (idleMoves [.wr 0 1]).status.phase) ∧
    ∃ t, step (convAt .unpack8 0x811 [3, 4] 0 1) = .next t ∧
      t.status.phase ≠ (convAt .unpack8 0x811 [3, 4] 0 1).status.phase :=
  ⟨⟨_, rfl, by decide⟩, _, rfl, by decide⟩

theorem witness_ARunSeesOneConstantDescriptor : Inv (conv .unpack8 0x811 [3, 4]) ∧
    (conv .unpack8 0x811 [3, 4]).status.busy = true ∧ ∃ t, step (conv .unpack8 0x811 [3, 4]) = .next t :=
  ⟨conv_inv, rfl, _, rfl⟩

theorem witness_CoreStepsWriteOnlyThePixelInHand :
    (CoreNext (conv .unpack8 0x811 [3, 4]) [] ∧ ∃ t, step (conv .unpack8 0x811 [3, 4]) = .next t) ∧
    CoreNext (inPhase .check 0x811 none) [] ∧ (∃ t, step (inPhase .check 0x811 none) = .next t) ∧
    (inPhase .check 0x811 none).status.phase ≠ .convert :=
  ⟨⟨.inr ⟨rfl, rfl⟩, _, rfl⟩, coreNext_nil _ _ _, ⟨_, rfl⟩, by decide⟩

/-- A 2 x 1 conversion of two palette indices. -/
def rowConv (i j : Nat) : State :=
  { conv .unpack8 0x811 [i, j] with src := { smallSrc 0x811 with height := 1 }, dst := { smallDst with height := 1 } }

theorem rowConv_begins (i j : Nat) (hw : (place 0x100 [i, j] []).wf = true) : Begins (rowConv i j) .unpack8 :=
  ⟨rfl, rfl, rfl, rfl, hw, by show 3 * 2 ≤ 8; decide, by show 0x200 + 1 * 8 ≤ 4294967296; decide⟩

theorem rowConv_apart (i j : Nat) {a : Nat} (h : a < 0x200) : ¬ destPixelByte (rowConv i j) a := by
  rintro ⟨y, k, -, -, e⟩
  have e' : a = 0x200 + y * 8 + k := e
  omega

/-- What UNPACK8 makes of a written entry, from any state with the descriptor, palette and source byte. -/
theorem smallLookup (u : State) (x : Nat) (b : Byte) (hs : u.src.base = 0x100) (hl : u.src.palLen = 4)
    (hp : u.palette = smallPalette) (hx : x < 2) (hm : u.mem.get (0x100 + x) = b) :
    (b = 3 → pixelFn .unpack8 u 0 x = .ok (.rgb (entryRgb 0x112233) u.draws)) ∧
    (b = 1 → pixelFn .unpack8 u 0 x = .ok (.rgb (entryRgb 0xFF8040) u.draws)) ∧
    (b = 4 → pixelFn .unpack8 u 0 x = .ok .badIndex) := by
  have hb : srcByte u 0 x = .ok b := by
    have ha : srcAddr u 0 x = 0x100 + x := by unfold srcAddr; rw [hs]; show 256 + 0 * _ + x = _; omega
    unfold srcByte; rw [ha, if_pos (by unfold memoryBytes; omega), hm]
  have hpx : pixelFn .unpack8 u 0 x = .ok (lookup u b.toNat) := by
    show (do let idx ← (do let c ← srcByte u 0 x; .ok c.toNat); .ok (lookup u idx)) = _
    rw [hb]; rfl
  refine ⟨?_, ?_, ?_⟩ <;> rintro rfl <;> rw [hpx] <;> simp only [lookup, palLen, hl, hp] <;> rfl

/-- The source bytes of `rowConv` in any state that shares its memory outside the destination. -/
theorem rowConv_bytes {i j : Nat} {u : State} (h : ∀ a, ¬ destPixelByte (rowConv i j) a → u.mem.get a = (rowConv i j).mem.get a)
    {x : Nat} (hx : x < 2) : u.mem.get (0x100 + x) = (place 0x100 [i, j] []).get (0x100 + x) :=
  h _ (rowConv_apart i j (by omega))

/-- Indices 3 and 1: pixels (17,34,51) and (255,128,64). -/
theorem witness_AConversionRunsToItsResult : Begins (rowConv 3 1) .unpack8 ∧
    ∀ (u : State) (y x : Nat), u.cfg = (rowConv 3 1).cfg → u.src = (rowConv 3 1).src → u.palette = (rowConv 3 1).palette →
      (∀ a, ¬ destPixelByte (rowConv 3 1) a → u.mem.get a = (rowConv 3 1).mem.get a) →
      y < (rowConv 3 1).src.height.toNat → x < (rowConv 3 1).src.width.toNat →
      ∃ n, pixelFn .unpack8 u y x = .ok (.rgb (if x = 0 then ⟨17, 34, 51⟩ else ⟨255, 128, 64⟩) n) := by
  refine ⟨rowConv_begins _ _ (by decide), fun u y x _ hs hp hm hy hx => ⟨u.draws, ?_⟩⟩
  have hx' : x < 2 := hx
  obtain rfl : y = 0 := by have : y < 1 := hy; omega
  have h := smallLookup u x _ (by rw [hs]; rfl) (by rw [hs]; rfl) hp hx' (rowConv_bytes hm hx')
  interval_cases x
  · exact h.1 rfl
  · exact h.2.1 rfl

theorem witness_PaletteFidelity : Op.unpack8 ∈ [Op.unpack1, .unpack4, .unpack8] ∧ Begins (rowConv 3 1) .unpack8 ∧
    ∀ y x, y < (rowConv 3 1).src.height.toNat → x < (rowConv 3 1).src.width.toNat →
      sourceInside (rowConv 3 1) y (indexByte .unpack8 x) ∧
      ¬ destPixelByte (rowConv 3 1) ((rowConv 3 1).src.base.toNat + y * (rowConv 3 1).src.pitch.toNat + indexByte .unpack8 x) ∧
      pixelIndex .unpack8 (rowConv 3 1) y x < min ((rowConv 3 1).src.palLen.toNat % 512) 256 ∧
      (rowConv 3 1).palette.get? (pixelIndex .unpack8 (rowConv 3 1) y x) =
        some (if x = 0 then 0x112233 else 0xFF8040) := by
  refine ⟨by decide, rowConv_begins _ _ (by decide), fun y x hy hx => ?_⟩
  have hx' : x < 2 := hx
  obtain rfl : y = 0 := by have : y < 1 := hy; omega
  refine ⟨?_, rowConv_apart _ _ ?_, ?_⟩
  · show 0x100 + 0 * 32 + x < 4294967296; omega
  · show 0x100 + 0 * 32 + x < 0x200; omega
  · interval_cases x <;> decide

/-- Index 3, then index 4 at the palette length 4. -/
theorem witness_AConversionStopsAtItsFirstBadIndex : Begins (rowConv 3 4) .unpack8 ∧
    0 < (rowConv 3 4).src.height.toNat ∧ 1 < (rowConv 3 4).src.width.toNat ∧
    ∀ (u : State) (y x : Nat), u.cfg = (rowConv 3 4).cfg → u.src = (rowConv 3 4).src → u.palette = (rowConv 3 4).palette →
      (∀ a, ¬ destPixelByte (rowConv 3 4) a → u.mem.get a = (rowConv 3 4).mem.get a) → x < (rowConv 3 4).src.width.toNat →
      (Before y x 0 1 → ∃ n, pixelFn .unpack8 u y x = .ok (.rgb ⟨17, 34, 51⟩ n)) ∧
      (y = 0 ∧ x = 1 → pixelFn .unpack8 u y x = .ok .badIndex) := by
  refine ⟨rowConv_begins _ _ (by decide), by decide, by decide, fun u y x _ hs hp hm hx => ⟨fun h => ?_, ?_⟩⟩
  · obtain ⟨rfl, hx0⟩ : y = 0 ∧ x < 1 := by unfold Before at h; omega
    obtain rfl : x = 0 := by omega
    exact ⟨u.draws, (smallLookup u 0 _ (by rw [hs]; rfl) (by rw [hs]; rfl) hp (by decide) (rowConv_bytes hm (by decide))).1 rfl⟩
  · rintro ⟨rfl, rfl⟩
    exact (smallLookup u 1 _ (by rw [hs]; rfl) (by rw [hs]; rfl) hp (by decide) (rowConv_bytes hm (by decide))).2.2 rfl

/-- A machine in IDLE with the descriptor of `rowConv`, about to see START, CHECK, the GRANT at 0x200 and the ACK. -/
def runOf : State :=
  { State.reset with
    src := { smallSrc 0x811 with height := 1 }
    palette := smallPalette
    mem := place 0x100 [3, 1] []
    moves := [.wr 0x000 0x00000001, .core, .ans (.grant 9 0x200 8), .ans .ack] }

theorem witness_ARunFromStartEndsInItsResult : runOf.status.phase = .idle ∧ runOf.mem.wf = true ∧
    selectedOp runOf = some .unpack8 ∧ Promised runOf 0x200 8 ∧
    runOf.moves = [.wr 0x000 0x00000001, .core, .ans (.grant 9 0x200 8), .ans .ack] ∧
    ∀ (u : State) (y x : Nat), u.cfg = runOf.cfg → u.src = runOf.src → u.palette = runOf.palette →
      (∀ a, (∀ y' k, y' < runOf.src.height.toNat → k < 3 * runOf.src.width.toNat →
        a ≠ (0x200 : Word).toNat + y' * (8 : Word).toNat + k) → u.mem.get a = runOf.mem.get a) →
      y < runOf.src.height.toNat → x < runOf.src.width.toNat →
      ∃ n, pixelFn .unpack8 u y x = .ok (.rgb (if x = 0 then ⟨17, 34, 51⟩ else ⟨255, 128, 64⟩) n) := by
  refine ⟨rfl, by decide, by decide, ⟨by decide, by decide, ?_⟩, rfl,
    fun u y x _ hs hp hm hy hx => ⟨u.draws, ?_⟩⟩
  · rintro a ⟨-, y, k, hy, hk, e⟩ ⟨ha, -⟩
    have hy' : y < 1 := hy
    have hk' : k < 32 ∨ k < 2 := hk
    have e' : a = 0x100 + y * 32 + k := e
    have ha' : 0x200 ≤ a := ha
    omega
  · have hx' : x < 2 := hx
    obtain rfl : y = 0 := by have : y < 1 := hy; omega
    have hb : u.mem.get (0x100 + x) = (place 0x100 [3, 1] []).get (0x100 + x) :=
      hm _ (fun y' k _ _ e => by
        have e' : 0x100 + x = 0x200 + y' * 8 + k := e
        omega)
    have h := smallLookup u x _ (by rw [hs]; rfl) (by rw [hs]; rfl) hp hx' hb
    interval_cases x
    · exact h.1 rfl
    · exact h.2.1 rfl

end Sys2Proof.Tests.Slice0
end

section
/-! Rounding to the sample format and its operations on finite data (00_scope.md R13): where rounding overflows,
the even significand at a tie, and the sum of two finite data by its signed count of units. -/

namespace Sys2Proof.Machine

/-- The overflow magnitude is `2 ^ precision` times the last place of the format's top binade. -/
theorem overflowMag_eq_two_pow (fw : FloatWidth) : ∃ r, overflowMag fw = 2 ^ (precision fw + r) := by
  cases fw with
  | w32 => exact ⟨253, by rw [overflowMag, precision]⟩
  | w64 => exact ⟨2045, by rw [overflowMag, precision]⟩

theorem overflowMag_pos (fw : FloatWidth) : 0 < overflowMag fw := by
  obtain ⟨r, hr⟩ := overflowMag_eq_two_pow fw
  rw [hr]
  exact Nat.two_pow_pos _

/-- Rounding passes an odd `q` exactly from the midpoint between `q` and `q + 1` on. -/
theorem lt_roundShift_iff_of_odd {n d q : Nat} (hq : q % 2 = 1) :
    q < roundShift n d ↔ (2 * q + 1) * 2 ^ d ≤ 2 * n := by
  have hn := Nat.div_add_mod' n (2 ^ d)
  have hr := Nat.mod_lt n (Nat.two_pow_pos d)
  have hk : n / 2 ^ d < q ∨ n / 2 ^ d = q ∨ q < n / 2 ^ d := lt_trichotomy _ _
  have hround := roundShift_cases n d
  rw [show (2 * q + 1) * 2 ^ d = 2 * (q * 2 ^ d) + 2 ^ d by ring]
  rcases hk with hk | hk | hk
  · have := Nat.mul_le_mul_right (2 ^ d) (Nat.succ_le_of_lt hk)
    rw [Nat.succ_mul] at this
    omega
  · rw [hk] at hn hround
    omega
  · have := Nat.mul_le_mul_right (2 ^ d) (Nat.succ_le_of_lt hk)
    rw [Nat.succ_mul] at this
    omega

/-- At a tie the rounded significand is even. -/
theorem roundShift_even_of_tie {n d : Nat} (h : 2 * (n % 2 ^ d) = 2 ^ d) : roundShift n d % 2 = 0 := by
  rcases roundShift_cases n d with ⟨e, -, even⟩ | ⟨e, -, odd⟩
  · rw [e, even h]
  · have := odd h
    omega

theorem roundMag_div (fw : FloatWidth) (num sh : Nat) :
    roundMag fw num sh / 2 ^ (droppedBits fw num sh - sh) = roundShift num (droppedBits fw num sh) :=
  Nat.mul_div_cancel _ (Nat.two_pow_pos _)

/-- Rounding reaches a power of two exactly from half a unit below it on. -/
theorem two_pow_le_roundShift_iff {n d p : Nat} (hp : 0 < p) :
    2 ^ p ≤ roundShift n d ↔ (2 ^ (p + 1) - 1) * 2 ^ d ≤ 2 * n := by
  have hpos := Nat.two_pow_pos (p - 1)
  have hsplit : 2 ^ p = 2 * 2 ^ (p - 1) := by rw [← pow_succ', Nat.sub_add_cancel hp]
  have hodd : (2 ^ p - 1) % 2 = 1 := by omega
  rw [show 2 ^ (p + 1) - 1 = 2 * (2 ^ p - 1) + 1 by rw [pow_succ']; omega, ← lt_roundShift_iff_of_odd hodd]
  omega

theorem roundMag_le (fw : FloatWidth) (num sh : Nat) :
    roundMag fw num sh ≤ 2 ^ (precision fw + (droppedBits fw num sh - sh)) := by
  rw [pow_add]
  exact Nat.mul_le_mul_right _ (roundShift_le _ _ _ (droppedBits_bound fw num sh))

/-- Where rounding discards bits of a whole unit, the significand is normal. -/
theorem le_roundMag {fw : FloatWidth} {num sh : Nat} (h : sh < droppedBits fw num sh) :
    2 ^ (precision fw - 1 + (droppedBits fw num sh - sh)) ≤ roundMag fw num sh := by
  have htop := droppedBits_top h
  rw [Nat.add_sub_assoc (precision_pos fw)] at htop
  rw [pow_add]
  exact Nat.mul_le_mul_right _ (le_roundShift _ _ _ htop)

/-- Rounding reaches `2 ^ precision` times the last place `2 ^ r` exactly from half that last place below it on: in
the binade below by the significand, elsewhere on the same side before and after rounding. -/
theorem two_pow_le_roundMag_iff (fw : FloatWidth) (num sh r : Nat) :
    2 ^ (precision fw + r) ≤ roundMag fw num sh ↔ (2 ^ (precision fw + 1) - 1) * 2 ^ (r + sh) ≤ 2 * num := by
  have hp := precision_pos fw
  have hsh := droppedBits_le fw num sh
  have hpow : 2 ^ (precision fw + 1) = 2 * 2 ^ precision fw := pow_succ' 2 _
  have hone := Nat.two_pow_pos (precision fw)
  rcases lt_trichotomy (droppedBits fw num sh) (r + sh) with hd | hd | hd
  · have hmag : roundMag fw num sh < 2 ^ (precision fw + r) :=
      (roundMag_le fw num sh).trans_lt (Nat.pow_lt_pow_right (by omega) (by omega))
    have hnum : 2 * num < (2 ^ (precision fw + 1) - 1) * 2 ^ (r + sh) :=
      calc 2 * num < 2 * 2 ^ (droppedBits fw num sh + precision fw) :=
            Nat.mul_lt_mul_of_pos_left (droppedBits_bound fw num sh) (by omega)
        _ ≤ 2 ^ precision fw * 2 ^ (r + sh) := by
            rw [← pow_succ', ← pow_add]; exact Nat.pow_le_pow_right (by omega) (by omega)
        _ ≤ _ := Nat.mul_le_mul_right _ (by omega)
    exact iff_of_false hmag.not_ge hnum.not_ge
  · rw [← hd, ← two_pow_le_roundShift_iff hp, roundMag, pow_add, hd, Nat.add_sub_cancel,
      Nat.mul_le_mul_right_iff (Nat.two_pow_pos r)]
  · have hshift : sh < droppedBits fw num sh := by omega
    have htop := droppedBits_top hshift
    have hmag : 2 ^ (precision fw + r) ≤ roundMag fw num sh :=
      (Nat.pow_le_pow_right (by omega) (by omega)).trans (le_roundMag hshift)
    have hnum : (2 ^ (precision fw + 1) - 1) * 2 ^ (r + sh) ≤ 2 * num :=
      calc _ ≤ 2 * 2 ^ precision fw * 2 ^ (r + sh) := Nat.mul_le_mul_right _ (by omega)
        _ = 2 * 2 ^ (precision fw + (r + sh)) := by rw [Nat.mul_assoc, ← pow_add]
        _ ≤ 2 * num := Nat.mul_le_mul_left _ ((Nat.pow_le_pow_right (by omega) (by omega)).trans htop)
    exact iff_of_true hmag hnum

/-- Rounding reaches the overflow magnitude exactly from half a last place below it on. -/
theorem overflowMag_le_roundMag_iff (fw : FloatWidth) (num sh : Nat) :
    overflowMag fw ≤ roundMag fw num sh ↔
      (2 ^ (precision fw + 1) - 1) * overflowMag fw * 2 ^ sh ≤ 2 ^ (precision fw + 1) * num := by
  obtain ⟨r, hr⟩ := overflowMag_eq_two_pow fw
  have hleft : (2 ^ (precision fw + 1) - 1) * 2 ^ (precision fw + r) * 2 ^ sh =
      2 ^ precision fw * ((2 ^ (precision fw + 1) - 1) * 2 ^ (r + sh)) := by rw [pow_add, pow_add 2 r sh]; ring
  have hright : 2 ^ (precision fw + 1) * num = 2 ^ precision fw * (2 * num) := by ring
  rw [hr, hleft, hright, Nat.mul_le_mul_left_iff (Nat.two_pow_pos _), two_pow_le_roundMag_iff]

theorem round_eq_inf_of_edge_le {fw : FloatWidth} {neg : Bool} {num sh : Nat}
    (h : (2 ^ (precision fw + 1) - 1) * overflowMag fw * 2 ^ sh ≤ 2 ^ (precision fw + 1) * num) :
    Datum.round fw neg num sh = .inf neg := by
  rw [round_eq, if_neg (Nat.not_lt.2 ((overflowMag_le_roundMag_iff fw num sh).2 h))]

theorem roundMag_lt_of_lt_edge {fw : FloatWidth} {num sh : Nat}
    (h : 2 ^ (precision fw + 1) * num < (2 ^ (precision fw + 1) - 1) * overflowMag fw * 2 ^ sh) :
    roundMag fw num sh < overflowMag fw :=
  Nat.not_le.1 fun hle => Nat.not_le.2 h ((overflowMag_le_roundMag_iff fw num sh).1 hle)

theorem roundMag_zero (fw : FloatWidth) (sh : Nat) : roundMag fw 0 sh = 0 := by
  simp [roundMag, roundShift]

@[simp] theorem round_zero (fw : FloatWidth) (neg : Bool) (sh : Nat) : Datum.round fw neg 0 sh = .fin neg 0 := by
  rw [round_eq, roundMag_zero, if_pos (overflowMag_pos fw)]

@[simp] theorem signedUnits_not (neg : Bool) (mag : Nat) : signedUnits (!neg) mag = -signedUnits neg mag := by
  cases neg <;> simp [signedUnits]

@[simp] theorem signedUnits_eq_zero_iff {neg : Bool} {mag : Nat} : signedUnits neg mag = 0 ↔ mag = 0 := by
  cases neg <;> simp [signedUnits]

theorem signedUnits_add_same (s : Bool) (m n : Nat) :
    signedUnits s m + signedUnits s n = signedUnits s (m + n) := by
  cases s <;> simp only [signedUnits, Bool.false_eq_true, if_true, if_false] <;> omega

theorem signedUnits_add_not_of_le {m n : Nat} (s : Bool) (h : n ≤ m) :
    signedUnits s m + signedUnits (!s) n = signedUnits s (m - n) := by
  cases s <;> simp only [signedUnits, Bool.not_true, Bool.not_false, Bool.false_eq_true, if_true, if_false] <;> omega

/-- `RN` of a whole count of units, the sign taken from the count. -/
def roundUnits (fw : FloatWidth) (v : Int) : Datum := Datum.round fw (decide (v < 0)) v.natAbs 0

@[simp] theorem natAbs_signedUnits (neg : Bool) (mag : Nat) : (signedUnits neg mag).natAbs = mag := by
  cases neg <;> simp [signedUnits]

theorem signedUnits_neg_iff {neg : Bool} {mag : Nat} (h : mag ≠ 0) : signedUnits neg mag < 0 ↔ neg = true := by
  cases neg with
  | false => simp [signedUnits]
  | true => simpa [signedUnits] using Nat.pos_of_ne_zero h

theorem roundUnits_signedUnits {fw : FloatWidth} {s : Bool} {m : Nat} (h : m ≠ 0) :
    roundUnits fw (signedUnits s m) = Datum.round fw s m 0 := by
  simp [roundUnits, signedUnits_neg_iff h]

theorem fadd_fin_same (fw : FloatWidth) (s : Bool) (m n : Nat) :
    fadd fw (.fin s m) (.fin s n) = Datum.round fw s (m + n) 0 := if_pos rfl

theorem fadd_fin_not (fw : FloatWidth) (s : Bool) (m n : Nat) : fadd fw (.fin s m) (.fin (!s) n) =
    if n < m then Datum.round fw s (m - n) 0 else if m < n then Datum.round fw (!s) (n - m) 0 else .fin false 0 :=
  if_neg (by simp)

/-- Two finite data add to `RN` of their exact sum, or where it is zero to a zero that is minus only for two minus
signs. -/
theorem fadd_fin (fw : FloatWidth) (s t : Bool) (m n : Nat) : fadd fw (.fin s m) (.fin t n) =
    if signedUnits s m + signedUnits t n = 0 then .fin (s && t) 0
    else roundUnits fw (signedUnits s m + signedUnits t n) := by
  rcases Bool.eq_or_eq_not t s with rfl | rfl
  · rw [fadd_fin_same, signedUnits_add_same]
    split
    · next h => simp [signedUnits_eq_zero_iff.1 h]
    · next h => rw [roundUnits_signedUnits (mt signedUnits_eq_zero_iff.2 h)]
  · rw [fadd_fin_not]
    rcases lt_trichotomy m n with h | rfl | h
    · have hsum : signedUnits s m + signedUnits (!s) n = signedUnits (!s) (n - m) := by
        simpa [add_comm] using signedUnits_add_not_of_le (!s) h.le
      have hne : n - m ≠ 0 := by omega
      rw [hsum, if_neg h.not_gt, if_pos h, if_neg (mt signedUnits_eq_zero_iff.1 hne), roundUnits_signedUnits hne]
    · simp
    · have hne : m - n ≠ 0 := by omega
      rw [signedUnits_add_not_of_le s h.le, if_pos h, if_neg (mt signedUnits_eq_zero_iff.1 hne),
        roundUnits_signedUnits hne]

/-- Settles O44: the overflow edge, the nearest value and the tie are read off the rounded magnitude, and the
operations off their signed count of units. -/
theorem roundingIsToNearestTiesToEven : Obligations.RoundingIsToNearestTiesToEven := by
  refine fun fw => ⟨fun neg num sh => ⟨round_eq_inf_of_edge_le, fun h => ?_⟩, fun s t m n => ⟨rfl, ?_, ?_, ?_, ?_⟩⟩
  · have hlt := roundMag_lt_of_lt_edge h
    exact ⟨roundMag fw num sh, round_fin le_rfl hlt, hlt, roundMag_representable fw num sh,
      roundMag_nearest fw num sh, fun tie => by rw [roundMag_div, roundShift_even_of_tie tie]⟩
  · exact fun h => (fadd_fin fw s t m n).trans (if_neg h)
  · exact fun h => (fadd_fin fw s t m n).trans (if_pos h)
  · rw [sub_eq_add_neg, ← signedUnits_not]
    exact fun h => (fadd_fin fw s (!t) m n).trans (if_neg h)
  · rw [sub_eq_add_neg, ← signedUnits_not]
    exact fun h => (fadd_fin fw s (!t) m n).trans (if_pos h)

end Sys2Proof.Machine
end

section
/-! The register bank under host accesses (10_state.md R20 to R48): what a step is for an access outside the
interface, to an unmapped offset, to a register and to a palette entry. -/

namespace Sys2Proof.Machine

variable {s : State} {rest : List Move} {r : Reg} {offset i : Nat} {d : Word}

/-! ### Offsets -/

theorem offsetOk_iff : offsetOk offset = true ↔ offset % 4 = 0 ∧ offset ≤ 0x7FC := by
  simp [offsetOk]

theorem offsetOk_bank : ∀ r ∈ Reg.bank, offsetOk r.offset = true := by decide

theorem offsetOk_palette (hi : i < 256) : offsetOk (0x400 + 4 * i) = true := offsetOk_iff.2 ⟨by omega, by omega⟩

theorem ofOffset_bank : ∀ r ∈ Reg.bank, Reg.ofOffset r.offset = some r := by decide

theorem ofOffset_ctrl_iff : Reg.ofOffset offset = some .ctrl ↔ offset = 0 := by
  constructor
  · intro h
    unfold Reg.ofOffset at h
    split at h
    · cases h
    · split at h
      · split at h <;> cases h
      · have hbeq := List.find?_some (p := fun r : Reg => r.offset == offset) h
        exact (beq_iff_eq.1 hbeq).symm
  · rintro rfl
    decide

theorem ofOffset_eq_none_of_lt (hlt : offset < 0x400) (hn : ∀ r ∈ Reg.bank, r.offset ≠ offset) :
    Reg.ofOffset offset = none := by
  unfold Reg.ofOffset
  split
  · rfl
  · rw [if_neg (by omega)]
    simpa using hn

theorem ofOffset_unmapped (h : offset ∈ [0x064, 0x068, 0x06C] ∨ (0x02C < offset ∧ offset < 0x040) ∨
    (0x074 < offset ∧ offset < 0x400)) : Reg.ofOffset offset = none := by
  have hrange : offset < 0x400 ∧
      ((0x060 < offset ∧ offset < 0x070) ∨ (0x02C < offset ∧ offset < 0x040) ∨ 0x074 < offset) := by
    simp only [List.mem_cons, List.not_mem_nil, or_false] at h
    omega
  refine ofOffset_eq_none_of_lt hrange.1 fun r hr => ?_
  have hbank : r.offset ≤ 0x02C ∨ (0x040 ≤ r.offset ∧ r.offset ≤ 0x060) ∨ (0x070 ≤ r.offset ∧ r.offset ≤ 0x074) := by
    revert r
    decide
  omega

/-! ### The register write -/

theorem regWrite_of_busy (hb : s.status.busy = true) (r : Reg) (d : Word) : regWrite r d s = s := by
  rw [regWrite, if_pos hb]

theorem regWrite_of_not_busy (hb : s.status.busy = false) (r : Reg) (d : Word) :
    regWrite r d s = { s with src := srcWrite s.src d r, palette := paletteWrite s.palette d r } := by
  simp [regWrite, hb]

theorem regWrite_withMoves (r : Reg) (d : Word) (s : State) (rest : List Move) :
    regWrite r d { s with moves := rest } = { regWrite r d s with moves := rest } := by
  rw [regWrite, regWrite]
  split <;> rfl

theorem srcWrite_fmt_masked {q : SrcRegs} (h : q.fmt &&& 0x0000FFF1 = q.fmt) (d : Word) (r : Reg) :
    (srcWrite q d r).fmt &&& 0x0000FFF1 = (srcWrite q d r).fmt := by
  cases r with
  | srcFmt => simp only [srcWrite, BitVec.and_assoc, BitVec.and_self]
  | _ => exact h

theorem srcWrite_palLen_masked {q : SrcRegs} (h : q.palLen &&& 0x000001FF = q.palLen) (d : Word) (r : Reg) :
    (srcWrite q d r).palLen &&& 0x000001FF = (srcWrite q d r).palLen := by
  cases r with
  | palLen => simp only [srcWrite, BitVec.and_assoc, BitVec.and_self]
  | _ => exact h

theorem paletteWrite_wf {p : Palette} (hp : p.wf = true) (d : Word) (hi : ∀ i, r = .palette i → i < 256) :
    (paletteWrite p d r).wf = true := by
  cases r with
  | palette i => exact Palette.wf_put hp _ (hi i rfl)
  | _ => exact hp

theorem setWidth_24_setWidth_32 (d : Word) : (d.setWidth 24).setWidth 32 = d &&& 0x00FFFFFF := by
  refine BitVec.eq_of_toNat_eq ?_
  have hmod : d.toNat % 2 ^ 24 < 2 ^ 32 := by omega
  rw [BitVec.toNat_setWidth, BitVec.toNat_setWidth, BitVec.toNat_and, Nat.mod_eq_of_lt hmod]
  exact (Nat.and_two_pow_sub_one_eq_mod d.toNat 24).symm

/-- The registers of the bank that a host write never changes (10_state.md R22, R32 to R34, R40). -/
def Reg.readOnly : List Reg :=
  [.status, .dstFmt, .dstHandle, .dstWidth, .dstHeight, .dstPitch, .dstBase, .dstRmask, .dstGmask, .dstBmask,
   .seqRow, .seqCol]

theorem readOnly_subset_bank : Reg.readOnly ⊆ Reg.bank := by decide

theorem regWrite_readOnly (hr : r ∈ Reg.readOnly) (d : Word) (s : State) : regWrite r d s = s := by
  have hsame : srcWrite s.src d r = s.src ∧ paletteWrite s.palette d r = s.palette := by
    cases r <;> simp [Reg.readOnly, srcWrite, paletteWrite] at hr ⊢
  rw [regWrite, hsame.1, hsame.2, ite_self]

/-- The registers a host write changes, the palette apart (10_state.md R23 to R30). -/
def Reg.writable : List Reg :=
  [.srcFmt, .srcHandle, .srcWidth, .srcHeight, .srcPitch, .srcBase, .srcRmask, .srcGmask, .srcBmask, .palLen]

/-- The bits of a source register that are not reserved (10_state.md R23, R30). -/
def Reg.mask : Reg → Word
  | .srcFmt => 0x0000FFF1
  | .palLen => 0x000001FF
  | _ => 0xFFFFFFFF

theorem regRead_of_srcWrite {q : SrcRegs} (hr : r ∈ Reg.writable) (hsrc : s.src = srcWrite q d r) :
    regRead s r = d &&& r.mask := by
  have hfull : d &&& 0xFFFFFFFF = d := BitVec.and_allOnes
  cases r with
  | srcFmt | palLen => simp only [regRead, hsrc, srcWrite, Reg.mask]
  | srcHandle | srcWidth | srcHeight | srcPitch | srcBase | srcRmask | srcGmask | srcBmask =>
    simpa only [regRead, hsrc, srcWrite, Reg.mask] using hfull.symm
  | _ => simp [Reg.writable] at hr

theorem paletteWrite_writable (hr : r ∈ Reg.writable) (p : Palette) (d : Word) : paletteWrite p d r = p := by
  cases r with
  | palette i => simp [Reg.writable] at hr
  | _ => rfl

theorem writable_subset_bank : Reg.writable ⊆ Reg.bank := by decide

/-! ### Host steps -/

theorem step_write_refused (h : s.moves = .wr offset d :: rest) (hok : offsetOk offset = false) :
    step s = .refused (.registerAccess offset) := by
  simp [step_move h, moveStep, hostWrite, hok]

theorem step_read_refused (h : s.moves = .rd offset :: rest) (hok : offsetOk offset = false) :
    step s = .refused (.registerAccess offset) := by
  simp [step_move h, moveStep, hostRead, hok]

theorem step_read_unmapped (h : s.moves = .rd offset :: rest) (hok : offsetOk offset = true)
    (hn : Reg.ofOffset offset = none) : step s = .next { s with rdData := some 0, moves := rest } := by
  simp [step_move h, moveStep, hostRead, hok, hn]

theorem step_write_reg (h : s.moves = .wr offset d :: rest) (hok : offsetOk offset = true)
    (hr : Reg.ofOffset offset = some r) (hne : r ≠ .ctrl) :
    step s = .next { regWrite r d s with moves := rest } := by
  rw [← regWrite_withMoves]
  cases r <;> simp [step_move h, moveStep, hostWrite, hok, hr] at hne ⊢

/-- A write is ignored where the register at the offset, if there is one, ignores it. -/
theorem step_write_ignored (h : s.moves = .wr offset d :: rest) (hok : offsetOk offset = true) (hne : offset ≠ 0)
    (hsame : ∀ r, Reg.ofOffset offset = some r → regWrite r d s = s) :
    step s = .next { s with moves := rest } := by
  cases hr : Reg.ofOffset offset with
  | none => simp [step_move h, moveStep, hostWrite, hok, hr]
  | some r =>
    have hctrl : r ≠ .ctrl := fun e => hne (ofOffset_ctrl_iff.1 (e ▸ hr))
    rw [step_write_reg h hok hr hctrl, hsame r hr]

theorem step_read_reg (h : s.moves = .rd offset :: rest) (hok : offsetOk offset = true)
    (hr : Reg.ofOffset offset = some r) :
    step s = .next { s with rdData := some (regRead s r), draws := drawsAfterRead s r, moves := rest } := by
  rw [step_move h]
  simp only [moveStep, hostRead, hok, hr, if_true]
  cases r <;> rfl

theorem step_read_bank (hr : r ∈ Reg.bank) (h : s.moves = .rd r.offset :: rest) :
    step s = .next { s with rdData := some (regRead s r), moves := rest } := by
  have hdraws : drawsAfterRead s r = s.draws := by
    cases r with
    | palette i => simp [Reg.bank] at hr
    | _ => rfl
  rw [step_read_reg h (offsetOk_bank r hr) (ofOffset_bank r hr), hdraws]

theorem step_read_palette (hi : i < 256) (h : s.moves = .rd (0x400 + 4 * i) :: rest) :
    step s = .next { s with
      rdData := some ((s.palette.read s.draws i).setWidth 32)
      draws := s.palette.drawsAfter s.draws i
      moves := rest } :=
  step_read_reg h (offsetOk_palette hi) (ofOffset_palette i hi)

theorem step_write_writable (hr : r ∈ Reg.writable) (hb : s.status.busy = false)
    (h : s.moves = .wr r.offset d :: rest) :
    step s = .next { s with src := srcWrite s.src d r, moves := rest } := by
  have hbank := writable_subset_bank hr
  have hctrl : r ≠ .ctrl := by
    rintro rfl
    simp [Reg.writable] at hr
  rw [step_write_reg h (offsetOk_bank r hbank) (ofOffset_bank r hbank) hctrl, regWrite_of_not_busy hb,
    paletteWrite_writable hr]

theorem step_write_palette (hi : i < 256) (hb : s.status.busy = false) (h : s.moves = .wr (0x400 + 4 * i) d :: rest) :
    step s = .next { s with palette := s.palette.put i (d.setWidth 24), moves := rest } := by
  rw [step_write_reg h (offsetOk_palette hi) (ofOffset_palette i hi) (by simp), regWrite_of_not_busy hb]
  rfl

/-- A read of a written entry draws no free value. -/
theorem step_read_written_palette {e : BitVec 24} (hi : i < 256) (he : s.palette.get? i = some e)
    (h : s.moves = .rd (0x400 + 4 * i) :: rest) :
    step s = .next { s with rdData := some (e.setWidth 32), moves := rest } := by
  rw [step_read_palette hi h]
  simp [Palette.read, Palette.drawsAfter, he]

/-! ### The statements -/

/-- Settles O35: while BUSY the write of any register answers the state itself. -/
theorem writesWhileBusyAreIgnored : Obligations.WritesWhileBusyAreIgnored := by
  intro s rest offset d h hb hne h4 hle
  exact step_write_ignored h (offsetOk_iff.2 ⟨h4, hle⟩) hne fun r _ => regWrite_of_busy hb r d

/-- Settles O38: a read-only register ignores its write, and at an unmapped offset there is no register. -/
theorem unmappedAndReadOnlyOffsetsIgnoreWrites : Obligations.UnmappedAndReadOnlyOffsetsIgnoreWrites := by
  intro s rest offset d h4 hoff
  have hrange : offset ≠ 0 ∧ offset ≤ 0x7FC := by
    simp only [List.mem_cons, List.not_mem_nil, or_false] at hoff
    omega
  have hok := offsetOk_iff.2 ⟨h4, hrange.2⟩
  refine ⟨fun h => step_write_ignored h hok hrange.1 fun r hr => ?_, fun h hun => ?_⟩
  · rcases hoff with hro | hun
    · obtain ⟨q, hq, rfl⟩ := List.mem_map.1 (show offset ∈ Reg.readOnly.map Reg.offset from hro)
      rw [ofOffset_bank q (readOnly_subset_bank hq)] at hr
      cases hr
      exact regWrite_readOnly hq d s
    · rw [ofOffset_unmapped hun] at hr
      cases hr
  · exact step_read_unmapped h hok (ofOffset_unmapped hun)

/-- Settles O39: reads and writes test the offset before anything else. -/
theorem accessOutsideTheInterfaceIsRefused : Obligations.AccessOutsideTheInterfaceIsRefused := by
  intro s rest offset d hout
  have hok : offsetOk offset = false := by
    rw [Bool.eq_false_iff, ne_eq, offsetOk_iff]
    omega
  exact ⟨fun h => step_write_refused h hok, fun h => step_read_refused h hok⟩

/-- Settles O37: the list of the statement is the register bank with the value read of each register. -/
theorem readsFollowTheRegisterMap : Obligations.ReadsFollowTheRegisterMap := by
  intro s rest
  refine ⟨fun offset v hmem h => ?_, fun i hi h => ⟨fun e he => ?_, fun hnone => ?_⟩⟩
  · obtain ⟨r, hr, heq⟩ := List.mem_map.1 (show (offset, v) ∈ Reg.bank.map fun r => (r.offset, regRead s r) from hmem)
    cases heq
    exact step_read_bank hr h
  · rw [step_read_written_palette hi he h, BitVec.ofNat_toNat]
  · refine ⟨s.palette.read s.draws i, ?_⟩
    rw [step_read_palette hi h]
    simp [Palette.drawsAfter, hnone]

/-- Settles O36: the list of the statement is the writable registers, each with its mask and its write. -/
theorem writtenRegistersReadBack : Obligations.WrittenRegistersReadBack := by
  intro s rest d hb
  refine ⟨fun offset mask q hmem h => ?_, fun i hi h => ?_⟩
  · obtain ⟨r, hr, heq⟩ := List.mem_map.1
      (show (offset, mask, q) ∈ Reg.writable.map fun r => (r.offset, r.mask, srcWrite s.src d r) from hmem)
    cases heq
    refine ⟨step_write_writable hr hb h, ?_⟩
    rw [step_read_bank (writable_subset_bank hr) rfl, regRead_of_srcWrite hr rfl]
  · refine ⟨s.palette.put i (d.setWidth 24), step_write_palette hi hb h, ?_, ?_, fun j hj => ?_⟩
    · rw [step_read_written_palette hi (Palette.get?_put_same _ i _) rfl, setWidth_24_setWidth_32]
    · rw [Palette.get?_put_same, BitVec.ofNat_toNat]
    · exact Palette.get?_put_other _ _ hj

/-! ### STATUS -/

theorem Cause.code_le (c : Cause) : c.code ≤ 5 := by cases c <;> decide

theorem Phase.code_le (p : Phase) : p.code ≤ 7 := by cases p <;> decide

theorem Status.word_toNat (st : Status) : st.word.toNat =
    st.busy.toNat + 2 * st.done.toNat + 4 * st.fail.toNat + 16 * st.cause.code + 256 * st.phase.code := by
  have hcause := st.cause.code_le
  have hphase := st.phase.code_le
  have hbusy := st.busy.toNat_le
  have hdone := st.done.toNat_le
  have hfail := st.fail.toNat_le
  rw [Status.word, BitVec.toNat_ofNat, Nat.mod_eq_of_lt (by omega)]

theorem Status.word_getLsbD {st : Status} {k : Nat} {b : Bool} (h : st.word.toNat / 2 ^ k % 2 = b.toNat) :
    st.word.getLsbD k = b := by
  rw [BitVec.getLsbD, Nat.testBit_eq_decide_div_mod_eq, h]
  cases b <;> rfl

/-- Settles O40: STATUS is the sum of its fields at their weights, and each field is below the next one's weight. -/
theorem statusFieldsStandAtTheirBits : Obligations.StatusFieldsStandAtTheirBits := by
  intro st
  have hcause := st.cause.code_le
  have hphase := st.phase.code_le
  have hbusy := st.busy.toNat_le
  have hdone := st.done.toNat_le
  have hfail := st.fail.toNat_le
  have hword := st.word_toNat
  have hzero : st.word.toNat / 2 ^ 3 % 2 = false.toNat := by rw [Bool.toNat_false]; omega
  exact ⟨Status.word_getLsbD (by omega), Status.word_getLsbD (by omega), Status.word_getLsbD (by omega),
    Status.word_getLsbD hzero, by omega, by omega, hcause, hphase⟩

end Sys2Proof.Machine
end

section
/-! The invariant of the machine along a step (10_state.md R22 to R55). A state in IDLE and a state before CONVERT are
each described once, by `AtRest` and `Preparing`; every effect of a step then shows one of the two, or changes the
position, the phase or the request of a conversion in progress. -/

namespace Sys2Proof.Machine

/-- What no phase has a say in: memory and palette are canonical, the reserved bits of the source registers are 0. -/
structure Stored (s : State) : Prop where
  memory : s.mem.wf = true
  palette : s.palette.wf = true
  srcFmt : s.src.fmt &&& 0x0000FFF1 = s.src.fmt
  palLen : s.src.palLen &&& 0x000001FF = s.src.palLen

/-- No run is in progress: the flags and the result registers agree, and the hidden state is none. -/
structure AtRest (s : State) : Prop where
  idle : s.status.phase = .idle
  notBusy : s.status.busy = false
  failDone : s.status.fail = true → s.status.done = true
  cause : s.status.cause = .none ↔ s.status.fail = false
  dstFmt : s.dst.fmt = if s.status.done = true ∧ s.status.fail = false then resultFmt else 0
  failed : s.status.fail = true → s.dst = DstRegs.zero
  op : s.op = none
  pend : s.pend = none
  svcOut : s.svcOut = none

/-- A run in progress: of the flags BUSY alone is set, and there is no result yet. -/
structure Running (s : State) : Prop where
  busy : s.status.busy = true
  done : s.status.done = false
  fail : s.status.fail = false
  cause : s.status.cause = .none
  dstFmt : s.dst.fmt = 0

/-- A run before CONVERT: it stands at (0,0) with no operation selected and the request of its phase outstanding. -/
structure Preparing (s : State) : Prop extends Running s where
  phase : beforeConvert s.status.phase = true
  op : s.op = none
  pend : s.pend = none
  row : s.seqRow = 0
  col : s.seqCol = 0
  request : s.svcOut = expectedRequest s
  word : s.status.phase = .allocWait ∨ s.status.phase = .metaWait ∨ s.status.phase = .select → goesToAlloc s = true
  dims : holdsDest s.status.phase = true → s.dst.width = s.src.width ∧ s.dst.height = s.src.height

variable {s t : State}

theorem beforeConvert_ne {p : Phase} (h : beforeConvert p = true) : p ≠ .idle ∧ p ≠ .convert ∧ p ≠ .freeWait := by
  cases p <;> simp_all [beforeConvert]

theorem Inv.stored (h : Inv s) : Stored s := ⟨h.memory, h.palette, h.srcFmt, h.palLen⟩

theorem Stored.inv_of_atRest (hs : Stored s) (h : AtRest s) : Inv s where
  memory := hs.memory
  palette := hs.palette
  busy := by simp [h.idle, h.notBusy]
  doneIdle := fun _ => h.idle
  failDone := h.failDone
  cause := h.cause
  srcFmt := hs.srcFmt
  palLen := hs.palLen
  dstFmt := h.dstFmt
  failed := h.failed
  request := by simp [h.svcOut, expectedRequest, h.idle]
  pend := by simp [h.idle, h.pend]
  op := by simp [h.idle, h.op]
  word := by simp [h.idle]
  seqZero := by simp [h.idle, beforeConvert]
  seqBound := by simp [h.idle]
  dims := by simp [h.idle, holdsDest]

theorem Inv.atRest (h : Inv s) (hidle : s.status.phase = .idle) : AtRest s where
  idle := hidle
  notBusy := by simpa [hidle] using h.busy
  failDone := h.failDone
  cause := h.cause
  dstFmt := h.dstFmt
  failed := h.failed
  op := h.op.2 (by simp [hidle]) (by simp [hidle])
  pend := by simpa [hidle] using h.pend
  svcOut := by simpa [expectedRequest, hidle] using h.request

theorem Stored.inv_of_preparing (hs : Stored s) (h : Preparing s) : Inv s := by
  obtain ⟨hidle, hconvert, hfree⟩ := beforeConvert_ne h.phase
  exact {
    memory := hs.memory
    palette := hs.palette
    busy := by simp [h.busy, hidle]
    doneIdle := by simp [h.done]
    failDone := by simp [h.fail]
    cause := by simp [h.cause, h.fail]
    srcFmt := hs.srcFmt
    palLen := hs.palLen
    dstFmt := by simp [h.done, h.dstFmt]
    failed := by simp [h.fail]
    request := h.request
    pend := by simp [hfree, h.pend]
    op := by simp [hconvert, h.op]
    word := h.word
    seqZero := fun _ => ⟨h.row, h.col⟩
    seqBound := by simp [hconvert, hfree]
    dims := h.dims }

theorem Inv.running (h : Inv s) (hne : s.status.phase ≠ .idle) : Running s := by
  have hdone : s.status.done = false := by simpa using mt h.doneIdle hne
  have hfail : s.status.fail = false := by simpa [hdone] using h.failDone
  exact ⟨h.busy.2 hne, hdone, hfail, h.cause.2 hfail, by simpa [hdone] using h.dstFmt⟩

theorem Inv.preparing (h : Inv s) (hb : beforeConvert s.status.phase = true) : Preparing s := by
  obtain ⟨hidle, hconvert, hfree⟩ := beforeConvert_ne hb
  obtain ⟨hrow, hcol⟩ := h.seqZero hb
  exact {
    h.running hidle with
    phase := hb
    op := h.op.2 hconvert hfree
    pend := by simpa [hfree] using h.pend
    row := hrow
    col := hcol
    request := h.request
    word := h.word
    dims := h.dims }

theorem Stored.congr (hs : Stored s) (hmem : t.mem = s.mem) (hpal : t.palette = s.palette) (hsrc : t.src = s.src) :
    Stored t where
  memory := hmem ▸ hs.memory
  palette := hpal ▸ hs.palette
  srcFmt := hsrc ▸ hs.srcFmt
  palLen := hsrc ▸ hs.palLen

theorem Inv.observed (h : Inv s) (ms : List Move) (v : Option Word) (n : Nat) :
    Inv { s with moves := ms, rdData := v, draws := n } := { h with }

theorem Inv.memoryWritten (h : Inv s) {m : Memory} (hm : m.wf = true) : Inv { s with mem := m } :=
  { h with memory := hm }

/-! ### The two ends of a run, and reset -/

theorem inv_reset (hm : s.mem.wf = true) (hp : s.palette.wf = true) :
    Inv { s with
      status := Status.reset
      src := SrcRegs.reset
      dst := DstRegs.zero
      seqRow := 0
      seqCol := 0
      op := none
      pend := none
      svcOut := none } :=
  Stored.inv_of_atRest ⟨hm, hp, BitVec.zero_and, BitVec.zero_and⟩ (by constructor <;> simp [Status.reset, DstRegs.zero])

theorem Stored.inv_failDone (hs : Stored s) {c : Cause} (hc : c ≠ .none) : Inv (failDone c s) :=
  Stored.inv_of_atRest (hs.congr rfl rfl rfl) (by constructor <;> simp [hc, DstRegs.zero])

theorem Stored.inv_success (hs : Stored s) : Inv (success s) :=
  Stored.inv_of_atRest (hs.congr rfl rfl rfl) (by constructor <;> simp)

theorem Stored.inv_startRun (hs : Stored s) : Inv (startRun s) :=
  Stored.inv_of_preparing (hs.congr rfl rfl rfl) {
    busy := rfl, done := rfl, fail := rfl, cause := rfl, dstFmt := rfl, phase := rfl
    op := rfl, pend := rfl, row := rfl, col := rfl, request := rfl
    word := by simp
    dims := by simp [holdsDest] }

/-! ### Requests, grants and the acknowledgement of METACOPY -/

theorem Inv.cloneRequest (h : Inv s) (hp : s.status.phase = .check) : Inv (cloneRequest s) := by
  have hprep := h.preparing (by rw [hp]; rfl)
  exact Stored.inv_of_preparing (h.stored.congr rfl rfl rfl) { hprep with
    phase := rfl, row := rfl, col := rfl, request := rfl
    word := by simp
    dims := by simp [holdsDest] }

theorem Inv.allocRequest (h : Inv s) (hp : s.status.phase = .check) (hw : goesToAlloc s = true) :
    Inv (allocRequest s) := by
  have hprep := h.preparing (by rw [hp]; rfl)
  exact Stored.inv_of_preparing (h.stored.congr rfl rfl rfl) { hprep with
    phase := rfl, row := rfl, col := rfl, request := rfl
    word := fun _ => hw
    dims := by simp [holdsDest] }

theorem Inv.allocGranted (h : Inv s) (hp : s.status.phase = .allocWait) (handle base pitch : Word) :
    Inv (allocGranted handle base pitch s) := by
  have hprep := h.preparing (by rw [hp]; rfl)
  exact Stored.inv_of_preparing (h.stored.congr rfl rfl rfl) { hprep with
    phase := rfl, row := rfl, col := rfl, request := rfl
    word := fun _ => h.word (.inl hp)
    dims := fun _ => ⟨rfl, rfl⟩ }

theorem Inv.metaCopied (h : Inv s) (hp : s.status.phase = .metaWait) (dst src : Word) :
    Inv (metaCopied dst src s) := by
  have hprep := h.preparing (by rw [hp]; rfl)
  exact Stored.inv_of_preparing (h.stored.congr rfl rfl rfl) { hprep with
    phase := rfl, row := rfl, col := rfl, request := rfl
    word := fun _ => h.word (.inr (.inl hp))
    dims := fun _ => h.dims (by rw [hp]; rfl) }

/-! ### The conversion and the failure entry -/

theorem Inv.selectOp (h : Inv s) (hp : s.status.phase = .select) {op : Op} (hop : selectedOp s = some op) :
    Inv (selectOp op s) := by
  have hprep := h.preparing (by rw [hp]; rfl)
  exact { h with
    busy := by simp [hprep.busy]
    doneIdle := by simp [hprep.done]
    request := by simpa [expectedRequest, hp] using h.request
    pend := by simp [hprep.pend]
    op := ⟨fun _ => ⟨rfl, hop.symm⟩, fun e => absurd rfl e⟩
    word := by simp
    seqZero := by simp [beforeConvert]
    seqBound := by simp
    dims := fun _ => h.dims (by rw [hp]; rfl) }

theorem Inv.moved (h : Inv s) (hp : s.status.phase = .convert) {row col : Word}
    (hrow : row.toNat ≤ s.src.height.toNat) (hcol : col.toNat ≤ s.src.width.toNat) :
    Inv { s with seqRow := row, seqCol := col } :=
  { h with
    seqZero := by simp [hp, beforeConvert]
    seqBound := fun _ => ⟨hrow, hcol⟩ }

/-- R291 where a destination is held: the failure is pending and the FREE request outstanding. -/
theorem Inv.raiseFail_held (h : Inv s) (hp : s.status.phase = .select ∨ s.status.phase = .convert) {c : Cause}
    (hc : c = .unsupportedDepth ∨ c = .paletteIndex) : Inv (raiseFail c s) := by
  have hrun := h.running (by rcases hp with hp | hp <;> simp [hp])
  have hbound : s.seqRow.toNat ≤ s.src.height.toNat ∧ s.seqCol.toNat ≤ s.src.width.toNat := by
    rcases hp with hp | hp
    · have hzero := h.seqZero (by rw [hp]; rfl)
      simp [hzero.1, hzero.2]
    · exact h.seqBound (.inl hp)
  rw [Machine.raiseFail_held hp]
  exact { h with
    busy := by simp [hrun.busy]
    doneIdle := by simp [hrun.done]
    request := rfl
    pend := by simpa using hc
    op := by simp
    word := by simp
    seqZero := by simp [beforeConvert]
    seqBound := fun _ => hbound
    dims := fun _ => h.dims (by rcases hp with hp | hp <;> rw [hp] <;> rfl) }

theorem Inv.pixelDone (h : Inv s) (ha : AtPixel s) {m : Memory} (hm : m.wf = true) (n : Nat) :
    Inv (pixelDone m n s) := by
  have hcol : (s.seqCol + 1).toNat ≤ s.src.width.toNat := by have := ha.col; bv_omega
  exact ((h.memoryWritten hm).moved ha.convert ha.row.le hcol).observed s.moves s.rdData n

theorem Inv.rowEnd (h : Inv s) (hp : s.status.phase = .convert) (hrow : s.seqRow.toNat < s.src.height.toNat) :
    Inv (rowEnd s) := by
  have hrow' : (s.seqRow + 1).toNat ≤ s.src.height.toNat := by bv_omega
  exact h.moved hp hrow' (Nat.zero_le _)

/-! ### Host writes -/

theorem Inv.regWrite (h : Inv s) {reg : Reg} (hi : ∀ i, reg = .palette i → i < 256) (d : Word) :
    Inv (regWrite reg d s) := by
  cases hb : s.status.busy with
  | true => rwa [regWrite_of_busy hb]
  | false =>
    have hrest := h.atRest (by simpa [hb] using h.busy)
    rw [regWrite_of_not_busy hb]
    exact Stored.inv_of_atRest
      ⟨h.memory, paletteWrite_wf h.palette d hi, srcWrite_fmt_masked h.srcFmt d reg,
        srcWrite_palLen_masked h.palLen d reg⟩
      { hrest with }

/-! ### Every step -/

/-- No destination is held yet where a request can be denied, so the failure completes at once. -/
theorem denied_eq_failDone (hp : s.status.phase = .allocWait ∨ s.status.phase = .cloneWait) :
    denied s = failDone .allocFailed s := by
  rcases hp with hp | hp <;> exact raiseFail_early (by simp [hp]) (by simp [hp])

theorem CoreKind.inv (hk : CoreKind s t) (h : Inv s) : Inv t := by
  cases hk with
  | stay => exact h
  | failAtCheck c hp hc =>
    rw [raiseFail_early (by simp [hp]) (by simp [hp])]
    exact h.stored.inv_failDone (by rcases hc with rfl | rfl <;> decide)
  | clone hp => exact h.cloneRequest hp
  | alloc hp hw => exact h.allocRequest hp hw
  | select op hp hop => exact h.selectOp hp hop
  | noMatch hp => exact h.raiseFail_held (.inl hp) (.inl rfl)
  | done => exact h.stored.inv_success
  | pixel op p n m ha _ _ hm => exact h.pixelDone ha (putPixel_wf h.memory hm) n
  | badIndex ha => exact h.raiseFail_held (.inr ha.convert) (.inr rfl)
  | rowEnd hp hrow => exact h.rowEnd hp hrow

theorem StepKind.inv (hk : StepKind s t) (h : Inv s) : Inv t := by
  cases hk with
  | core hc => exact hc.inv h
  | start => exact h.stored.inv_startRun
  | write r d hi => exact h.regWrite hi d
  | observe v n => exact h.observed s.moves (some v) n
  | memory a b ha => exact h.memoryWritten (Memory.wf_put h.memory b ha)
  | reset => exact inv_reset h.memory h.palette
  | allocGranted handle base pitch hp => exact h.allocGranted hp handle base pitch
  | denied hp =>
    rw [denied_eq_failDone hp]
    exact h.stored.inv_failDone (by decide)
  | cloneGranted handle base pitch m _ hpr hm =>
    exact Stored.inv_success ⟨cloneRows_wf hpr.wide _ h.memory hpr.inside hm, h.palette, h.srcFmt, h.palLen⟩
  | metaCopied d c hp => exact h.metaCopied hp d c
  | freed d c hp hc =>
    have hlate : c = .unsupportedDepth ∨ c = .paletteIndex := by simpa [hp, hc] using h.pend
    have hne : c ≠ .none := by rcases hlate with rfl | rfl <;> decide
    exact Stored.inv_failDone (s := { s with bitmaps := dropBitmap s.bitmaps d }) (h.stored.congr rfl rfl rfl) hne

/-- Settles O52, by the cases of a step: each effect leads from the invariant to the invariant. -/
theorem everyStepKeepsTheInvariant : Obligations.EveryStepKeepsTheInvariant := by
  intro s t h hstep
  obtain ⟨rest, -, hk⟩ := step_cases hstep
  exact hk.inv (h.observed rest s.rdData s.draws)

/-- Settles O51: the state after power-up is a state just reset. -/
theorem invariantHoldsAtReset : Obligations.InvariantHoldsAtReset :=
  ⟨fun cfg => inv_reset (s := State.resetWith cfg) rfl rfl, rfl⟩

/-! ### What a run cannot change -/

theorem CoreKind.descriptor (hk : CoreKind s t) : t.src = s.src ∧ t.palette = s.palette ∧ t.cfg = s.cfg := by
  cases hk <;> simp

theorem StepKind.descriptor (hk : StepKind s t) (hb : s.status.busy = true) (hp : s.status.phase ≠ .idle) :
    t.src = s.src ∧ t.palette = s.palette ∧ t.cfg = s.cfg := by
  cases hk with
  | core hc => exact hc.descriptor
  | start hidle => exact absurd hidle hp
  | reset hidle => exact absurd hidle hp
  | write r d => simp [regWrite_of_busy hb]
  | denied => simp [Machine.denied]
  | _ => exact ⟨rfl, rfl, rfl⟩

/-- Settles O55: BUSY leaves no START and no reset, and a write is ignored. -/
theorem aRunSeesOneConstantDescriptor : Obligations.ARunSeesOneConstantDescriptor := by
  intro s t h hb hstep
  obtain ⟨rest, -, hk⟩ := step_cases hstep
  exact hk.descriptor hb (h.busy.1 hb)

end Sys2Proof.Machine
end

section
/-! Pixel memory in a core step (20_memory.md R69, R71): the only effect that writes memory is the pixel step, and it
writes the three bytes of its output pixel. -/

namespace Sys2Proof.Machine

variable {s t : State} {a : Nat}

theorem putPixel_get_other {y x : Nat} {p : Rgb} {m : Memory} (h : putPixel s y x p = .ok m)
    (ha : ∀ k, k < 3 → a ≠ dstAddr s y (3 * x + k)) : m.get a = s.mem.get a := by
  obtain ⟨-, hr, hg, hb, -⟩ := layout_offsets s.cfg.layout
  unfold putPixel at h
  split at h
  · cases h
    rw [Memory.get_put_other _ _ (ha _ hb), Memory.get_put_other _ _ (ha _ hg), Memory.get_put_other _ _ (ha _ hr)]
  · cases h

theorem CoreKind.mem_of_not_convert (hk : CoreKind s t) (hp : s.status.phase ≠ .convert) : t.mem = s.mem := by
  cases hk with
  | pixel _ _ _ _ hat => exact absurd hat.convert hp
  | _ => simp

theorem CoreKind.get_other (hk : CoreKind s t)
    (ha : ∀ k, k < 3 → a ≠ dstAddr s s.seqRow.toNat (3 * s.seqCol.toNat + k)) : t.mem.get a = s.mem.get a := by
  cases hk with
  | pixel _ _ _ _ _ _ _ hput => exact putPixel_get_other hput ha
  | _ => simp

/-- Settles O56, by the cases of a core step. -/
theorem coreStepsWriteOnlyThePixelInHand : Obligations.CoreStepsWriteOnlyThePixelInHand := by
  intro s t rest hcore hstep
  rw [step_core hcore] at hstep
  have hk := core_cases hstep
  exact ⟨fun hp => hk.mem_of_not_convert hp, fun _ ha => hk.get_other ha⟩

end Sys2Proof.Machine
end

section
/-! Single-byte accesses to pixel memory (20_memory.md R79): the checks of a memory move are the rows of the run as
the spec describes them, and what a step is for an access they refuse and for one they allow. -/

namespace Sys2Proof.Machine

variable {s : State} {rest : List Move} {a : Nat} {b : Byte}

theorem inSource_iff : inSource s a = true ↔ sourceRowByte s a := by
  simp only [inSource, sourceRowByte_iff, Bool.and_eq_true, decide_eq_true_eq, List.any_eq_true, List.mem_range]
  constructor
  · rintro ⟨-, y, hy, hlo, hhi⟩
    exact ⟨y, hy, hlo, hhi⟩
  · rintro ⟨y, hy, hlo, hhi⟩
    exact ⟨by omega, y, hy, hlo, hhi⟩

/-- The rows of the destination lie one behind the other, so that together they are one block. -/
theorem inDest_iff : inDest s a = true ↔ destRowByte s a := by
  simp only [inDest, destRowByte, Bool.and_eq_true, decide_eq_true_eq]
  constructor
  · rintro ⟨hlo, hhi⟩
    have hblock : a - s.dst.base.toNat < s.dst.height.toNat * s.dst.pitch.toNat := by omega
    have hpitch : 0 < s.dst.pitch.toNat := Nat.pos_of_lt_mul_left hblock
    have hsplit := Nat.div_add_mod' (a - s.dst.base.toNat) s.dst.pitch.toNat
    exact ⟨_, (a - s.dst.base.toNat) % s.dst.pitch.toNat, Nat.div_lt_of_lt_mul (by rwa [Nat.mul_comm]),
      Nat.mod_lt _ hpitch, by omega⟩
  · rintro ⟨y, k, hy, hk, rfl⟩
    have hrow : (y + 1) * s.dst.pitch.toNat ≤ s.dst.height.toNat * s.dst.pitch.toNat := Nat.mul_le_mul_right _ hy
    rw [Nat.succ_mul] at hrow
    omega

/-- A write is refused exactly at the rows of a run in progress. -/
theorem memoryWrite_refused (ha : a < memoryBytes) (h : s.status.busy = true ∧ (sourceRowByte s a ∨ destRowByte s a)) :
    memoryWrite a b s = .refused (.hostTouchesRun a) := by
  rw [← inSource_iff, ← inDest_iff, ← Bool.or_eq_true, ← Bool.and_eq_true] at h
  rw [memoryWrite, if_neg (by omega), if_pos h]

theorem memoryWrite_allowed (ha : a < memoryBytes)
    (h : ¬(s.status.busy = true ∧ (sourceRowByte s a ∨ destRowByte s a))) :
    memoryWrite a b s = .next { s with mem := s.mem.put a b } := by
  rw [← inSource_iff, ← inDest_iff, ← Bool.or_eq_true, ← Bool.and_eq_true] at h
  rw [memoryWrite, if_neg (by omega), if_neg h]

theorem memoryRead_refused (ha : a < memoryBytes) (h : s.status.busy = true ∧ destRowByte s a) :
    memoryRead a s = .refused (.hostTouchesRun a) := by
  rw [← inDest_iff, ← Bool.and_eq_true] at h
  rw [memoryRead, if_neg (by omega), if_pos h]

theorem memoryRead_allowed (ha : a < memoryBytes) (h : ¬(s.status.busy = true ∧ destRowByte s a)) :
    memoryRead a s = .next { s with rdData := some ((s.mem.get a).setWidth 32) } := by
  rw [← inDest_iff, ← Bool.and_eq_true] at h
  rw [memoryRead, if_neg (by omega), if_neg h]

/-- Settles O41: the rows do not depend on the moves still to come, so each access is its memory operation. -/
theorem hostCannotTouchTheRowsOfARun : Obligations.HostCannotTouchTheRowsOfARun := by
  intro s rest a b ha hwf
  refine ⟨fun hm => ?_, fun hm => ?_⟩ <;> rw [step_move hm]
  · refine ⟨memoryWrite_refused (s := { s with moves := rest }) ha, fun h =>
      ⟨_, memoryWrite_allowed (s := { s with moves := rest }) ha h, rfl, Memory.get_put_same hwf a b, fun _ hne =>
        Memory.get_put_other _ _ hne⟩⟩
  · rw [BitVec.ofNat_toNat]
    exact ⟨memoryRead_refused (s := { s with moves := rest }) ha, memoryRead_allowed (s := { s with moves := rest }) ha⟩

end Sys2Proof.Machine
end

section
/-! A pixel with a byte outside pixel memory (20_memory.md R74): the bytes that the reads of a pixel touch, that a read
of a byte outside fails with the address of such a byte, and what the pixel step then is. -/

namespace Sys2Proof.Machine

variable {s : State} {y x k idx : Nat} {ks js : List Nat} {op : Op} {α β : Type}

/-! ### Which bytes a read touches -/

/-- `e` is the outcome of reading the bytes `ks` of source row `y`: it has a value only where all of them lie inside
pixel memory, and otherwise names one that does not. -/
def ReadsBytes (s : State) (y : Nat) (ks : List Nat) (e : Except Fault α) : Prop :=
  match e with
  | .ok _ => ∀ k ∈ ks, sourceInside s y k
  | .error f => ∃ k ∈ ks, ¬ sourceInside s y k ∧ f = .addressOutOfRange (srcAddr s y k)

theorem ReadsBytes.bind {e : Except Fault α} {f : α → Except Fault β} (he : ReadsBytes s y ks e)
    (hf : ∀ v, ReadsBytes s y js (f v)) : ReadsBytes s y (ks ++ js) (e >>= f) := by
  cases e with
  | error g =>
    obtain ⟨k, hk, hout⟩ := he
    exact ⟨k, List.mem_append_left _ hk, hout⟩
  | ok v =>
    have hv := hf v
    change ReadsBytes s y (ks ++ js) (f v)
    cases hfv : f v with
    | error g =>
      rw [hfv] at hv
      obtain ⟨k, hk, hout⟩ := hv
      exact ⟨k, List.mem_append_right _ hk, hout⟩
    | ok w =>
      rw [hfv] at hv
      exact fun k hk => (List.mem_append.1 hk).elim (he k) (hv k)

theorem ReadsBytes.map {e : Except Fault α} {g : α → β} (he : ReadsBytes s y ks e) :
    ReadsBytes s y ks (e >>= fun v => .ok (g v)) := by
  cases e with
  | error f => exact he
  | ok v => exact he

theorem srcByte_reads (s : State) (y k : Nat) : ReadsBytes s y [k] (srcByte s y k) := by
  unfold srcByte
  split
  · next h => exact List.forall_mem_singleton.2 h
  · next h => exact ⟨k, List.mem_singleton_self k, h, rfl⟩

theorem srcBytes_reads (s : State) (y k n : Nat) : ReadsBytes s y (List.range' k n) (srcBytes s y k n) := by
  induction n generalizing k with
  | zero => exact List.forall_mem_nil _
  | succ n ih => exact (srcByte_reads s y k).bind fun _ => (ih (k + 1)).map

theorem ch16_reads (s : State) (y k : Nat) : ReadsBytes s y [k, k + 1] (ch16 s y k) := (srcBytes_reads s y k 2).map

theorem toneAt_reads (s : State) (y k draw : Nat) :
    ReadsBytes s y (List.range' k (sampleBytes s.cfg.fw)) (toneAt s y k draw) := (srcBytes_reads s y k _).map.map

theorem truncTriple_reads (s : State) (y k : Nat) :
    ReadsBytes s y [k, k + 1, k + 2, k + 3, k + 4, k + 5] (truncTriple s y k) :=
  (ch16_reads s y k).bind fun _ => (ch16_reads s y (k + 2)).bind fun _ => (ch16_reads s y (k + 4)).map

/-- The bytes of the three float samples from byte `k` of a row. -/
def tripleBytes (fw : FloatWidth) (k : Nat) : List Nat :=
  List.range' k (sampleBytes fw) ++
    (List.range' (k + sampleBytes fw) (sampleBytes fw) ++ List.range' (k + 2 * sampleBytes fw) (sampleBytes fw))

theorem toneTriple_reads (s : State) (y k : Nat) : ReadsBytes s y (tripleBytes s.cfg.fw k) (toneTriple s y k) :=
  (toneAt_reads s y k _).bind fun _ => (toneAt_reads s y _ _).bind fun _ => (toneAt_reads s y _ _).map

theorem mem_tripleBytes {fw : FloatWidth} {j : Nat} : j ∈ tripleBytes fw k ↔ k ≤ j ∧ j < k + 3 * sampleBytes fw := by
  simp only [tripleBytes, List.mem_append, List.mem_range'_1]
  omega

/-- The bytes of the source row that the reads of pixel `x` touch (30_encoding.md R105 to R111). -/
def pixelBytes (cfg : Config) (op : Op) (x : Nat) : List Nat :=
  match op with
  | .unpack1 => [x / 8]
  | .unpack4 => [x / 2]
  | .unpack8 => [x]
  | .unpack555 | .unpack565 => [2 * x, 2 * x + 1]
  | .copy32 => [4 * x + offR cfg.layout, 4 * x + offG cfg.layout, 4 * x + offB cfg.layout]
  | .truncRgb16 => [6 * x, 6 * x + 1, 6 * x + 2, 6 * x + 3, 6 * x + 4, 6 * x + 5]
  | .truncRgba16 => [8 * x, 8 * x + 1, 8 * x + 2, 8 * x + 3, 8 * x + 4, 8 * x + 5]
  | .toneRgbf => tripleBytes cfg.fw (3 * sampleBytes cfg.fw * x)
  | .toneRgbaf => tripleBytes cfg.fw (4 * sampleBytes cfg.fw * x)

theorem pixelFn_reads (op : Op) (s : State) (y x : Nat) :
    ReadsBytes s y (pixelBytes s.cfg op x) (pixelFn op s y x) := by
  cases op with
  | unpack1 => exact (srcByte_reads s y _).map.map
  | unpack4 => exact (srcByte_reads s y _).map.map
  | unpack8 => exact (srcByte_reads s y _).map.map
  | unpack555 => exact (ch16_reads s y _).map
  | unpack565 => exact (ch16_reads s y _).map
  | copy32 =>
    exact ((srcByte_reads s y _).bind fun _ => (srcByte_reads s y _).bind fun _ => (srcByte_reads s y _).map).map
  | truncRgb16 => exact (truncTriple_reads s y _).map
  | truncRgba16 => exact (truncTriple_reads s y _).map
  | toneRgbf => exact (toneTriple_reads s y _).map
  | toneRgbaf => exact (toneTriple_reads s y _).map

theorem sampleBytes_pos (fw : FloatWidth) : 0 < sampleBytes fw := by cases fw <;> decide

theorem lastByte_mem_pixelBytes (cfg : Config) (op : Op) (x : Nat) : lastByte cfg.fw op x ∈ pixelBytes cfg op x := by
  have hn := sampleBytes_pos cfg.fw
  cases op with
  | toneRgbf => exact mem_tripleBytes.2 (by simp only [lastByte]; omega)
  | toneRgbaf => exact mem_tripleBytes.2 (by simp only [lastByte]; omega)
  | copy32 =>
    obtain ⟨hoff, -⟩ := layout_offsets cfg.layout
    have := hoff 2 (by omega)
    simp only [lastByte, pixelBytes, List.mem_cons, List.not_mem_nil, or_false]
    omega
  | _ => simp [lastByte, pixelBytes]

theorem pixelBytes_bounds {cfg : Config} (h : k ∈ pixelBytes cfg op x) :
    firstByte cfg.fw op x ≤ k ∧ k ≤ lastByte cfg.fw op x := by
  have hn := sampleBytes_pos cfg.fw
  cases op with
  | toneRgbf => have := mem_tripleBytes.1 h; simp only [firstByte, lastByte]; omega
  | toneRgbaf => have := mem_tripleBytes.1 h; simp only [firstByte, lastByte]; omega
  | copy32 =>
    obtain ⟨-, hr, hg, hb, -⟩ := layout_offsets cfg.layout
    simp only [pixelBytes, List.mem_cons, List.not_mem_nil, or_false] at h
    simp only [firstByte, lastByte]
    omega
  | _ =>
    simp only [pixelBytes, List.mem_cons, List.not_mem_nil, or_false] at h
    simp only [firstByte, lastByte]
    omega

/-- With a source byte outside pixel memory the reads fail on such a byte. -/
theorem pixelFn_sourceOutside (h : ¬ sourceInside s y (lastByte s.cfg.fw op x)) :
    ∃ k, firstByte s.cfg.fw op x ≤ k ∧ k ≤ lastByte s.cfg.fw op x ∧ ¬ sourceInside s y k ∧
      pixelFn op s y x = .error (.addressOutOfRange (srcAddr s y k)) := by
  have hreads := pixelFn_reads op s y x
  cases hpix : pixelFn op s y x with
  | ok q =>
    rw [hpix] at hreads
    exact absurd (hreads _ (lastByte_mem_pixelBytes s.cfg op x)) h
  | error f =>
    rw [hpix] at hreads
    obtain ⟨k, hk, hout, rfl⟩ := hreads
    obtain ⟨hlo, hhi⟩ := pixelBytes_bounds hk
    exact ⟨k, hlo, hhi, hout, rfl⟩

theorem pixelFn_sourceInside (h : sourceInside s y (lastByte s.cfg.fw op x)) : ∃ q, pixelFn op s y x = .ok q := by
  have hreads := pixelFn_reads op s y x
  cases hpix : pixelFn op s y x with
  | ok q => exact ⟨q, rfl⟩
  | error f =>
    rw [hpix] at hreads
    obtain ⟨k, hk, hout, -⟩ := hreads
    exact absurd (sourceInside_mono h (pixelBytes_bounds hk).2) hout

/-! ### What the reads give -/

theorem lookup_badIndex (h : palLen s ≤ idx) : lookup s idx = .badIndex := if_pos h

theorem lookup_rgb (h : ¬ palLen s ≤ idx) : ∃ p n, lookup s idx = .rgb p n := ⟨_, _, if_neg h⟩

theorem idx1_ok (h : sourceInside s y (x / 8)) : idx1 s y x = .ok (pixelIndex .unpack1 s y x) := by
  simp [idx1, srcByte_ok h, pixelIndex, bind, Except.bind, Nat.shiftRight_eq_div_pow]

theorem idx4_ok (h : sourceInside s y (x / 2)) : idx4 s y x = .ok (pixelIndex .unpack4 s y x) := by
  have hlow (n : Nat) : n &&& 15 = n % 16 := Nat.and_two_pow_sub_one_eq_mod n 4
  simp [idx4, srcByte_ok h, pixelIndex, bind, Except.bind, Nat.shiftRight_eq_div_pow, hlow]

theorem idx8_ok (h : sourceInside s y x) : idx8 s y x = .ok (pixelIndex .unpack8 s y x) := by
  simp [idx8, srcByte_ok h, pixelIndex, bind, Except.bind]

/-- An indexed operation looks up the index that the spec's formula decodes. -/
theorem pixelFn_indexed (hop : op ∈ [Op.unpack1, .unpack4, .unpack8])
    (h : sourceInside s y (lastByte s.cfg.fw op x)) : pixelFn op s y x = .ok (lookup s (pixelIndex op s y x)) := by
  simp only [List.mem_cons, List.not_mem_nil, or_false] at hop
  rcases hop with rfl | rfl | rfl
  · rw [pixelFn, pixelUnpack1, idx1_ok h]; rfl
  · rw [pixelFn, pixelUnpack4, idx4_ok h]; rfl
  · rw [pixelFn, pixelUnpack8, idx8_ok (x := x) h]; rfl

theorem rgb_of_bind {e : Except Fault α} {g : α → Rgb} {n : Nat} {q : Pixel}
    (h : (e >>= fun v => .ok (.rgb (g v) n)) = .ok q) : ∃ p n, q = .rgb p n := by
  cases e with
  | error f => cases h
  | ok v => cases h; exact ⟨_, _, rfl⟩

/-- Only the indexed operations have a guard. -/
theorem pixelFn_direct {q : Pixel} (hop : op ∉ [Op.unpack1, .unpack4, .unpack8]) (h : pixelFn op s y x = .ok q) :
    ∃ p n, q = .rgb p n := by
  cases op with
  | unpack1 | unpack4 | unpack8 => simp at hop
  | _ => exact rgb_of_bind h

theorem pixelFn_rgb (h : sourceInside s y (lastByte s.cfg.fw op x))
    (hguard : ¬(op ∈ [Op.unpack1, .unpack4, .unpack8] ∧ palLen s ≤ pixelIndex op s y x)) :
    ∃ p n, pixelFn op s y x = .ok (.rgb p n) := by
  by_cases hop : op ∈ [Op.unpack1, .unpack4, .unpack8]
  · obtain ⟨p, n, hlook⟩ := lookup_rgb fun hbad => hguard ⟨hop, hbad⟩
    exact ⟨p, n, by rw [pixelFn_indexed hop h, hlook]⟩
  · obtain ⟨q, hq⟩ := pixelFn_sourceInside h
    obtain ⟨p, n, rfl⟩ := pixelFn_direct hop hq
    exact ⟨p, n, hq⟩

/-! ### The pixel step -/

theorem pixelStep_error {pix : PixelFn} {f : Fault} (h : pix s s.seqRow.toNat s.seqCol.toNat = .error f) :
    pixelStep pix s = .fault f := by
  simp only [pixelStep, h]

theorem pixelStep_badIndex {pix : PixelFn} (h : pix s s.seqRow.toNat s.seqCol.toNat = .ok .badIndex) :
    pixelStep pix s = .next (raiseFail .paletteIndex s) := by
  simp only [pixelStep, h]

theorem pixelStep_outputOutside {pix : PixelFn} {p : Rgb} {n : Nat} (ho : ¬ outputInside s)
    (h : pix s s.seqRow.toNat s.seqCol.toNat = .ok (.rgb p n)) :
    pixelStep pix s = .fault (.addressOutOfRange (pixelTop s s.seqRow.toNat s.seqCol.toNat)) := by
  have hput : putPixel s s.seqRow.toNat s.seqCol.toNat p =
      .error (.addressOutOfRange (pixelTop s s.seqRow.toNat s.seqCol.toNat)) := if_neg ho
  simp only [pixelStep, h, hput]

/-- Settles O27: the reads come first, then the palette guard, then the write, and each stops the pixel step before
anything is written. -/
theorem pixelOutsideMemoryIsNotWritten : Obligations.PixelOutsideMemoryIsNotWritten := by
  intro s i op hop hat
  rw [exec_atPixel hop hat]
  refine ⟨fun hsrc => ?_, fun hsrc hout => ⟨?_, fun hguard => ?_⟩⟩
  · obtain ⟨k, hlo, hhi, hk, hpix⟩ := pixelFn_sourceOutside hsrc
    exact ⟨k, hlo, hhi, hk, pixelStep_error hpix⟩
  · rintro ⟨hidx, hbad⟩
    have hpix := pixelFn_indexed hidx hsrc
    rw [lookup_badIndex hbad] at hpix
    exact ⟨_, pixelStep_badIndex hpix, raiseFail_held (.inr hat.convert)⟩
  · obtain ⟨p, n, hpix⟩ := pixelFn_rgb hsrc hguard
    exact pixelStep_outputOutside hout hpix

end Sys2Proof.Machine
end

section
/-! The opcode map (30_encoding.md R113 to R117): the field values that select each row, decoding against the encoder,
against the masks of the map and against the reserved words. -/

namespace Sys2Proof

/-- The field values of a dispatch word that select the row of an instruction and give it its open fields
(30_encoding.md R115). START has no dispatch word. -/
def Instr.SelectedBy (present type bpp : Nat) (is565 : Bool) : Instr → Prop
  | .rejectNull t b m => present = 0 ∧ t = type ∧ b = bpp ∧ m = is565
  | .unpack1 m => present = 1 ∧ type = 1 ∧ bpp = 1 ∧ m = is565
  | .unpack4 m => present = 1 ∧ type = 1 ∧ bpp = 4 ∧ m = is565
  | .unpack8 m => present = 1 ∧ type = 1 ∧ bpp = 8 ∧ m = is565
  | .unpack555 => present = 1 ∧ type = 1 ∧ bpp = 16 ∧ is565 = false
  | .unpack565 => present = 1 ∧ type = 1 ∧ bpp = 16 ∧ is565 = true
  | .clone24 m => present = 1 ∧ type = 1 ∧ bpp = 24 ∧ m = is565
  | .copy32 m => present = 1 ∧ type = 1 ∧ bpp = 32 ∧ m = is565
  | .truncRgb16 b m => present = 1 ∧ type = 2 ∧ b = bpp ∧ m = is565
  | .truncRgba16 b m => present = 1 ∧ type = 3 ∧ b = bpp ∧ m = is565
  | .toneRgbf b m => present = 1 ∧ type = 4 ∧ b = bpp ∧ m = is565
  | .toneRgbaf b m => present = 1 ∧ type = 5 ∧ b = bpp ∧ m = is565
  | .start _ => False

variable {p t b : Nat} {m : Bool} {i : Instr}

theorem decodeFields_of_selectedBy (h : i.SelectedBy p t b m) : decodeFields p t b m = .ok i := by
  cases i with
  | start n => exact h.elim
  | _ => obtain ⟨rfl, rfl, rfl, rfl⟩ := h; rfl

theorem selectedBy_of_decodeFields (hp : p < 2) (h : decodeFields p t b m = .ok i) : i.SelectedBy p t b m := by
  obtain rfl | rfl : p = 0 ∨ p = 1 := by omega
  · cases h
    exact ⟨rfl, rfl, rfl, rfl⟩
  · simp only [decodeFields, decodeStd] at h
    split_ifs at h <;> cases h <;> simp_all [Instr.SelectedBy]

theorem decodeFields_eq_ok_iff (hp : p < 2) : decodeFields p t b m = .ok i ↔ i.SelectedBy p t b m :=
  ⟨selectedBy_of_decodeFields hp, decodeFields_of_selectedBy⟩

theorem decodeStd_ne_unsupportedType : decodeStd b m ≠ .error .unsupportedType := by
  unfold decodeStd
  split_ifs <;> simp

theorem decodeStd_eq_unsupportedDepth_iff :
    decodeStd b m = .error .unsupportedDepth ↔ b ∉ [1, 4, 8, 16, 24, 32] := by
  unfold decodeStd
  split_ifs <;> simp [*]

theorem decodeFields_eq_unsupportedType_iff :
    decodeFields p t b m = .error .unsupportedType ↔ p ≠ 0 ∧ t ∉ [1, 2, 3, 4, 5] := by
  unfold decodeFields
  split_ifs <;> simp [*, decodeStd_ne_unsupportedType]

theorem decodeFields_eq_unsupportedDepth_iff :
    decodeFields p t b m = .error .unsupportedDepth ↔ p ≠ 0 ∧ t = 1 ∧ b ∉ [1, 4, 8, 16, 24, 32] := by
  unfold decodeFields
  split_ifs <;> simp [*, decodeStd_eq_unsupportedDepth_iff]

theorem decode_dispatch (w : Word) : decode .dispatch w =
    decodeFields (w.toNat % 2) (w.toNat / 16 % 16) (w.toNat / 256 % 256) (w.toNat / 65536 % 2 == 1) := by
  simp [decode, field]

theorem decode_ctrl_eq_start_iff (d : Word) : (∃ n, decode .ctrl d = .ok (.start n)) ↔ d.toNat % 2 = 1 := by
  rw [decode_ctrl]
  split <;> simp [*]

/-- Settles O1: each word is packed from field values that select the instruction's own row. -/
theorem decodeInvertsEncode : Obligations.DecodeInvertsEncode := by
  intro i hwf
  cases i with
  | start n =>
    have hn : n < 2147483648 := of_decide_eq_true hwf
    have hword : (BitVec.ofNat 32 (1 + 2 * n)).toNat = 1 + 2 * n := by rw [BitVec.toNat_ofNat]; omega
    rw [encode, decode_ctrl, hword, if_pos (by omega), show (1 + 2 * n) / 2 = n by omega]
  | rejectNull t b m =>
    simp only [Instr.wellFormed, Bool.and_eq_true, decide_eq_true_eq] at hwf
    exact decode_packDispatch 0 t b m (by omega) hwf.1 hwf.2
  | truncRgb16 b m | truncRgba16 b m | toneRgbf b m | toneRgbaf b m =>
    exact decode_packDispatch 1 _ b m (by omega) (by omega) (of_decide_eq_true hwf)
  | _ => exact decode_packDispatch 1 1 _ _ (by omega) (by omega) (by omega)

/-- Settles O2: what a mask leaves of the word is a sum of fields, each below the weight of the next, so that it is the
match exactly for the row's field values. -/
theorem opcodeMapSelectsByMaskAndMatch : Obligations.OpcodeMapSelectsByMaskAndMatch := by
  intro w
  obtain ⟨p, t, b, m, hp, ht, hb, hdec, h1, hF1, hFFF1, h1FFF1⟩ := decode_fields w
  have hctrl : w.toNat % 2 = p := by rw [← h1, BitVec.toNat_and]; exact (Nat.and_one_is_mod _).symm
  have hm := m.toNat_lt
  simp only [decode_ctrl_eq_start_iff, hctrl, hdec, decodeFields_eq_ok_iff hp, Instr.SelectedBy, exists_and_left,
    exists_eq, and_true, ← Bool.toNat_eq_zero (b := m), ← Bool.toNat_eq_one (b := m), ← BitVec.toNat_inj, h1, hF1,
    hFFF1, h1FFF1, BitVec.reduceToNat]
  exact ⟨trivial, by omega, by omega, by omega, by omega, by omega, by omega, by omega, by omega, by omega, by omega,
    by omega⟩

/-- Settles O3: the fields of R116 and R117 are the ones that no row of the map has. -/
theorem reservedDispatchWordsAreRejectedByName : Obligations.ReservedDispatchWordsAreRejectedByName := by
  intro w
  rw [decode_dispatch, decodeFields_eq_unsupportedType_iff, decodeFields_eq_unsupportedDepth_iff, Nat.mod_two_ne_zero]
  exact ⟨Iff.rfl, Iff.rfl⟩

/-- Settles O4, word by word. -/
theorem wordsOfTheOpcodeTableDecode : Obligations.WordsOfTheOpcodeTableDecode :=
  ⟨rfl, rfl, rfl, rfl, rfl, rfl, rfl, rfl, rfl, rfl, rfl, rfl, rfl, rfl, rfl⟩

end Sys2Proof
end

section
/-! The dispatch word of a descriptor (30_encoding.md R113, R114), and the descriptor and the move that place a table
word in the machine (assumption log 19, 20). -/

namespace Sys2Proof

variable {nbits w : Nat} {i : Instr}

theorem decode_dispatch_ne_start (w : Word) (n : Nat) : decode .dispatch w ≠ .ok (.start n) := by
  rw [decode_dispatch, Ne, decodeFields_eq_ok_iff (Nat.mod_lt _ two_pos)]
  exact id

theorem decode_ctrl_eq_ok {d : Word} (h : decode .ctrl d = .ok i) : ∃ n, i = .start n := by
  rw [decode_ctrl] at h
  split at h <;> cases h
  exact ⟨_, rfl⟩

theorem decodeTableWord_eq_some (h : decodeTableWord nbits w = some i) :
    decode .dispatch (tableWord nbits w) = .ok i ∨ decode .ctrl (tableWord nbits w) = .ok i := by
  unfold decodeTableWord at h
  split at h
  · next hd => cases h; exact .inl hd
  · split at h
    · next hc => cases h; exact .inr hc
    · cases h

/-- A word of the opcode map is START's by the data of a CTRL write and every other row's by the dispatch word. -/
theorem decode_of_decodeTableWord (h : decodeTableWord nbits w = some i) :
    (∃ n, i = .start n ∧ decode .ctrl (tableWord nbits w) = .ok i) ∨
    ((∀ n, i ≠ .start n) ∧ decode .dispatch (tableWord nbits w) = .ok i) := by
  rcases decodeTableWord_eq_some h with hd | hc
  · exact .inr ⟨fun n e => decode_dispatch_ne_start _ n (e ▸ hd), hd⟩
  · obtain ⟨n, rfl⟩ := decode_ctrl_eq_ok hc
    exact .inl ⟨n, rfl, hc⟩

namespace Machine

variable {s t : State} {rest : List Move} {d : Word}

theorem is565_iff :
    is565 s = true ↔ s.src.rmask = 0x0000F800 ∧ s.src.gmask = 0x000007E0 ∧ s.src.bmask = 0x0000001F := by
  simp only [is565, Bool.and_eq_true, beq_iff_eq, and_assoc]

theorem toNat_and_FFFF (d : Word) : (d &&& 0x0000FFFF).toNat = d.toNat % 65536 := by
  rw [BitVec.toNat_and]
  exact Nat.and_two_pow_sub_one_eq_mod d.toNat 16

theorem dispatchWord_of_is565 (h : is565 s = true) : dispatchWord s = (s.src.fmt &&& 0x0000FFFF) ||| 0x00010000 := by
  have hor := Nat.two_pow_add_eq_or_of_lt (i := 16) (Nat.mod_lt s.src.fmt.toNat (by decide)) 1
  refine BitVec.eq_of_toNat_eq ?_
  rw [dispatchWord_toNat, h, BitVec.toNat_or, toNat_and_FFFF, Nat.or_comm, Nat.add_comm]
  exact hor

theorem dispatchWord_of_not_is565 (h : ¬ is565 s = true) : dispatchWord s = s.src.fmt &&& 0x0000FFFF := by
  refine BitVec.eq_of_toNat_eq ?_
  rw [dispatchWord_toNat, Bool.eq_false_of_not_eq_true h, toNat_and_FFFF]
  rfl

/-- Settles O5 by the two values of IS565. -/
theorem dispatchWordComesFromTheDescriptor : Obligations.DispatchWordComesFromTheDescriptor := by
  intro s
  rw [← is565_iff]
  exact ⟨dispatchWord_of_is565, dispatchWord_of_not_is565⟩

/-! ### Placing a table word -/

theorem describe_fmt (r : SrcRegs) (w : Word) (masked : Bool) : (describe r w masked).fmt = w &&& 0x0000FFF1 := by
  unfold describe
  split_ifs <;> rfl

/-- The masks of the descriptor are the 5-6-5 constants exactly where bit 16 of the word is set. -/
theorem is565_describe (h : t.src = describe s.src d (is565 s)) : is565 t = (field d 16 1 == 1) := by
  by_cases hbit : field d 16 1 = 1
  · rw [describe, if_pos hbit] at h
    simp [is565, h, hbit]
  · rw [describe, if_neg hbit] at h
    rw [beq_eq_false_iff_ne.2 hbit]
    by_cases hs : is565 s = true
    · rw [if_pos hs] at h
      simp [is565, h]
    · have hsame : is565 t = is565 s := by rw [is565, h, if_neg hs]; rfl
      exact hsame.trans (Bool.eq_false_of_not_eq_true hs)

theorem decode_dispatchWord_describe (h : t.src = describe s.src d (is565 s)) :
    decode .dispatch (dispatchWord t) = decode .dispatch d := by
  have hfmt : t.src.fmt.toNat = d.toNat % 2 + 16 * (d.toNat / 16 % 4096) := by
    rw [h, describe_fmt, BitVec.toNat_and]
    exact land_FFF1 d.toNat
  have hbit : (field d 16 1 == 1) = (d.toNat / 65536 % 2 == 1) := rfl
  rw [decode_dispatchWord, decode_dispatch, is565_describe h, hbit, hfmt]
  congr 1 <;> omega

theorem withFetchWord_start {n : Nat} (h : decodeTableWord nbits w = some (.start n)) :
    s.withFetchWord nbits w = { s with moves := .wr 0x000 (tableWord nbits w) :: s.moves } := by
  simp only [State.withFetchWord, placeWord, h]

theorem withFetchWord_dispatch (h : decodeTableWord nbits w = some i) (hi : ∀ n, i ≠ .start n) :
    s.withFetchWord nbits w =
      startRun { s with src := describe s.src (tableWord nbits w) (is565 s), moves := .core :: s.moves } := by
  unfold State.withFetchWord placeWord
  split
  · next n hn => exact absurd (Option.some.inj (h.symm.trans hn)) (hi n)
  · rfl

theorem step_write_ctrl (h : s.moves = .wr 0x000 d :: rest) (hd : decode .ctrl d = .ok i) :
    step s = exec i { s with moves := rest } := by
  have hctrl : Reg.ofOffset 0x000 = some .ctrl := ofOffset_ctrl_iff.2 rfl
  have hok : offsetOk 0x000 = true := offsetOk_iff.2 ⟨rfl, by decide⟩
  simp only [step_move h, moveStep, hostWrite, hok, hctrl, hd, if_true]

theorem coreStep_check (hp : s.status.phase = .check) (hd : decode .dispatch (dispatchWord s) = .ok i) :
    coreStep s = exec i s := by
  simp only [coreStep, hp, hd]

/-- Settles O8: START is the write to CTRL that heads the moves, every other row the dispatch word of the descriptor
in CHECK. -/
theorem placedWordIsRunByTheNextStep : Obligations.PlacedWordIsRunByTheNextStep := by
  intro s nbits w i h
  rcases decode_of_decodeTableWord h with ⟨n, rfl, hctrl⟩ | ⟨hi, hdisp⟩
  · rw [withFetchWord_start h]
    exact step_write_ctrl rfl hctrl
  · rw [withFetchWord_dispatch h hi, step_core (.inl rfl)]
    exact coreStep_check rfl ((decode_dispatchWord_describe rfl).trans hdisp)

end Machine

end Sys2Proof
end

section
/-! The pixel step of the palette-indexed operations (41_palette_unpacker.md R141 to R145): the guard releases the
destination, the lookup writes the colours of the entry. -/

namespace Sys2Proof.Machine

variable {s : State} {i : Instr} {op : Op}

/-- A byte of the colours is the low 8 bits of its quotient (10_state.md R45). -/
theorem entryRgb_eq (e : BitVec 24) : entryRgb e = ⟨BitVec.ofNat 8 (e.toNat / 65536 % 256),
    BitVec.ofNat 8 (e.toNat / 256 % 256), BitVec.ofNat 8 (e.toNat % 256)⟩ := by
  have hlow (n : Nat) : BitVec.ofNat 8 (n % 256) = BitVec.ofNat 8 n := BitVec.eq_of_toNat_eq (by simp)
  simp only [hlow, entryRgb]

theorem lookup_of_lt {idx : Nat} (h : idx < palLen s) :
    lookup s idx = .rgb (entryRgb (s.palette.read s.draws idx)) (s.palette.drawsAfter s.draws idx) :=
  if_neg (Nat.not_le.2 h)

/-- An indexed operation at a pixel with its bytes inside pixel memory is guarded by the index it decodes. -/
theorem guardedPixel_indexed (hi : convertingOp i = some op) (hop : op ∈ [Op.unpack1, .unpack4, .unpack8])
    (hat : AtPixel s) (hwf : s.mem.wf = true) (hout : outputInside s)
    (hsrc : sourceInside s s.seqRow.toNat (lastByte s.cfg.fw op s.seqCol.toNat)) :
    GuardedPixel i s (pixelIndex op s s.seqRow.toNat s.seqCol.toNat) := by
  have hpix := pixelFn_indexed hop hsrc
  rw [GuardedPixel, exec_atPixel hi hat]
  constructor
  · intro hbad
    rw [lookup_badIndex hbad] at hpix
    exact ⟨_, pixelStep_badIndex hpix, raiseFail_held (.inr hat.convert)⟩
  · intro hidx
    rw [lookup_of_lt hidx, entryRgb_eq] at hpix
    exact pixelStep_written hwf hout hpix

/-- Settles O19: the index is the one that UNPACK1's reads decode. -/
theorem unpack1ConvertsOnePixel : Obligations.Unpack1ConvertsOnePixel :=
  fun _ _ hat hwf hout hsrc => guardedPixel_indexed (op := .unpack1) rfl (by simp) hat hwf hout hsrc

/-- Settles O20: the index is the nibble that the parity of the column selects. -/
theorem unpack4ConvertsOnePixel : Obligations.Unpack4ConvertsOnePixel := by
  intro s m hat hwf hout hsrc
  have hguard := guardedPixel_indexed (i := .unpack4 m) (op := .unpack4) rfl (by simp) hat hwf hout hsrc
  rw [pixelIndex] at hguard
  refine ⟨fun heven => ?_, fun hodd => ?_⟩
  · rwa [if_pos heven] at hguard
  · rwa [if_neg (by omega)] at hguard

/-- Settles O21: the index is the byte itself. -/
theorem unpack8ConvertsOnePixel : Obligations.Unpack8ConvertsOnePixel :=
  fun _ _ hat hwf hout hsrc => guardedPixel_indexed (op := .unpack8) rfl (by simp) hat hwf hout hsrc

end Sys2Proof.Machine
end

section
/-! Who reads the palette (41_palette_unpacker.md R149): exchanging the LUT and PAL_LEN commutes with every
instruction but the indexed ones, whether its step ends in a next state or in a fault. -/

namespace Sys2Proof.Machine

/-- `s` with another palette and another PAL_LEN. -/
def withPalette (p : Palette) (len : Word) (s : State) : State :=
  { s with palette := p, src := { s.src with palLen := len } }

/-- The outcome with `g` applied to the next state, if there is one. -/
def mapNext (g : State → State) : Result → Result
  | .next s => .next (g s)
  | .fault f => .fault f
  | .refused r => .refused r

variable {p : Palette} {len : Word} {s : State} {op : Op} {i : Instr} {pix : PixelFn}

@[simp] theorem withPalette_cfg : (withPalette p len s).cfg = s.cfg := rfl
@[simp] theorem withPalette_status : (withPalette p len s).status = s.status := rfl
@[simp] theorem withPalette_seqRow : (withPalette p len s).seqRow = s.seqRow := rfl
@[simp] theorem withPalette_seqCol : (withPalette p len s).seqCol = s.seqCol := rfl
@[simp] theorem withPalette_draws : (withPalette p len s).draws = s.draws := rfl

/-! ### The reads of a pixel -/

theorem srcBytes_withPalette (y k n : Nat) : srcBytes (withPalette p len s) y k n = srcBytes s y k n := by
  induction n generalizing k with
  | zero => rfl
  | succ n ih =>
    rw [srcBytes, srcBytes, ih]
    rfl

theorem toneTriple_withPalette (y k : Nat) : toneTriple (withPalette p len s) y k = toneTriple s y k := by
  simp only [toneTriple, toneAt, sampleBits, srcBytes_withPalette, withPalette_cfg, withPalette_draws]

theorem pixelFn_withPalette (hop : op ∉ [Op.unpack1, .unpack4, .unpack8]) (y x : Nat) :
    pixelFn op (withPalette p len s) y x = pixelFn op s y x := by
  cases op with
  | unpack1 | unpack4 | unpack8 => simp at hop
  | unpack555 | unpack565 | copy32 | truncRgb16 | truncRgba16 => rfl
  | toneRgbf =>
    simp only [pixelFn, pixelToneRgbf, toneTriple_withPalette, withPalette_cfg]
    rfl
  | toneRgbaf =>
    simp only [pixelFn, pixelToneRgbaf, toneTriple_withPalette, withPalette_cfg]
    rfl

/-! ### The steps -/

theorem raiseFail_withPalette (c : Cause) : raiseFail c (withPalette p len s) = withPalette p len (raiseFail c s) := by
  cases hp : s.status.phase <;> simp only [raiseFail, withPalette_status, hp] <;> rfl

theorem pixelStep_withPalette (hpix : ∀ y x, pix (withPalette p len s) y x = pix s y x) :
    pixelStep pix (withPalette p len s) = mapNext (withPalette p len) (pixelStep pix s) := by
  have hput (y x : Nat) (q : Rgb) : putPixel (withPalette p len s) y x q = putPixel s y x q := rfl
  simp only [pixelStep, hpix, hput, withPalette_seqRow, withPalette_seqCol]
  cases pix s s.seqRow.toNat s.seqCol.toNat with
  | error f => rfl
  | ok q =>
    cases q with
    | badIndex => exact congrArg _ (raiseFail_withPalette _)
    | rgb q n => cases hm : putPixel s s.seqRow.toNat s.seqCol.toNat q <;> simp only [hm] <;> rfl

theorem convertStep_withPalette (hpix : ∀ y x, pix (withPalette p len s) y x = pix s y x) :
    convertStep pix (withPalette p len s) = mapNext (withPalette p len) (convertStep pix s) := by
  simp only [convertStep, apply_ite (mapNext (withPalette p len)), ← pixelStep_withPalette hpix]
  rfl

theorem convertingStep_withPalette (hpix : ∀ y x, pix (withPalette p len s) y x = pix s y x) :
    convertingStep op pix (withPalette p len s) = mapNext (withPalette p len) (convertingStep op pix s) := by
  simp only [convertingStep, withPalette_status]
  cases s.status.phase with
  | convert => exact convertStep_withPalette hpix
  | _ => rfl

theorem exec_withPalette (hi : convertingOp i ∉ [some Op.unpack1, some .unpack4, some .unpack8]) :
    exec i (withPalette p len s) = mapNext (withPalette p len) (exec i s) := by
  cases hop : convertingOp i with
  | some op =>
    rw [exec_converting hop, exec_converting hop]
    exact convertingStep_withPalette (pixelFn_withPalette (by simpa [hop] using hi))
  | none =>
    cases i with
    | rejectNull =>
      simp only [exec, execRejectNull, withPalette_status, raiseFail_withPalette]
      cases s.status.phase <;> rfl
    | clone24 =>
      simp only [exec, execClone24, withPalette_status]
      cases s.status.phase <;> rfl
    | start =>
      simp only [exec, execStart, withPalette_status]
      cases s.status.phase <;> rfl
    | _ => cases hop

/-- Settles O28: exchanging the LUT and PAL_LEN before the step is exchanging them after it. -/
theorem onlyIndexedOperationsReadThePalette : Obligations.OnlyIndexedOperationsReadThePalette := by
  intro s t i p len hi hexec
  exact (exec_withPalette hi).trans (congrArg _ hexec)

end Sys2Proof.Machine
end

section
/-! A whole conversion (45_dispatcher_sequencer.md R254 to R258, R261 to R263): core steps lead from (0,0) through the
rows to every position before which all pixels succeed, and from there to the result or to the release of the
destination. -/

namespace Sys2Proof.Machine

variable {s u v : State} {op : Op} {f : Nat → Nat → Rgb} {y x n : Nat}

/-- `u` has the descriptor, the palette and the configuration of `s`, and its memory but for the destination's pixel
bytes. -/
structure SameInputs (s u : State) : Prop where
  cfg : u.cfg = s.cfg
  src : u.src = s.src
  palette : u.palette = s.palette
  memory : ∀ a, ¬ destPixelByte s a → u.mem.get a = s.mem.get a

/-- The reads of pixel `(y, x)` give `f y x` whatever the pixel bytes of the destination hold. -/
def PixelFixed (s : State) (op : Op) (f : Nat → Nat → Rgb) (y x : Nat) : Prop :=
  ∀ u, SameInputs s u → ∃ n, pixelFn op u y x = .ok (.rgb (f y x) n)

/-- A conversion stands at row `y`, column `x`, with the flags it began with. -/
structure Reached (s u : State) (op : Op) (f : Nat → Nat → Rgb) (y x : Nat) : Prop extends
    ConversionAt s u op f y x where
  status : u.status = s.status

theorem Reached.sameInputs (hu : Reached s u op f y x) : SameInputs s u :=
  ⟨hu.cfg, hu.src, hu.pal, hu.toConversionAt.outside⟩

theorem Begins.reached (hb : Begins s op) : Reached s s op f 0 0 where
  cfg := rfl
  src := rfl
  dst := rfl
  pal := rfl
  phase := hb.phase
  op := hb.selected
  wf := hb.memory
  row := by rw [hb.row]; rfl
  col := by rw [hb.col]; rfl
  pixels := by simp [Before]
  others := fun _ _ => rfl
  status := rfl

/-! ### One step -/

theorem coreStep_op (hp : u.status.phase = .convert) (hop : u.op = some op) : coreStep u = exec op.instr u := by
  simp only [coreStep, hp, hop]

theorem coreStep_convert (hp : u.status.phase = .convert) (hop : u.op = some op) :
    coreStep u = convertStep (pixelFn op) u := by
  rw [coreStep_op hp hop, exec_converting (convertingOp_instr op)]
  simp only [convertingStep, hp]

theorem coreStep_badIndex (hat : AtPixel u) (hop : u.op = some op)
    (hbad : pixelFn op u u.seqRow.toNat u.seqCol.toNat = .ok .badIndex) :
    coreStep u = .next (raiseFail .paletteIndex u) := by
  rw [coreStep_op hat.convert hop, exec_atPixel (convertingOp_instr op) hat, pixelStep_badIndex hbad]

/-- A core step that stays in CONVERT changes no flag. -/
theorem CoreKind.status_of_convert (hk : CoreKind u v) (hu : u.status.phase = .convert)
    (hv : v.status.phase = .convert) : v.status = u.status := by
  cases hk with
  | stay => rfl
  | pixel => rfl
  | rowEnd => rfl
  | badIndex => simp [raiseFail_held (.inr hu)] at hv
  | done => simp at hv
  | failAtCheck _ hp | clone hp | alloc hp | select _ hp | noMatch hp => simp [hu] at hp

theorem Reached.step {y' x' : Nat} (hu : Reached s u op f y x) (hstep : coreStep u = .next v)
    (hv : ConversionAt s v op f y' x') : Reached s v op f y' x' :=
  ⟨hv, ((core_cases hstep).status_of_convert hu.phase hv.phase).trans hu.status⟩

theorem coreRun_snoc (hrun : coreRun n s = .next u) (hstep : coreStep u = .next v) :
    coreRun (n + 1) s = .next v := by
  rw [coreRun_add n 1 hrun, coreRun, hstep]
  rfl

/-! ### The way to a position -/

theorem Reached.pixels_of_row (hb : Begins s op) (hu : Reached s u op f y 0) (hy : y < s.src.height.toNat)
    (hx : x ≤ s.src.width.toNat) (hpix : ∀ x' < x, PixelFixed s op f y x') :
    ∃ v, coreRun x u = .next v ∧ Reached s v op f y x := by
  induction x with
  | zero => exact ⟨u, rfl, hu⟩
  | succ x ih =>
    obtain ⟨v, hrun, hv⟩ := ih (by omega) fun x' hx' => hpix x' (by omega)
    obtain ⟨w, hstep, hw⟩ := prog_pixel hb hv.toConversionAt (hpix x (by omega) v hv.sameInputs) hy hx
    exact ⟨w, coreRun_snoc hrun hstep, hv.step hstep hw⟩

theorem Begins.rows (hb : Begins s op) (hy : y ≤ s.src.height.toNat)
    (hpix : ∀ y' < y, ∀ x < s.src.width.toNat, PixelFixed s op f y' x) :
    ∃ v, coreRun (y * (s.src.width.toNat + 1)) s = .next v ∧ Reached s v op f y 0 := by
  induction y with
  | zero => exact ⟨s, by rw [Nat.zero_mul]; rfl, hb.reached⟩
  | succ y ih =>
    obtain ⟨u, hrun, hu⟩ := ih (by omega) fun y' hy' => hpix y' (by omega)
    obtain ⟨v, hrow, hv⟩ := hu.pixels_of_row hb hy le_rfl (hpix y (by omega))
    obtain ⟨w, hstep, hw⟩ := prog_rowEnd hv.toConversionAt hy
    refine ⟨w, ?_, hv.step hstep hw⟩
    rw [Nat.succ_mul, ← Nat.add_assoc]
    exact coreRun_snoc ((coreRun_add _ _ hrun).trans hrow) hstep

theorem Begins.position (hb : Begins s op) (hy : y < s.src.height.toNat) (hx : x ≤ s.src.width.toNat)
    (hpix : ∀ y' x', x' < s.src.width.toNat → Before y' x' y x → PixelFixed s op f y' x') :
    ∃ v, coreRun (y * (s.src.width.toNat + 1) + x) s = .next v ∧ Reached s v op f y x := by
  obtain ⟨u, hrows, hu⟩ := hb.rows hy.le fun y' hy' x' hx' => hpix y' x' hx' (.inl hy')
  obtain ⟨v, hrow, hv⟩ := hu.pixels_of_row hb hy hx fun x' hx' => hpix y x' (by omega) (.inr ⟨rfl, hx'⟩)
  exact ⟨v, (coreRun_add _ _ hrows).trans hrow, hv⟩

/-! ### The two ends of a conversion -/

theorem Reached.success (hu : Reached s u op f s.src.height.toNat 0) :
    coreStep u = .next (success u) ∧ Converted s (success u) f := by
  have hrow : u.seqRow = s.src.height := BitVec.eq_of_toNat_eq hu.row
  refine ⟨?_, rfl, ?_, hu.src, hrow, BitVec.eq_of_toNat_eq hu.col, fun y x hy hx => ?_, hu.toConversionAt.outside⟩
  · rw [coreStep_convert hu.phase hu.op, convertStep, if_pos (by rw [hrow, hu.src])]
  · rw [success_dst, hu.dst]
    rfl
  · exact hu.pixels y x hy hx (.inl hy)

/-- With every pixel fixed, `width * height` pixel steps, `height` row ends and the end step give the result. -/
theorem Begins.converted (hb : Begins s op)
    (hpix : ∀ y < s.src.height.toNat, ∀ x < s.src.width.toNat, PixelFixed s op f y x) :
    ∃ t, coreRun (s.src.height.toNat * (s.src.width.toNat + 1) + 1) s = .next t ∧ Converted s t f := by
  obtain ⟨u, hrun, hu⟩ := hb.rows le_rfl hpix
  obtain ⟨hstep, hres⟩ := hu.success
  exact ⟨_, coreRun_snoc hrun hstep, hres⟩

/-- Settles O59: the pixels before the offending one lead to its position, and its step is the failure entry. -/
theorem aConversionStopsAtItsFirstBadIndex : Obligations.AConversionStopsAtItsFirstBadIndex := by
  intro s op f y₀ x₀ hb hy hx hpix
  obtain ⟨u, hrun, hu⟩ := hb.position hy hx.le fun y x hlt hbefore v hv =>
    (hpix v y x hv.cfg hv.src hv.palette hv.memory hlt).1 hbefore
  have hat : AtPixel u := ⟨hu.phase, by rwa [hu.row, hu.src], by rwa [hu.col, hu.src]⟩
  have hbad : pixelFn op u u.seqRow.toNat u.seqCol.toNat = .ok .badIndex := by
    rw [hu.row, hu.col]
    exact (hpix u y₀ x₀ hu.cfg hu.src hu.pal hu.sameInputs.memory hx).2 ⟨rfl, rfl⟩
  have hbelow {y x : Nat} (hbefore : Before y x y₀ x₀) : y < s.src.height.toNat := by
    unfold Before at hbefore
    omega
  have hstep := coreStep_badIndex hat hu.op hbad
  rw [raiseFail_held (.inr hat.convert)] at hstep
  refine ⟨_, coreRun_snoc hrun hstep, ?_, rfl, ?_, hu.row, hu.col, hu.dst, hu.src, ?_, ?_⟩
  · simp only [hu.status]
  · simp only [hu.dst]
  · exact fun y x hlt hbefore => hu.pixels y x (hbelow hbefore) hlt hbefore
  · exact fun a ha => hu.others a fun y x k _ hlt hbefore hk => ha y x k hlt hbefore hk

/-! ### Palette fidelity -/

theorem lastByte_indexed (hop : op ∈ [Op.unpack1, .unpack4, .unpack8]) (fw : FloatWidth) (x : Nat) :
    lastByte fw op x = indexByte op x := by
  simp only [List.mem_cons, List.not_mem_nil, or_false] at hop
  rcases hop with rfl | rfl | rfl <;> rfl

/-- The index of a pixel depends on its index byte only. -/
theorem pixelIndex_congr (h : sourceByte u y (indexByte op x) = sourceByte s y (indexByte op x)) :
    pixelIndex op u y x = pixelIndex op s y x := by
  cases op with
  | unpack1 | unpack4 | unpack8 => simp only [pixelIndex, indexByte] at h ⊢; rw [h]
  | _ => rfl

/-- A written entry is looked up without a draw. -/
theorem lookup_written {idx : Nat} {e : BitVec 24} (hidx : idx < palLen s) (he : s.palette.get? idx = some e) :
    lookup s idx = .rgb (entryRgb e) s.draws := by
  simp [lookup_of_lt hidx, Palette.read, Palette.drawsAfter, he]

/-- An indexed pixel is fixed by its palette entry where its index byte is no pixel byte of the destination. -/
theorem pixelFixed_indexed {e : Nat → Nat → BitVec 24} (hop : op ∈ [Op.unpack1, .unpack4, .unpack8])
    (hsrc : sourceInside s y (indexByte op x)) (hapart : ¬ destPixelByte s (srcAddr s y (indexByte op x)))
    (hidx : pixelIndex op s y x < palLen s) (he : s.palette.get? (pixelIndex op s y x) = some (e y x)) :
    PixelFixed s op (fun y x => entryRgb (e y x)) y x := by
  intro u hu
  have hsame : pixelIndex op u y x = pixelIndex op s y x := by
    refine pixelIndex_congr ?_
    rw [sourceByte, hu.src]
    exact hu.memory _ hapart
  have hinside : sourceInside u y (lastByte u.cfg.fw op x) := by
    rw [lastByte_indexed hop, sourceInside, hu.src]
    exact hsrc
  have hlen : palLen u = palLen s := by rw [palLen, hu.src, palLen]
  refine ⟨u.draws, ?_⟩
  rw [pixelFn_indexed hop hinside, hsame, lookup_written (hlen ▸ hidx) (hu.palette ▸ he)]

/-- Settles O58: every pixel is fixed by its palette entry, so the conversion runs to the result. -/
theorem paletteFidelity : Obligations.PaletteFidelity := by
  intro s op e hop hb hpix
  simp only [← entryRgb_eq]
  refine hb.converted fun y hy x hx => ?_
  obtain ⟨hsrc, hapart, hidx, he⟩ := hpix y x hy hx
  exact pixelFixed_indexed hop hsrc hapart hidx he

end Sys2Proof.Machine
end

section
/-! The Packed 16-bit Unpacker (42_packed16_unpacker.md R160 to R166): the floor rescale of a channel, the fields of a
word by quotient and remainder, and the pixel that each of the two layouts writes. -/

namespace Sys2Proof.Machine

variable {s : State} {i : Instr} {op : Op} {y x w n c c' : Nat}

/-! ### The rescale -/

/-- The quotient is the floor of `c * 255 / n`, and a byte for every channel value up to `n` (R164, R165). -/
theorem rescale_floor (hn : 0 < n) (hc : c ≤ n) :
    n * (c * 255 / n) ≤ c * 255 ∧ c * 255 < n * (c * 255 / n + 1) ∧ c * 255 / n ≤ 255 :=
  ⟨Nat.mul_div_le _ _, Nat.lt_mul_div_succ _ hn, Nat.div_le_of_le_mul (Nat.mul_le_mul_right 255 hc)⟩

/-- One step of the channel adds 255 before the division, at least one whole `n`. -/
theorem rescale_strictMono (hn : 0 < n) (hn' : n ≤ 255) (h : c < c') : c * 255 / n < c' * 255 / n :=
  calc c * 255 / n < c * 255 / n + 1 := Nat.lt_succ_self _
    _ = (c * 255 + n) / n := (Nat.add_div_right _ hn).symm
    _ ≤ c' * 255 / n := Nat.div_le_div_right (by omega)

/-- Settles O43: both rescales are `c * 255 / n` with `n` at most 255. -/
theorem rescaleIsFloorDivision : Obligations.RescaleIsFloorDivision :=
  ⟨fun _ hc => rescale_floor (by decide) (Nat.le_of_lt_succ hc),
   fun _ hc => rescale_floor (by decide) (Nat.le_of_lt_succ hc),
   fun _ _ h => ⟨rescale_strictMono (by decide) (by decide) h, rescale_strictMono (by decide) (by decide) h⟩,
   rfl, rfl, rfl, rfl⟩

/-! ### The fields of a word -/

/-- Masking `n` bits that stand `k` up and shifting them down is division and remainder. -/
theorem land_shiftRight_eq_div_mod (w n k : Nat) : (w &&& (2 ^ n - 1) <<< k) >>> k = w / 2 ^ k % 2 ^ n := by
  rw [Nat.shiftRight_and_distrib, Nat.shiftLeft_shiftRight, Nat.and_two_pow_sub_one_eq_mod,
    Nat.shiftRight_eq_div_pow]

/-- The 5-5-5 fields are the three low groups of five bits; bit 15 is in none (R162). -/
theorem rgb555_eq (w : Nat) : rgb555 w = ⟨BitVec.ofNat 8 (w / 1024 % 32 * 255 / 31),
    BitVec.ofNat 8 (w / 32 % 32 * 255 / 31), BitVec.ofNat 8 (w % 32 * 255 / 31)⟩ := by
  have hr : r555 w = w / 1024 % 32 := land_shiftRight_eq_div_mod w 5 10
  have hg : g555 w = w / 32 % 32 := land_shiftRight_eq_div_mod w 5 5
  have hb : b555 w = w % 32 := Nat.and_two_pow_sub_one_eq_mod w 5
  rw [rgb555, hr, hg, hb]
  rfl

/-- The 5-6-5 fields use all 16 bits, so the red field is the whole quotient (R163). -/
theorem rgb565_eq (hw : w < 65536) : rgb565 w = ⟨BitVec.ofNat 8 (w / 2048 * 255 / 31),
    BitVec.ofNat 8 (w / 32 % 64 * 255 / 63), BitVec.ofNat 8 (w % 32 * 255 / 31)⟩ := by
  have hmod : r565 w = w / 2048 % 32 := land_shiftRight_eq_div_mod w 5 11
  have hr : r565 w = w / 2048 := hmod.trans (Nat.mod_eq_of_lt (by omega))
  have hg : g565 w = w / 32 % 64 := land_shiftRight_eq_div_mod w 6 5
  have hb : b565 w = w % 32 := Nat.and_two_pow_sub_one_eq_mod w 5
  rw [rgb565, hr, hg, hb]
  rfl

/-! ### The pixel step -/

theorem word16_ok (h : sourceInside s y (2 * x + 1)) : word16 s y x =
    .ok ((sourceByte s y (2 * x)).toNat + 256 * (sourceByte s y (2 * x + 1)).toNat) := ch16_ok h

theorem pixelFn_unpack555 (h : word16 s y x = .ok w) :
    pixelFn .unpack555 s y x = .ok (.rgb (rgb555 w) s.draws) := by
  rw [pixelFn, pixelUnpack555, h]
  rfl

theorem pixelFn_unpack565 (h : word16 s y x = .ok w) :
    pixelFn .unpack565 s y x = .ok (.rgb (rgb565 w) s.draws) := by
  rw [pixelFn, pixelUnpack565, h]
  rfl

/-- A converting operation whose reads give a triple writes that triple at its pixel. -/
theorem exec_written {p : Rgb} (hi : convertingOp i = some op) (hat : AtPixel s) (hwf : s.mem.wf = true)
    (hout : outputInside s) (hpix : pixelFn op s s.seqRow.toNat s.seqCol.toNat = .ok (.rgb p n)) :
    ∃ t, exec i s = .next t ∧ PixelWritten s t p n := by
  rw [exec_atPixel hi hat]
  exact pixelStep_written hwf hout hpix

/-- Settles O22: the reads give the word, and its fields are rescaled by `SCALE5`. -/
theorem unpack555ConvertsOnePixel : Obligations.Unpack555ConvertsOnePixel := by
  rintro s w hat hwf hout hsrc rfl
  rw [← rgb555_eq]
  exact exec_written rfl hat hwf hout (pixelFn_unpack555 (word16_ok hsrc))

/-- Settles O23: the word has 16 bits, and its fields are rescaled by `SCALE5` and `SCALE6`. -/
theorem unpack565ConvertsOnePixel : Obligations.Unpack565ConvertsOnePixel := by
  rintro s w hat hwf hout hsrc rfl
  rw [← rgb565_eq (by omega)]
  exact exec_written rfl hat hwf hout (pixelFn_unpack565 (word16_ok hsrc))

end Sys2Proof.Machine
end

section
/-! The Direct Channel Copier (43_direct_copier.md R180 to R184): the byte that `HI8` keeps of a channel, and the triple
that each operation's reads give. -/

namespace Sys2Proof.Machine

variable {s : State} {y x k : Nat}

/-- The high byte of a little-endian channel is the byte at its higher address (R184). -/
theorem hi8_littleEndian (lo hi : Byte) : hi8 (lo.toNat + 256 * hi.toNat) = hi := by
  refine BitVec.eq_of_toNat_eq ?_
  rw [hi8, BitVec.toNat_ofNat, Nat.shiftRight_eq_div_pow]
  omega

/-- The colour bytes lie below the alpha byte, wherever LAYOUT has them (R181). -/
theorem pix32_ok (h : sourceInside s y (4 * x + 2)) : pix32 s y x =
    .ok ⟨sourceByte s y (4 * x + offR s.cfg.layout), sourceByte s y (4 * x + offG s.cfg.layout),
      sourceByte s y (4 * x + offB s.cfg.layout)⟩ := by
  obtain ⟨-, hr, hg, hb, -⟩ := layout_offsets s.cfg.layout
  rw [pix32, srcByte_ok (sourceInside_mono h (by omega)), srcByte_ok (sourceInside_mono h (by omega)),
    srcByte_ok (sourceInside_mono h (by omega))]
  rfl

/-- The triple of three channels from byte `k` is their high bytes (R182, R183). -/
theorem truncTriple_ok (h : sourceInside s y (k + 5)) : truncTriple s y k =
    .ok ⟨sourceByte s y (k + 1), sourceByte s y (k + 3), sourceByte s y (k + 5)⟩ := by
  have hr := ch16_ok (sourceInside_mono (k' := k + 1) h (by omega))
  have hg := ch16_ok (k := k + 2) (sourceInside_mono (k' := k + 3) h (by omega))
  have hb := ch16_ok (k := k + 4) h
  simp only [truncTriple, hr, hg, hb, bind, Except.bind, hi8_littleEndian]

theorem pixelFn_copy32 {p : Rgb} (h : pix32 s y x = .ok p) : pixelFn .copy32 s y x = .ok (.rgb p s.draws) := by
  rw [pixelFn, pixelCopy32, h]
  rfl

theorem pixelFn_truncRgb16 {p : Rgb} (h : truncTriple s y (6 * x) = .ok p) :
    pixelFn .truncRgb16 s y x = .ok (.rgb p s.draws) := by
  rw [pixelFn, pixelTruncRgb16, h]
  rfl

theorem pixelFn_truncRgba16 {p : Rgb} (h : truncTriple s y (8 * x) = .ok p) :
    pixelFn .truncRgba16 s y x = .ok (.rgb p s.draws) := by
  rw [pixelFn, pixelTruncRgba16, h]
  rfl

/-- Settles O24: the reads give the three colour bytes. -/
theorem copy32ConvertsOnePixel : Obligations.Copy32ConvertsOnePixel :=
  fun _ _ hat hwf hout hsrc => exec_written rfl hat hwf hout (pixelFn_copy32 (pix32_ok hsrc))

/-- Settles O25: at either stride the reads give the high bytes of the three channels. -/
theorem trunc16ConvertsOnePixel : Obligations.Trunc16ConvertsOnePixel :=
  fun _ _ _ hat hwf hout =>
    ⟨fun hsrc => exec_written rfl hat hwf hout (pixelFn_truncRgb16 (truncTriple_ok hsrc)),
     fun hsrc => exec_written rfl hat hwf hout (pixelFn_truncRgba16 (truncTriple_ok hsrc))⟩

end Sys2Proof.Machine
end

section
/-! The pixel step of the HDR Tone-Mapper (44_hdr_tonemapper.md R211, R212): the triple that three samples from a byte
of the source row give, at either pixel stride. -/

namespace Sys2Proof.Machine

variable {s : State} {y x k : Nat} {p : Rgb}

/-- Three samples from byte `k` are tone-mapped with three consecutive draw numbers. -/
theorem toneTriple_ok (h : sourceInside s y (k + 3 * sampleBytes s.cfg.fw - 1)) : toneTriple s y k =
    .ok ⟨tone s.cfg s.draws (Datum.ofBits s.cfg.fw (sampleEncoding s y k)),
      tone s.cfg (s.draws + 1) (Datum.ofBits s.cfg.fw (sampleEncoding s y (k + sampleBytes s.cfg.fw))),
      tone s.cfg (s.draws + 2) (Datum.ofBits s.cfg.fw (sampleEncoding s y (k + 2 * sampleBytes s.cfg.fw)))⟩ := by
  rw [toneTriple, toneAt_ok (sourceInside_mono h (by omega)), toneAt_ok (sourceInside_mono h (by omega)),
    toneAt_ok (sourceInside_mono h (by omega))]
  rfl

theorem toneDraws_eq (s : State) : toneDraws s = drawsAfterTone s := by
  cases h : s.cfg.narrow <;> simp [toneDraws, drawsAfterTone, h]

theorem pixelFn_toneRgbf (h : toneTriple s y (3 * sampleBytes s.cfg.fw * x) = .ok p) :
    pixelFn .toneRgbf s y x = .ok (.rgb p (drawsAfterTone s)) := by
  rw [pixelFn, pixelToneRgbf, h, toneDraws_eq]
  rfl

theorem pixelFn_toneRgbaf (h : toneTriple s y (4 * sampleBytes s.cfg.fw * x) = .ok p) :
    pixelFn .toneRgbaf s y x = .ok (.rgb p (drawsAfterTone s)) := by
  rw [pixelFn, pixelToneRgbaf, h, toneDraws_eq]
  rfl

/-- Settles O26: at either stride the reads give the tone-mapped triple of the first three samples. -/
theorem toneConvertsOnePixel : Obligations.ToneConvertsOnePixel := by
  rintro s bpp n m hat hwf hout rfl
  exact ⟨fun hsrc => exec_written rfl hat hwf hout (pixelFn_toneRgbf (toneTriple_ok hsrc)),
    fun hsrc => exec_written rfl hat hwf hout (pixelFn_toneRgbaf (toneTriple_ok hsrc))⟩

end Sys2Proof.Machine
end

section
/-! POW (44_hdr_tonemapper.md R203): its value is in range and non-decreasing because its two values are, and the
two values are the two nearest to the real power. Magnitudes are counted in units of the format's smallest subnormal,
and so is the real power. -/

namespace Sys2Proof.Machine

variable {fw : FloatWidth} {mag : Nat}

/-! ### Range and monotonicity -/

theorem start_lt_of_onPowerBranch (h : OnPowerBranch fw mag) : magOf (toneStart fw) < mag := by
  obtain ⟨-, -, -, hstart⟩ := linear_start fw
  exact ((onPowerBranch_iff fw mag hstart).1 h).1

theorem pow_le_one (h : OnPowerBranch fw mag) : pow fw mag ≤ 2 ^ unitExp fw := by
  obtain ⟨hlow, hone⟩ := powerLow h
  calc pow fw mag ≤ pow fw (2 ^ unitExp fw) := pow_nonDecreasing fw hlow hone
    _ = 2 ^ unitExp fw := pow_toneOne fw

/-- From `START` on POW is at least the lower of its two values for `START`. -/
theorem startEnd_le_pow (h : magOf (toneStart fw) ≤ mag) : (powEnds fw (magOf (toneStart fw))).1 ≤ pow fw mag :=
  (end_le_pow fw _).trans (pow_nonDecreasing fw (start_low fw) h)

/-- `K1` times that value is above `K2`, so it is not zero. -/
theorem startEnd_pos (fw : FloatWidth) : 0 < (powEnds fw (magOf (toneStart fw))).1 := by
  obtain ⟨hK2, -⟩ := power_consts fw
  refine Nat.pos_of_ne_zero fun h => ?_
  rw [h, Nat.mul_zero, roundMag_zero] at hK2
  exact Nat.not_lt_zero _ hK2

/-- The order of non-negative finite data is that of their magnitudes. -/
@[simp] theorem fle_fin_false (m n : Nat) : fle (.fin false m) (.fin false n) = decide (m ≤ n) := by
  simp [fle, signedUnits]

/-- Settles O45: POW lies between the lower value for `START` and `ONE`, and is non-decreasing. -/
theorem powKeepsOneStaysInRangeAndIsMonotone : Obligations.PowKeepsOneStaysInRangeAndIsMonotone := by
  refine fun fw => ⟨fun mag hone => ?_, fun mag h => ⟨?_, ?_⟩, fun x x' h _ hle => ?_⟩
  · obtain rfl : 2 ^ unitExp fw = mag := by simpa [oneMag] using hone
    exact pow_toneOne fw
  · exact (startEnd_pos fw).trans_le (startEnd_le_pow (start_lt_of_onPowerBranch h).le)
  · rw [oneMag, fle_fin_false, decide_eq_true_iff]
    exact pow_le_one h
  · exact pow_nonDecreasing fw (powerLow h).1 hle

end Sys2Proof.Machine
end

section
/-! POW_FAITHFUL (44_hdr_tonemapper.md R203): which two values of the format are nearest to a real number between them,
inside a binade and at either side of a power of two, and that POW's two values are those for the real power. -/

namespace Sys2Proof.Machine

variable {fw : FloatWidth} {mag c m x : Nat} {r : ℝ}

/-! ### The two nearest values of the format -/

/-- `p < q` are values of the format and no third value is nearer to `r` than either. -/
def NearestPair (fw : FloatWidth) (p q : Nat) (r : ℝ) : Prop :=
  p < q ∧ Representable fw p ∧ Representable fw q ∧
    ∀ c, Representable fw c → c ≠ p → c ≠ q → |(p : ℝ) - r| ≤ |(c : ℝ) - r| ∧ |(q : ℝ) - r| ≤ |(c : ℝ) - r|

/-- A number on the left of both is the farthest where its midpoint with the right one is not above `r`. -/
theorem abs_sub_le_of_left {p q c : ℝ} (hcp : c ≤ p) (hpq : p ≤ q) (h : c + q ≤ 2 * r) :
    |p - r| ≤ |c - r| ∧ |q - r| ≤ |c - r| := by
  have hc : r - c ≤ |c - r| := by rw [abs_sub_comm]; exact le_abs_self _
  constructor <;> exact (abs_le.2 ⟨by linarith, by linarith⟩).trans hc

/-- A number on the right of both is the farthest where its midpoint with the left one is not below `r`. -/
theorem abs_sub_le_of_right {p q c : ℝ} (hqc : q ≤ c) (hpq : p ≤ q) (h : 2 * r ≤ p + c) :
    |p - r| ≤ |c - r| ∧ |q - r| ≤ |c - r| := by
  have hc : c - r ≤ |c - r| := le_abs_self _
  constructor <;> exact (abs_le.2 ⟨by linarith, by linarith⟩).trans hc

theorem le_of_lt_succ_place (hm : 2 ^ (precision fw - 1) ≤ m) (hc : Representable fw c) (h : c < (m + 1) * 2 ^ x) :
    c ≤ m * 2 ^ x :=
  Nat.not_lt.1 fun hlt => not_between hm hc ⟨hlt, h⟩

theorem succ_place_le_of_lt (hm : 2 ^ (precision fw - 1) ≤ m) (hc : Representable fw c) (h : m * 2 ^ x < c) :
    (m + 1) * 2 ^ x ≤ c :=
  Nat.not_lt.1 fun hlt => not_between hm hc ⟨h, hlt⟩

/-- Neighbouring values are the two nearest to `r` where the midpoints with the values outside lie on the right sides
of `r`. -/
theorem nearestPair_of_midpoints (hm : 2 ^ (precision fw - 1) ≤ m) (hm' : m < 2 ^ precision fw)
    (hlow : ∀ c, Representable fw c → c < m * 2 ^ x → (c : ℝ) + ((m + 1) * 2 ^ x : ℕ) ≤ 2 * r)
    (hhigh : ∀ c, Representable fw c → (m + 1) * 2 ^ x < c → 2 * r ≤ ((m * 2 ^ x : ℕ) : ℝ) + c) :
    NearestPair fw (m * 2 ^ x) ((m + 1) * 2 ^ x) r := by
  have hpq : m * 2 ^ x < (m + 1) * 2 ^ x := Nat.mul_lt_mul_of_pos_right (Nat.lt_succ_self m) (Nat.two_pow_pos x)
  refine ⟨hpq, succ_representable hm'.le, succ_representable hm', fun c hc hp hq => ?_⟩
  rcases Nat.lt_or_gt_of_ne hp with h | h
  · exact abs_sub_le_of_left (by exact_mod_cast h.le) (by exact_mod_cast hpq.le) (hlow c hc h)
  · have hqc : (m + 1) * 2 ^ x < c := (succ_place_le_of_lt hm hc h).lt_of_ne' hq
    exact abs_sub_le_of_right (by exact_mod_cast hqc.le) (by exact_mod_cast hpq.le) (hhigh c hc hqc)

/-- The value below `m` last places is one last place down, unless `m` is the least significand of its binade. -/
theorem add_le_two_mul (hm : 2 ^ (precision fw - 1) < m) (hr : (m : ℝ) * 2 ^ x ≤ r) (hc : Representable fw c)
    (h : c < m * 2 ^ x) : (c : ℝ) + ((m + 1) * 2 ^ x : ℕ) ≤ 2 * r := by
  obtain ⟨k, rfl⟩ : ∃ k, m = k + 1 := Nat.exists_eq_succ_of_ne_zero (Nat.ne_zero_of_lt hm)
  have hk : (c : ℝ) ≤ k * 2 ^ x := by exact_mod_cast le_of_lt_succ_place (Nat.le_of_lt_succ hm) hc h
  push_cast at hr ⊢
  linarith

/-- The value above `m + 1` last places is at least one last place up. -/
theorem two_mul_le_add (hm : 2 ^ (precision fw - 1) ≤ m) (hr : r ≤ ((m : ℝ) + 1) * 2 ^ x) (hc : Representable fw c)
    (h : (m + 1) * 2 ^ x < c) : 2 * r ≤ ((m * 2 ^ x : ℕ) : ℝ) + c := by
  have hk : ((m : ℝ) + 1 + 1) * 2 ^ x ≤ c := by
    exact_mod_cast succ_place_le_of_lt (hm.trans (Nat.le_succ m)) hc h
  push_cast
  linarith

/-- Inside a binade the two nearest values are the neighbours. -/
theorem nearestPair_inside (hm : 2 ^ (precision fw - 1) < m) (hm' : m < 2 ^ precision fw)
    (hlow : (m : ℝ) * 2 ^ x ≤ r) (hhigh : r ≤ ((m : ℝ) + 1) * 2 ^ x) :
    NearestPair fw (m * 2 ^ x) ((m + 1) * 2 ^ x) r :=
  nearestPair_of_midpoints hm.le hm' (fun _ => add_le_two_mul hm hlow) (fun _ => two_mul_le_add hm.le hhigh)

/-- `2 ^ precision` last places are `2 ^ (precision - 1)` of the last places one binade up. -/
theorem binade_eq {R : Type} [CommSemiring R] (fw : FloatWidth) (x : Nat) :
    (2 : R) ^ (precision fw - 1) * 2 ^ (x + 1) = 2 ^ precision fw * 2 ^ x := by
  rw [← pow_add, ← pow_add]
  congr 1
  have := precision_pos fw
  omega

/-- From a quarter of the upper spacing above a power of two on, the two nearest values are the power of two and the
next value. -/
theorem nearestPair_above_binade (hx : 1 ≤ x) (hlow : ((2 : ℝ) ^ (precision fw - 1) + 1 / 4) * 2 ^ x ≤ r)
    (hhigh : r ≤ ((2 : ℝ) ^ (precision fw - 1) + 1) * 2 ^ x) :
    NearestPair fw (2 ^ (precision fw - 1) * 2 ^ x) ((2 ^ (precision fw - 1) + 1) * 2 ^ x) r := by
  obtain ⟨x, rfl⟩ := Nat.exists_eq_add_of_le' hx
  have hp := precision_pos fw
  have hlt : 2 ^ (precision fw - 1) < 2 ^ precision fw := Nat.pow_lt_pow_right (by omega) (by omega)
  refine nearestPair_of_midpoints le_rfl hlt (fun c hc h => ?_)
    (fun _ => two_mul_le_add le_rfl (by exact_mod_cast hhigh))
  obtain ⟨k, hk⟩ : ∃ k, 2 ^ precision fw = k + 1 := ⟨_, (Nat.sub_add_cancel Nat.one_le_two_pow).symm⟩
  have hck : (c : ℝ) ≤ k * 2 ^ x := by
    rw [binade_eq, hk] at h
    exact_mod_cast le_of_lt_succ_place (by omega) hc h
  have hkr : (2 : ℝ) ^ precision fw = k + 1 := by exact_mod_cast hk
  rw [add_mul, binade_eq, hkr, pow_succ] at hlow
  push_cast
  rw [add_mul, binade_eq, hkr, pow_succ]
  linarith

/-- Up to a quarter of the upper spacing above a power of two, the two nearest values are the power of two and the
value before it. -/
theorem nearestPair_below_binade (hlow : (2 : ℝ) ^ precision fw * 2 ^ x ≤ r)
    (hhigh : r ≤ ((2 : ℝ) ^ precision fw + 1 / 2) * 2 ^ x) :
    NearestPair fw ((2 ^ precision fw - 1) * 2 ^ x) (2 ^ precision fw * 2 ^ x) r := by
  have hp : 2 ≤ precision fw := by cases fw <;> decide
  have hsplit : 2 ^ precision fw = 2 * 2 ^ (precision fw - 1) := by rw [← pow_succ']; congr 1; omega
  have hpos : 2 ≤ 2 ^ (precision fw - 1) := Nat.le_self_pow (by omega) 2
  obtain ⟨k, hk⟩ : ∃ k, 2 ^ precision fw = k + 1 := ⟨_, (Nat.sub_add_cancel Nat.one_le_two_pow).symm⟩
  have hkr : (2 : ℝ) ^ precision fw = k + 1 := by exact_mod_cast hk
  have hplace : (0 : ℝ) < 2 ^ x := by positivity
  rw [hkr] at hlow hhigh
  rw [hk, Nat.add_sub_cancel]
  refine nearestPair_of_midpoints (by omega) (by omega) (fun _ => add_le_two_mul (by omega) (by linarith))
    (fun c hc h => ?_)
  have hck : ((2 : ℝ) ^ (precision fw - 1) + 1) * 2 ^ (x + 1) ≤ c := by
    rw [← hk, ← binade_eq] at h
    exact_mod_cast succ_place_le_of_lt le_rfl hc h
  rw [add_mul, binade_eq, hkr, pow_succ] at hck
  push_cast
  linarith

/-! ### POW's two values -/

/-- The real power, in units of the smallest subnormal. -/
noncomputable def powUnits (fw : FloatWidth) (mag : Nat) : ℝ := powReal fw mag * (2 ^ unitExp fw / 2 ^ powBits)

theorem scale_pos (fw : FloatWidth) : (0 : ℝ) < 2 ^ unitExp fw / 2 ^ powBits := by positivity

/-- A fixed-point number with `d` zero bits, in units. -/
theorem fixed_units (k : ℝ) {d : Nat} (hd : 199 ≤ d) :
    k * 2 ^ d * (2 ^ unitExp fw / 2 ^ powBits) = k * 2 ^ (d + unitExp fw - 256) := by
  have hu : 149 ≤ unitExp fw := by cases fw <;> decide
  have hsum : d + unitExp fw = d + unitExp fw - 256 + powBits := by
    have : powBits = 256 := rfl
    omega
  have hpow : (2 : ℝ) ^ d * 2 ^ unitExp fw = 2 ^ (d + unitExp fw - 256) * 2 ^ powBits := by
    rw [← pow_add, ← pow_add, ← hsum]
  rw [mul_assoc, ← mul_div_assoc, hpow, mul_div_cancel_right₀ _ (by positivity)]

theorem fixed_le_powUnits {k : ℝ} {d : Nat} (hd : 199 ≤ d) (h : k * 2 ^ d ≤ powReal fw mag) :
    k * 2 ^ (d + unitExp fw - 256) ≤ powUnits fw mag := by
  rw [← fixed_units k hd]
  exact mul_le_mul_of_nonneg_right h (scale_pos fw).le

theorem powUnits_le_fixed {k : ℝ} {d : Nat} (hd : 199 ≤ d) (h : powReal fw mag ≤ k * 2 ^ d) :
    powUnits fw mag ≤ k * 2 ^ (d + unitExp fw - 256) := by
  rw [← fixed_units k hd]
  exact mul_le_mul_of_nonneg_right h (scale_pos fw).le

theorem powUnits_eq (hb : OnPowerBranch fw mag) (h : Representable fw mag) : powUnits fw mag =
    ((mag : ℝ) / 2 ^ unitExp fw) ^ ((gammaNum fw : ℝ) / 2 ^ gammaBits fw) * 2 ^ unitExp fw := by
  rw [powUnits, powReal_eq hb h, mul_assoc, mul_div_cancel₀ _ scaleR_pos.ne']

theorem cast_two_pow_div_four {d : Nat} (hd : 2 ≤ d) : ((2 ^ d / 4 : ℕ) : ℝ) = 2 ^ d / 4 := by
  have hdvd : 4 ∣ 2 ^ d := pow_dvd_pow 2 hd
  rw [Nat.cast_div hdvd (by norm_num)]
  norm_num

/-- Where the number below the floor of the power is the nearer one, it and the floor are the two nearest. -/
theorem nearestPair_of_powNearBelow {lo : Nat} (hmag : 2 ^ (unitExp fw - 6) ≤ mag) (hlo : 2 ^ 253 ≤ lo)
    (hle : (lo : ℝ) ≤ powReal fw mag) (hnear : powNearBelow fw mag lo = true) :
    NearestPair fw (fixedToMag fw (lo - 2 ^ fixedDrop fw lo / 2)) (fixedToMag fw lo) (powUnits fw mag) := by
  obtain ⟨hpow, hquarter⟩ := (powNearBelow_iff hmag lo).1 hnear
  obtain ⟨d, hdrop, hd, hshape, hbelow, -⟩ := below_shape (fw := fw) hlo hpow
  rw [hdrop, Nat.cast_add, cast_two_pow_div_four (by omega), pow_succ] at hquarter
  have hcast : (lo : ℝ) = 2 ^ precision fw * 2 ^ d := by exact_mod_cast hshape
  rw [hbelow, hshape, fixedToMag_mul _ _ _ hd, fixedToMag_mul _ _ _ hd]
  refine nearestPair_below_binade (fixed_le_powUnits (by omega) (hcast ▸ hle)) (powUnits_le_fixed (by omega) ?_)
  linarith

/-- Elsewhere the floor of the power and the next number of the format are the two nearest. -/
theorem nearestPair_of_not_powNearBelow {lo : Nat} (hmag : 2 ^ (unitExp fw - 6) ≤ mag) (hlo : 2 ^ 253 ≤ lo)
    (hfix : fixedFloor fw lo = lo) (hle : (lo : ℝ) ≤ powReal fw mag) (hlt : powReal fw mag < fixedNext fw lo)
    (hnear : ¬ powNearBelow fw mag lo = true) :
    NearestPair fw (fixedToMag fw lo) (fixedToMag fw (fixedNext fw lo)) (powUnits fw mag) := by
  obtain ⟨m, d, hd, hm, hm', hfloor, hnext⟩ := gap_shape (fw := fw) hlo
  obtain rfl : lo = m * 2 ^ d := hfix.symm.trans hfloor
  rw [hnext] at hlt ⊢
  push_cast at hle hlt
  rw [fixedToMag_mul _ _ _ (by omega), fixedToMag_mul _ _ _ (by omega)]
  have hhigh := powUnits_le_fixed (fw := fw) (by omega) hlt.le
  rcases hm.eq_or_lt with rfl | hm
  · obtain ⟨hdrop, -⟩ := format_shape (d := d) hm hm'
    have hpow : 2 ^ (precision fw - 1) * 2 ^ d = 2 ^ (2 ^ (precision fw - 1) * 2 ^ d).log2 := by
      rw [← pow_add, Nat.log2_two_pow]
    have hquarter : ((2 : ℝ) ^ (precision fw - 1) + 1 / 4) * 2 ^ d ≤ powReal fw mag := by
      rw [powNearBelow_iff hmag, not_and, not_lt, hdrop, Nat.cast_add, cast_two_pow_div_four (by omega)] at hnear
      have := hnear hpow
      push_cast at this
      linarith
    have hu : 149 ≤ unitExp fw := by cases fw <;> decide
    exact nearestPair_above_binade (by omega) (fixed_le_powUnits (by omega) hquarter) (by exact_mod_cast hhigh)
  · exact nearestPair_inside hm hm' (fixed_le_powUnits (by omega) hle) hhigh

/-- Below `ONE`, POW's two values are the two nearest to the real power. -/
theorem powEnds_nearestPair (hlow : 2 ^ (unitExp fw - 6) ≤ mag) (hone : mag < 2 ^ unitExp fw) :
    NearestPair fw (powEnds fw mag).1 (powEnds fw mag).2 (powUnits fw mag) := by
  obtain ⟨hfix, hlo, hle, hlt⟩ := powFloor_spec hlow hone
  rw [powEnds, if_neg (Nat.not_le.2 hone)]
  split
  · next hnear => exact nearestPair_of_powNearBelow hlow hlo hle hnear
  · next hnear => exact nearestPair_of_not_powNearBelow hlow hlo hfix hle hlt hnear

/-- Distances in units are distances of the reals. -/
theorem abs_div_sub_le_iff {a b u : ℝ} (hu : 0 < u) : |a / u - r| ≤ |b / u - r| ↔ |a - r * u| ≤ |b - r * u| := by
  have h (z : ℝ) : z / u - r = (z - r * u) / u := by rw [sub_div, mul_div_cancel_right₀ _ hu.ne']
  rw [h, h, abs_div, abs_div, div_le_div_iff_of_pos_right (abs_pos.2 hu.ne')]

/-- Settles O46: at `ONE` POW is the power, below it one of the two nearest values. -/
theorem powIsOneOfTheTwoNearestToTheRealPower : Obligations.PowIsOneOfTheTwoNearestToTheRealPower := by
  rintro fw mag r hb hrep rfl
  obtain ⟨hlow, hle⟩ := powerLow hb
  rcases hle.eq_or_lt with rfl | hlt
  · left
    rw [pow_toneOne, Nat.cast_pow, Nat.cast_ofNat, div_self (by positivity), Real.one_rpow]
  · obtain ⟨hpq, hp, hq, hnearest⟩ := powEnds_nearestPair hlow hlt
    rw [powUnits_eq hb hrep] at hnearest
    refine .inr ⟨_, _, hpq, hp, hq, pow_mem_ends fw mag, fun c hc hcp hcq => ?_⟩
    have hu : (0 : ℝ) < 2 ^ unitExp fw := by positivity
    rw [abs_div_sub_le_iff hu, abs_div_sub_le_iff hu]
    exact hnearest c hc hcp hcq

end Sys2Proof.Machine
end

section
/-! The tone curve (44_hdr_tonemapper.md R204 to R219): the formula of each branch, what narrowing makes of its integer,
and the curve on samples at or above zero. -/

namespace Sys2Proof.Machine

variable {fw : FloatWidth} {v v' d : Datum} {mag out p x x' k : Nat}

/-! ### Scale and offset -/

/-- Step 3a: `t = fadd(fmul(out, C255), HALF)` (R208). -/
def scaleOffset (fw : FloatWidth) (out : Datum) : Datum := fadd fw (fmul fw out (toneC255 fw)) (toneHalf fw)

theorem scaleTrunc_of_fin {o : Datum} {neg : Bool} (h : scaleOffset fw o = .fin neg mag) :
    scaleTrunc fw o = some (signedUnits neg (mag / 2 ^ unitExp fw)) := by
  rw [scaleOffset] at h
  rw [scaleTrunc, h]
  rfl

theorem scaleTrunc_of_inf {o : Datum} {neg : Bool} (h : scaleOffset fw o = .inf neg) : scaleTrunc fw o = none := by
  rw [scaleOffset] at h
  rw [scaleTrunc, h]

theorem fmul_fin (fw : FloatWidth) (s t : Bool) (m n : Nat) :
    fmul fw (.fin s m) (.fin t n) = Datum.round fw (s ^^ t) (m * n) (unitExp fw) := rfl

/-- Neither rounding of step 3a overflows for `out` in `0 .. ONE`. -/
theorem scaleOffset_fin (h : out ≤ 2 ^ unitExp fw) : scaleOffset fw (.fin false out) = .fin false (scaleMag fw out) := by
  obtain ⟨hC255, hHalf, -⟩ := const_fin fw
  obtain ⟨-, hmul, hadd⟩ := scaleMag_one fw
  have hscale := Nat.mul_le_mul_right (magOf (toneC255 fw)) h
  rw [scaleOffset, hC255, hHalf, fmul_fin, round_fin hscale hmul]
  exact round_fin (Nat.add_le_add_right (roundMag_mono fw _ hscale) _) hadd

/-! ### The power branch -/

/-- `out = fsub(fmul(K1, p), K2)` is positive from the lower value for `START` on, and does not overflow (R207). -/
theorem fsub_fmul_K1_fin (hlow : (powEnds fw (magOf (toneStart fw))).1 ≤ p) (hone : p ≤ 2 ^ unitExp fw) :
    fsub fw (fmul fw (toneK1 fw) (.fin false p)) (toneK2 fw) = .fin false (powerMag fw p) := by
  obtain ⟨-, -, -, hK1, hK2⟩ := const_fin fw
  obtain ⟨hpos, -, hmul, hpowOne, hover⟩ := power_consts fw
  have hgt := hpos.trans_le (roundMag_mono fw (unitExp fw) (Nat.mul_le_mul_left (magOf (toneK1 fw)) hlow))
  have hscale := roundMag_mono fw (unitExp fw) (Nat.mul_le_mul_left (magOf (toneK1 fw)) hone)
  rw [hK1, hK2, fmul_fin, round_fin (Nat.mul_le_mul_left _ hone) hmul, fsub, Datum.neg]
  refine (fadd_fin_not fw false _ _).trans ((if_pos hgt).trans (round_fin (Nat.sub_le_sub_right hscale _) ?_))
  exact hpowOne.trans_lt hover

/-- The integer of a sample on the power branch. -/
theorem toneNat_of_onPowerBranch (h : OnPowerBranch fw mag) :
    toneNat fw mag = scaleMag fw (powerMag fw (pow fw mag)) / 2 ^ unitExp fw := by
  rw [toneNat, if_neg (Nat.not_le.2 (start_lt_of_onPowerBranch h)), Nat.min_eq_left (powerLow h).2]

theorem powerMag_le_one (h : p ≤ 2 ^ unitExp fw) : powerMag fw p ≤ 2 ^ unitExp fw := by
  obtain ⟨-, -, -, hpowOne, -⟩ := power_consts fw
  exact (powerMag_mono fw h).trans hpowOne.le

/-! ### The linear branch -/

/-- Minus infinity, or finite with a minus sign. -/
def OnNegativeSide (d : Datum) : Prop := d = .inf true ∨ ∃ m, d = .fin true m

theorem round_true_onNegativeSide (fw : FloatWidth) (num sh : Nat) : OnNegativeSide (Datum.round fw true num sh) := by
  rw [round_eq]
  split
  · exact .inr ⟨_, rfl⟩
  · exact .inl rfl

theorem fmul_onNegativeSide (hk : k ≠ 0) (h : OnNegativeSide d) : OnNegativeSide (fmul fw d (.fin false k)) := by
  obtain rfl | ⟨m, rfl⟩ := h
  · exact .inl (if_neg hk)
  · exact round_true_onNegativeSide fw _ _

/-- Adding a positive number that is a value of the format cannot overflow upwards. -/
theorem fadd_of_onNegativeSide (hk : roundMag fw k 0 < overflowMag fw) (h : OnNegativeSide d) :
    fadd fw d (.fin false k) = .inf true ∨ ∃ neg mag, fadd fw d (.fin false k) = .fin neg mag := by
  obtain rfl | ⟨m, rfl⟩ := h
  · exact .inl rfl
  · rw [show fadd fw (.fin true m) (.fin false k) = _ from fadd_fin_not fw true m k]
    split
    · exact (round_true_onNegativeSide fw _ _).imp_right fun ⟨n, h⟩ => ⟨true, n, h⟩
    · split
      · exact .inr ⟨_, _, round_fin (Nat.sub_le _ _) hk⟩
      · exact .inr ⟨_, _, rfl⟩

theorem tone_consts_pos (fw : FloatWidth) : magOf (toneSlope fw) ≠ 0 ∧ magOf (toneC255 fw) ≠ 0 ∧
    roundMag fw (magOf (toneHalf fw)) 0 < overflowMag fw := by
  cases fw <;> decide +kernel

/-- A datum at or below `START` is on the negative side or in `0 .. START`. -/
theorem le_start_cases (h : fle v (toneStart fw) = true) :
    OnNegativeSide v ∨ ∃ m, m ≤ magOf (toneStart fw) ∧ v = .fin false m := by
  obtain ⟨-, -, -, hstart⟩ := linear_start fw
  rw [hstart] at h
  match v, h with
  | .inf true, _ => exact .inl (.inl rfl)
  | .fin true m, _ => exact .inl (.inr ⟨m, rfl⟩)
  | .fin false m, h =>
    rw [fle_fin_false, decide_eq_true_iff] at h
    exact .inr ⟨m, h, rfl⟩

/-- `out = fmul(v, SLOPE)` in `0 .. START` does not overflow (R206). -/
theorem fmul_slope_fin (h : x ≤ magOf (toneStart fw)) :
    fmul fw (.fin false x) (toneSlope fw) = .fin false (linearMag fw x) := by
  obtain ⟨-, -, hslope, -⟩ := const_fin fw
  obtain ⟨-, hover, -⟩ := linear_start fw
  rw [hslope]
  exact round_fin (Nat.mul_le_mul_right _ h) hover

/-- On the linear branch `t` is minus infinity or finite. -/
theorem scaleOffset_linear (h : fle v (toneStart fw) = true) :
    scaleOffset fw (fmul fw v (toneSlope fw)) = .inf true ∨
      ∃ neg mag, scaleOffset fw (fmul fw v (toneSlope fw)) = .fin neg mag := by
  obtain hneg | ⟨m, hm, rfl⟩ := le_start_cases h
  · obtain ⟨hC255, hHalf, hslope, -⟩ := const_fin fw
    obtain ⟨hslope0, hC0, hhalf⟩ := tone_consts_pos fw
    rw [scaleOffset, hC255, hHalf, hslope]
    exact fadd_of_onNegativeSide hhalf (fmul_onNegativeSide hC0 (fmul_onNegativeSide hslope0 hneg))
  · obtain ⟨-, -, hone, -⟩ := linear_start fw
    rw [fmul_slope_fin hm]
    exact .inr ⟨_, _, scaleOffset_fin ((linearMag_mono fw hm).trans hone)⟩

/-- `START` is below `ONE`, so the clamp leaves what is at or below it (R204). -/
theorem toneClamp_of_le_start (h : fle v (toneStart fw) = true) : toneClamp fw v = v := by
  refine if_neg ?_
  rw [oneMag]
  obtain (rfl | ⟨m, rfl⟩) | ⟨m, hm, rfl⟩ := le_start_cases h
  · exact Bool.false_ne_true
  · generalize 2 ^ unitExp fw = one
    simp only [fgt, signedUnits, Bool.false_eq_true, if_true, if_false, decide_eq_true_eq]
    omega
  · have := start_lt_one fw
    simp only [fgt, signedUnits, Bool.false_eq_true, if_false, decide_eq_true_eq, Nat.cast_lt]
    omega

theorem toneInt_of_le_start (h : fle v (toneStart fw) = true) :
    toneInt fw (toneClamp fw v) = scaleTrunc fw (fmul fw v (toneSlope fw)) := by
  rw [toneClamp_of_le_start h]
  exact if_pos h

/-- On the linear branch there is no integer where `t` is minus infinity, else it is `t` with the fraction
discarded. -/
theorem toneInt_linear (h : fle v (toneStart fw) = true) :
    (scaleOffset fw (fmul fw v (toneSlope fw)) = .inf true ∧ toneInt fw (toneClamp fw v) = none) ∨
      ∃ neg mag, scaleOffset fw (fmul fw v (toneSlope fw)) = .fin neg mag ∧
        toneInt fw (toneClamp fw v) = some (signedUnits neg (mag / 2 ^ unitExp fw)) := by
  rw [toneInt_of_le_start h]
  exact (scaleOffset_linear h).imp (fun hinf => ⟨hinf, scaleTrunc_of_inf hinf⟩)
    fun ⟨neg, mag, hfin⟩ => ⟨neg, mag, hfin, scaleTrunc_of_fin hfin⟩

/-- Settles O47: the power branch has no overflow and no sign, the linear branch overflows downwards only. -/
theorem eachBranchFollowsItsFormula : Obligations.EachBranchFollowsItsFormula := by
  refine fun fw => ⟨fun mag h => ⟨scaleMag fw (powerMag fw (pow fw mag)), ?_, ?_⟩, ?_⟩
  · rw [fsub_fmul_K1_fin (startEnd_le_pow (start_lt_of_onPowerBranch h).le) (pow_le_one h)]
    exact scaleOffset_fin (powerMag_le_one (pow_le_one h))
  · rw [toneInt_eq, toneNat_of_onPowerBranch h]
  · rintro v t h rfl
    exact toneInt_linear h

/-! ### Narrowing -/

/-- TONE narrows the integer of the clamped sample; a NaN has none. -/
theorem tone_eq_narrow (cfg : Config) (draw : Nat) (v : Datum) :
    tone cfg draw v = narrow cfg.narrow draw (toneInt cfg.fw (toneClamp cfg.fw v)) := by
  cases v <;> rfl

theorem narrow_of_byte {nw : Narrow} {draw : Nat} {n : Int} (h0 : 0 ≤ n) (h : n ≤ 255) :
    (((narrow nw draw (some n)).toNat : Nat) : Int) = n := by
  have hbyte : narrow nw draw (some n) = BitVec.ofNat 8 n.toNat := if_pos ⟨h0, h⟩
  rw [hbyte, BitVec.toNat_ofNat]
  omega

theorem narrow_wrap (draw : Nat) (n : Int) : (((narrow .wrap draw (some n)).toNat : Nat) : Int) = n % 256 := by
  by_cases h : 0 ≤ n ∧ n ≤ 255
  · rw [narrow_of_byte h.1 h.2]
    omega
  · have hbyte : narrow .wrap draw (some n) = BitVec.ofNat 8 (n % 256).toNat := if_neg h
    rw [hbyte, BitVec.toNat_ofNat]
    omega

/-- The linear branch at minus one (R215). -/
theorem scaleOffset_neg_one (fw : FloatWidth) : fle (Datum.neg (toneOne fw)) (toneStart fw) = true ∧
    scaleOffset fw (fmul fw (Datum.neg (toneOne fw)) (toneSlope fw)) = .fin true (1147 * 2 ^ unitExp fw) := by
  cases fw <;> decide +kernel

/-- Under wrap the byte of a sample on the linear branch is its truncated `t` modulo 256. -/
theorem tone_linear_fin {cfg : Config} {neg : Bool} (draw : Nat) (hwrap : cfg.narrow = .wrap)
    (h : fle v (toneStart cfg.fw) = true) (ht : scaleOffset cfg.fw (fmul cfg.fw v (toneSlope cfg.fw)) = .fin neg mag) :
    (((tone cfg draw v).toNat : Nat) : Int) = signedUnits neg (mag / 2 ^ unitExp cfg.fw) % 256 := by
  rw [tone_eq_narrow, toneInt_of_le_start h, scaleTrunc_of_fin ht, hwrap, narrow_wrap]

/-- Under wrap the byte is 0 where `t` is minus infinity. -/
theorem tone_linear_inf {cfg : Config} (draw : Nat) (hwrap : cfg.narrow = .wrap)
    (h : fle v (toneStart cfg.fw) = true) (ht : scaleOffset cfg.fw (fmul cfg.fw v (toneSlope cfg.fw)) = .inf true) :
    tone cfg draw v = 0 := by
  rw [tone_eq_narrow, toneInt_of_le_start h, scaleTrunc_of_inf ht, hwrap]
  rfl

theorem scaleOffset_minus_inf (fw : FloatWidth) : fle (.inf true) (toneStart fw) = true ∧
    scaleOffset fw (fmul fw (.inf true) (toneSlope fw)) = .inf true := by
  cases fw <;> decide +kernel

/-- Settles O49: narrowing an integer is its remainder, and the special samples are on the linear branch. -/
theorem narrowingWrapsModulo256 : Obligations.NarrowingWrapsModulo256 := by
  intro cfg draw hwrap
  obtain ⟨hle, ht⟩ := scaleOffset_minus_inf cfg.fw
  obtain ⟨hle', ht'⟩ := scaleOffset_neg_one cfg.fw
  refine ⟨?_, tone_linear_inf draw hwrap hle ht, fun n => hwrap ▸ narrow_wrap draw n, ?_, ?_⟩
  · rw [tone, hwrap]
    rfl
  · have hbyte := tone_linear_fin draw hwrap hle' ht'
    rw [Nat.mul_div_cancel _ (Nat.two_pow_pos _)] at hbyte
    exact BitVec.eq_of_toNat_eq (Int.ofNat_inj.1 hbyte)
  · rintro v t h rfl
    exact ⟨tone_linear_inf draw hwrap h, fun _ _ => tone_linear_fin draw hwrap h⟩

/-! ### Samples at or above zero -/

theorem toneNat_of_one_le (h : 2 ^ unitExp fw ≤ x) : toneNat fw x = 255 := by
  obtain ⟨-, -, -, hpowOne, -⟩ := power_consts fw
  obtain ⟨h255, -⟩ := scaleMag_one fw
  rw [toneNat, if_neg (Nat.not_le.2 ((start_lt_one fw).trans_le h)), Nat.min_eq_right h, pow_toneOne, hpowOne, h255]

theorem toneNat_start (fw : FloatWidth) : toneNat fw (magOf (toneStart fw)) = 21 := by
  obtain ⟨h21, -⟩ := linear_start fw
  rw [toneNat, if_pos le_rfl, h21]

/-- The integer of the power branch is non-decreasing in POW's value. -/
theorem powerNat_mono (fw : FloatWidth) {p q : Nat} (h : p ≤ q) :
    scaleMag fw (powerMag fw p) / 2 ^ unitExp fw ≤ scaleMag fw (powerMag fw q) / 2 ^ unitExp fw :=
  Nat.div_le_div_right (scaleMag_mono fw (powerMag_mono fw h))

/-- The integer is non-decreasing: on each branch every step is, and the linear branch ends at 21, where the power
branch begins or above. -/
theorem toneNat_mono (fw : FloatWidth) (h : x ≤ x') : toneNat fw x ≤ toneNat fw x' := by
  obtain ⟨h21, -⟩ := linear_start fw
  obtain ⟨-, hpow21, -⟩ := power_consts fw
  have hstart := (start_lt_one fw).le
  rw [toneNat, toneNat]
  split
  · next hx =>
    have hlinear {y : Nat} (hy : x ≤ y) : scaleMag fw (linearMag fw x) / 2 ^ unitExp fw ≤
        scaleMag fw (linearMag fw y) / 2 ^ unitExp fw := Nat.div_le_div_right (scaleMag_mono fw (linearMag_mono fw hy))
    split
    · exact hlinear h
    · next hx' =>
      have hpow := startEnd_le_pow (le_min (Nat.not_le.1 hx').le hstart)
      exact (hlinear hx).trans (h21.le.trans (hpow21.trans (powerNat_mono fw hpow)))
  · next hx =>
    rw [if_neg (by omega)]
    have hlow := (start_low fw).trans (le_min (Nat.not_le.1 hx).le hstart)
    exact powerNat_mono fw (pow_nonDecreasing fw hlow (min_le_min_right _ h))

theorem toneNat_le (fw : FloatWidth) (x : Nat) : toneNat fw x ≤ 255 :=
  (toneNat_mono fw (le_max_left x _)).trans (toneNat_of_one_le (le_max_right x _)).le

/-- Every sample above `ONE`, plus infinity among them, is clamped to `ONE` (R204). -/
theorem toneInt_of_one_lt (h : fgt v (toneOne fw) = true) : toneInt fw (toneClamp fw v) = some ((255 : Nat) : Int) := by
  have hclamp : toneClamp fw v = toneClamp fw (toneOne fw) := by
    rw [toneClamp, if_pos h, toneClamp, ite_self]
  rw [hclamp, oneMag, toneInt_eq, toneNat_of_one_le le_rfl]

theorem tone_of_toneInt {cfg : Config} {draw n : Nat} (h : toneInt cfg.fw (toneClamp cfg.fw v) = some (n : Int))
    (hn : n ≤ 255) : (tone cfg draw v).toNat = n := by
  have := narrow_of_byte (nw := cfg.narrow) (draw := draw) (Int.natCast_nonneg n) (by omega)
  rw [tone_eq_narrow, h]
  exact_mod_cast this

/-- Settles O48: the integers 21 and 255 are in range, so no free value is drawn. -/
theorem toneOfThresholdAndOfSamplesAboveOne : Obligations.ToneOfThresholdAndOfSamplesAboveOne := by
  refine fun cfg draw => ⟨?_, ?_, fun v h => ?_⟩ <;> refine BitVec.eq_of_toNat_eq (tone_of_toneInt ?_ (by decide))
  · obtain ⟨-, -, -, hstart⟩ := linear_start cfg.fw
    rw [hstart, toneInt_eq, toneNat_start]
    rfl
  · rw [oneMag, toneInt_eq, toneNat_of_one_le le_rfl]
    rfl
  · exact toneInt_of_one_lt h

/-- The magnitude whose integer a sample at or above zero has; plus infinity has that of `ONE`. -/
def sampleMag (fw : FloatWidth) : Datum → Nat
  | .fin _ mag => mag
  | .inf _ => 2 ^ unitExp fw
  | .nan => 0

/-- A sample at or above zero is plus infinity, minus zero, or finite without a sign. -/
theorem nonneg_cases (h : fle (.fin false 0) v = true) : v = .inf false ∨ v = .fin true 0 ∨ ∃ m, v = .fin false m := by
  match v, h with
  | .inf false, _ => exact .inl rfl
  | .fin true m, h =>
    have : m = 0 := by simpa [fle, signedUnits] using h
    exact .inr (.inl (by rw [this]))
  | .fin false m, _ => exact .inr (.inr ⟨m, rfl⟩)

/-- Minus zero has the `t` of plus zero (R215). -/
theorem toneInt_minus_zero (fw : FloatWidth) :
    toneInt fw (toneClamp fw (.fin true 0)) = toneInt fw (toneClamp fw (.fin false 0)) := by
  cases fw <;> decide +kernel

theorem toneInt_of_nonneg (h : fle (.fin false 0) v = true) :
    toneInt fw (toneClamp fw v) = some (toneNat fw (sampleMag fw v) : Int) := by
  obtain rfl | rfl | ⟨m, rfl⟩ := nonneg_cases h
  · have hgt : fgt (.inf false) (toneOne fw) = true := by rw [oneMag]; rfl
    rw [toneInt_of_one_lt hgt, sampleMag, toneNat_of_one_le le_rfl]
  · rw [toneInt_minus_zero, toneInt_eq, sampleMag]
  · rw [toneInt_eq, sampleMag]

/-- A datum at or above a sample that is at or above zero is so too, and its magnitude is not smaller; plus infinity is
at or above every magnitude's integer. -/
theorem toneNat_sampleMag_mono (h : fle (.fin false 0) v = true) (hle : fle v v' = true) :
    fle (.fin false 0) v' = true ∧ toneNat fw (sampleMag fw v) ≤ toneNat fw (sampleMag fw v') := by
  obtain rfl | rfl | ⟨m, rfl⟩ := nonneg_cases h
  · match v', hle with
    | .inf false, _ => exact ⟨rfl, le_rfl⟩
  · match v', hle with
    | .inf false, _ => exact ⟨rfl, toneNat_mono fw (Nat.zero_le _)⟩
    | .fin _ _, hle => exact ⟨hle, toneNat_mono fw (Nat.zero_le _)⟩
  · match v', hle with
    | .inf false, _ => exact ⟨rfl, (toneNat_le fw _).trans (toneNat_of_one_le le_rfl).ge⟩
    | .fin t n, hle =>
      simp only [fle, decide_eq_true_eq] at hle ⊢
      have hmn : m ≤ n := by
        rw [← natAbs_signedUnits t n]
        rw [signedUnits, if_neg Bool.false_ne_true] at hle
        omega
      exact ⟨(Int.natCast_nonneg m).trans hle, toneNat_mono fw hmn⟩

/-- Settles O50: the integer is `toneNat` of the magnitude, in range and non-decreasing. -/
theorem toneOfNonNegativeSamplesIsAMonotoneByte : Obligations.ToneOfNonNegativeSamplesIsAMonotoneByte := by
  refine fun cfg draw v => ⟨fun n hn h0 h255 => ?_, fun h => ⟨⟨_, toneInt_of_nonneg h, toneNat_le _ _, ?_⟩, ?_⟩⟩
  · rw [tone_eq_narrow, hn, narrow_of_byte h0 h255]
  · exact tone_of_toneInt (toneInt_of_nonneg h) (toneNat_le _ _)
  · intro draw' v' hle
    obtain ⟨h', hmono⟩ := toneNat_sampleMag_mono (fw := cfg.fw) h hle
    rw [tone_of_toneInt (toneInt_of_nonneg h) (toneNat_le _ _),
      tone_of_toneInt (toneInt_of_nonneg h') (toneNat_le _ _)]
    exact hmono

end Sys2Proof.Machine
end

section
/-! The dispatcher's own steps (45_dispatcher_sequencer.md R231 to R258): the host's START, what a core step is in
CHECK, SELECT and CONVERT, and that it is none in IDLE and while a request is outstanding. -/

namespace Sys2Proof.Machine

variable {s : State} {i : Instr} {op : Op} {e : DecodeError} {rest : List Move} {d : Word} {c : Cause}

/-! ### START -/

theorem exec_start_idle (hp : s.status.phase = .idle) (n : Nat) : exec (.start n) s = .next (startRun s) := by
  simp only [exec, execStart, hp]

theorem exec_start_running (hp : s.status.phase ≠ .idle) (n : Nat) : exec (.start n) s = .next s := by
  rw [exec, execStart]
  split
  · next hidle => exact absurd hidle hp
  all_goals rfl

theorem step_write_noStart (h : s.moves = .wr 0x000 d :: rest) (hd : d.toNat % 2 = 0) :
    step s = .next { s with moves := rest } := by
  have hctrl : Reg.ofOffset 0x000 = some .ctrl := ofOffset_ctrl_iff.2 rfl
  have hok : offsetOk 0x000 = true := offsetOk_iff.2 ⟨rfl, by decide⟩
  have hnone : decode .ctrl d = .error .noStart := by rw [decode_ctrl, if_neg (by omega)]
  simp only [step_move h, moveStep, hostWrite, hok, hctrl, hnone, if_true]

/-- Settles O9: bit 0 of the data decodes to START, whose operand nothing reads. -/
theorem startBeginsARunOnlyInIdle : Obligations.StartBeginsARunOnlyInIdle := by
  intro s n
  refine ⟨fun hp => exec_start_idle hp n, fun hp => exec_start_running hp n, fun rest d h hd => ?_,
    fun rest d h hd => step_write_noStart h hd, rfl⟩
  obtain ⟨m, hm⟩ := (decode_ctrl_eq_start_iff d).2 hd
  exact (step_write_ctrl h hm).trans rfl

/-! ### The core's step by what the dispatch word selects -/

theorem coreStep_check_error (hp : s.status.phase = .check) (hd : decode .dispatch (dispatchWord s) = .error e) :
    coreStep s = .next (checkUnmatched e s) := by
  simp only [coreStep, hp, hd]

theorem coreStep_select (hp : s.status.phase = .select) (hd : decode .dispatch (dispatchWord s) = .ok i) :
    coreStep s = exec i s := by
  simp only [coreStep, hp, hd]

theorem coreStep_select_error (hp : s.status.phase = .select) (hd : decode .dispatch (dispatchWord s) = .error e) :
    coreStep s = .next (raiseFail .unsupportedDepth s) := by
  simp only [coreStep, hp, hd]

/-- Settles O6: taking the move off the list changes neither the phase nor the dispatch word. -/
theorem coreMoveRunsTheDispatchedInstruction : Obligations.CoreMoveRunsTheDispatchedInstruction := by
  intro s rest i hcore hp hd
  rw [step_core hcore]
  rcases hp with hp | hp
  · exact coreStep_check (s := { s with moves := rest }) hp hd
  · exact coreStep_select (s := { s with moves := rest }) hp hd

/-- Settles O7: taking the move off the list changes neither the phase nor OP. -/
theorem coreMoveInConvertRunsTheSelectedOperation : Obligations.CoreMoveInConvertRunsTheSelectedOperation := by
  intro s rest op hcore hp hop
  rw [step_core hcore]
  exact ⟨coreStep_op (u := { s with moves := rest }) hp hop, convertingOp_instr op⟩

/-! ### CHECK -/

theorem raiseFail_check (hp : s.status.phase = .check) : raiseFail c s = failDone c s :=
  raiseFail_early (by simp [hp]) (by simp [hp])

theorem exec_rejectNull_check (hp : s.status.phase = .check) (type bpp : Nat) (m : Bool) :
    exec (.rejectNull type bpp m) s = .next (failDone .nullSource s) := by
  simp only [exec, execRejectNull, hp, raiseFail_check]

theorem exec_clone24_check (hp : s.status.phase = .check) (m : Bool) :
    exec (.clone24 m) s = .next (cloneRequest s) := by
  simp only [exec, execClone24, hp]

/-- Settles O10: a word without PRESENT decodes to REJECT_NULL, which fails before a destination is held. -/
theorem rejectNullEndsTheRunAtCheck : Obligations.RejectNullEndsTheRunAtCheck := by
  intro s type bpp m hp
  refine ⟨failDone .nullSource s, exec_rejectNull_check hp type bpp m, rfl, rfl, fun rest hcore habsent => ?_⟩
  have hd : decode .dispatch (dispatchWord s) =
      .ok (.rejectNull (s.src.fmt.toNat / 16 % 16) (s.src.fmt.toNat / 256 % 256) (is565 s)) := by
    rw [decode_dispatchWord]
    exact decodeFields_of_selectedBy ⟨habsent, rfl, rfl, rfl⟩
  rw [coreMoveRunsTheDispatchedInstruction s rest _ hcore (.inl hp) hd]
  exact exec_rejectNull_check (s := { s with moves := rest }) hp _ _ _

/-- Settles O11: the tag has no row of the opcode map, and no destination is held yet. -/
theorem unsupportedTagEndsTheRunAtCheck : Obligations.UnsupportedTagEndsTheRunAtCheck := by
  intro s rest hcore hp hpresent htype
  have hd : decode .dispatch (dispatchWord s) = .error .unsupportedType := by
    rw [decode_dispatchWord, decodeFields_eq_unsupportedType_iff]
    exact ⟨by omega, htype⟩
  refine ⟨failDone .unsupportedType { s with moves := rest }, ?_, rfl, rfl⟩
  rw [step_core hcore, coreStep_check_error (s := { s with moves := rest }) hp hd]
  exact congrArg _ (raiseFail_check (s := { s with moves := rest }) hp)

/-- Settles O12: the three fields select the row of CLONE24. -/
theorem clone24RequestsADuplicate : Obligations.Clone24RequestsADuplicate := by
  intro s m hp
  refine ⟨exec_clone24_check hp m, fun rest hcore hpresent htype hbpp => ?_⟩
  have hd : decode .dispatch (dispatchWord s) = .ok (.clone24 (is565 s)) := by
    rw [decode_dispatchWord]
    exact decodeFields_of_selectedBy ⟨hpresent, htype, hbpp, rfl⟩
  rw [coreMoveRunsTheDispatchedInstruction s rest _ hcore (.inl hp) hd]
  exact exec_clone24_check (s := { s with moves := rest }) hp _

theorem decodeFields_ne_noStart (p t b : Nat) (m : Bool) : decodeFields p t b m ≠ .error .noStart := by
  unfold decodeFields decodeStd
  split_ifs <;> simp

/-- A present source of a supported tag that is not STD/24 is a matter of the allocation, whatever its depth. -/
theorem goesToAlloc_of_fields (hpresent : s.src.fmt.toNat % 2 = 1)
    (htype : s.src.fmt.toNat / 16 % 16 ∈ [1, 2, 3, 4, 5])
    (hclone : ¬(s.src.fmt.toNat / 16 % 16 = 1 ∧ s.src.fmt.toNat / 256 % 256 = 24)) : goesToAlloc s = true := by
  rw [goesToAlloc, decode_dispatchWord, hpresent]
  cases hd : decodeFields 1 (s.src.fmt.toNat / 16 % 16) (s.src.fmt.toNat / 256 % 256) (is565 s) with
  | ok i =>
    have hsel := selectedBy_of_decodeFields (by decide) hd
    cases i with
    | rejectNull => exact absurd hsel.1 (by decide)
    | clone24 => exact absurd ⟨hsel.2.1, hsel.2.2.1⟩ hclone
    | start => exact hsel.elim
    | _ => rfl
  | error e =>
    cases e with
    | unsupportedType => exact absurd htype (decodeFields_eq_unsupportedType_iff.1 hd).2
    | unsupportedDepth => rfl
    | noStart => exact absurd hd (decodeFields_ne_noStart _ _ _ _)

theorem convertingOp_of_goesToAlloc (h : goesToAlloc s = true) (hd : decode .dispatch (dispatchWord s) = .ok i) :
    ∃ op, convertingOp i = some op :=
  Option.isSome_iff_exists.1 (by simpa [goesToAlloc, hd] using h)

theorem coreStep_check_alloc (hp : s.status.phase = .check) (h : goesToAlloc s = true) :
    coreStep s = .next (allocRequest s) := by
  cases hd : decode .dispatch (dispatchWord s) with
  | ok i =>
    obtain ⟨op, hop⟩ := convertingOp_of_goesToAlloc h hd
    exact check_step (op := op) (by simp [selectedOp, hd, hop]) hp
  | error e =>
    rw [coreStep_check_error hp hd]
    cases e with
    | unsupportedType => simp [goesToAlloc, hd] at h
    | unsupportedDepth => rfl
    | noStart => rfl

/-- Settles O13: the masks of the request are the channel bytes of the layout. -/
theorem checkRequestsTheAllocation : Obligations.CheckRequestsTheAllocation := by
  intro s rest hcore hp hpresent htype hclone
  obtain ⟨hr, hg, hb⟩ := channelMask_eq s.cfg.layout
  have hgoes : goesToAlloc { s with moves := rest } = true :=
    goesToAlloc_of_fields (s := { s with moves := rest }) hpresent htype hclone
  rw [step_core hcore, coreStep_check_alloc (s := { s with moves := rest }) hp hgoes, ← hr, ← hg, ← hb]
  rfl

/-! ### SELECT -/

theorem exec_select (hop : convertingOp i = some op) (hp : s.status.phase = .select) :
    exec i s = .next (selectOp op s) := by
  rw [exec_converting hop]
  simp only [convertingStep, hp]

/-- Settles O14: in SELECT a converting operation is `selectOp`, whatever moves are still to come. -/
theorem selectStoresTheOperation : Obligations.SelectStoresTheOperation := by
  intro s i op hop hp
  refine ⟨exec_select hop hp, fun rest hcore hd => ?_⟩
  rw [coreMoveRunsTheDispatchedInstruction s rest i hcore (.inr hp) hd]
  exact exec_select (s := { s with moves := rest }) hop hp

/-- Settles O15: the depth has no row of the opcode map, and a destination is held. -/
theorem selectWithoutMatchReleasesTheDestination : Obligations.SelectWithoutMatchReleasesTheDestination := by
  intro s rest hcore hp hpresent htype hbpp
  have hd : decode .dispatch (dispatchWord s) = .error .unsupportedDepth := by
    rw [decode_dispatchWord, decodeFields_eq_unsupportedDepth_iff]
    exact ⟨by omega, htype, hbpp⟩
  refine ⟨raiseFail .unsupportedDepth { s with moves := rest }, ?_, raiseFail_held (.inl hp)⟩
  rw [step_core hcore]
  exact coreStep_select_error (s := { s with moves := rest }) hp hd

/-! ### CONVERT -/

theorem exec_convert (hop : convertingOp i = some op) (hp : s.status.phase = .convert) :
    exec i s = convertStep (pixelFn op) s := by
  rw [exec_converting hop]
  simp only [convertingStep, hp]

theorem convertStep_rowEnd (pix : PixelFn) (hrow : s.seqRow.toNat < s.src.height.toNat)
    (hcol : s.seqCol = s.src.width) : convertStep pix s = .next (rowEnd s) := by
  have hne : s.seqRow ≠ s.src.height := fun e => absurd hrow (by rw [e]; exact lt_irrefl _)
  rw [convertStep, if_neg hne, if_pos hrow, if_neg (by rw [hcol]; exact lt_irrefl _), if_pos hcol]

theorem convertStep_done (pix : PixelFn) (hrow : s.seqRow = s.src.height) :
    convertStep pix s = .next (success s) := if_pos hrow

/-- Settles O16: the sequencer's step does not look at the operation before the pixel itself. -/
theorem rowEndGoesToTheNextRow : Obligations.RowEndGoesToTheNextRow := by
  intro s i hop hp hrow hcol
  obtain ⟨op, hop⟩ := Option.isSome_iff_exists.1 hop
  rw [exec_convert hop hp]
  exact convertStep_rowEnd _ hrow hcol

/-- Settles O17: the end of the bitmap is tested before anything else. -/
theorem lastRowEndsTheRunWithAResult : Obligations.LastRowEndsTheRunWithAResult := by
  intro s i hop hp hrow
  obtain ⟨op, hop⟩ := Option.isSome_iff_exists.1 hop
  exact ⟨success s, by rw [exec_convert hop hp, convertStep_done _ hrow], rfl, rfl⟩

/-! ### IDLE and the waiting phases -/

/-- START apart, the two instructions that convert nothing are the dispatcher's own. -/
theorem exec_of_not_converting (hop : convertingOp i = none) (hi : ∀ n, i ≠ .start n) (s : State) :
    exec i s = execRejectNull s ∨ exec i s = execClone24 s := by
  cases i with
  | rejectNull => exact .inl rfl
  | clone24 => exact .inr rfl
  | start n => exact absurd rfl (hi n)
  | _ => simp [convertingOp] at hop

theorem exec_waiting (hi : ∀ n, i ≠ .start n)
    (hp : s.status.phase ∈ [Phase.idle, .cloneWait, .allocWait, .metaWait, .freeWait]) : exec i s = .next s := by
  simp only [List.mem_cons, List.not_mem_nil, or_false] at hp
  cases hop : convertingOp i with
  | some op =>
    rw [exec_converting hop]
    rcases hp with hp | hp | hp | hp | hp <;> simp only [convertingStep, hp]
  | none =>
    rcases exec_of_not_converting hop hi s with h | h <;> rw [h]
    · rcases hp with hp | hp | hp | hp | hp <;> simp only [execRejectNull, hp]
    · rcases hp with hp | hp | hp | hp | hp <;> simp only [execClone24, hp]

theorem coreStep_waiting (hp : s.status.phase ∈ [Phase.idle, .cloneWait, .allocWait, .metaWait, .freeWait]) :
    coreStep s = .next s := by
  simp only [List.mem_cons, List.not_mem_nil, or_false] at hp
  rcases hp with hp | hp | hp | hp | hp <;> simp only [coreStep, hp]

/-- Settles O18, by the instruction and by the core's own match on the phase. -/
theorem coreTakesNoStepWhileItWaits : Obligations.CoreTakesNoStepWhileItWaits := by
  intro s rest i hcore hi hp
  refine ⟨exec_waiting hi hp, ?_⟩
  rw [step_core hcore]
  exact coreStep_waiting (s := { s with moves := rest }) hp

end Sys2Proof.Machine
end

section
/-! The environment's answers (45_dispatcher_sequencer.md R245 to R249): what a step is for a denied request and for an
answer that does not fit, and the environment's bitmaps after a METACOPY. -/

namespace Sys2Proof.Machine

variable {s : State} {a : Answer} {h dst src base pitch : Word} {b : Bitmap} {bs : List Bitmap} {info : Nat}

/-- The promises of a grant do not depend on the moves still to come. -/
theorem promised_withMoves {rest : List Move} :
    Promised { s with moves := rest } base pitch ↔ Promised s base pitch :=
  ⟨promised_cong rfl rfl, promised_cong rfl rfl⟩

/-- Settles O29: the bitmap of the grant is the one put under its handle. -/
theorem allocGrantHoldsTheDestination : Obligations.AllocGrantHoldsTheDestination := by
  intro s rest h base pitch w ht r g b d hm hp hreq hpr
  refine ⟨allocGranted h base pitch { s with moves := rest }, ?_, rfl,
    ⟨Config.freshMeta s.draws, find_put_same s.bitmaps (allocBitmap s h base pitch)⟩,
    fun h' hne => find_put_other s.bitmaps (allocBitmap s h base pitch) hne⟩
  rw [step_move hm]
  exact answer_allocGrant (s := { s with moves := rest }) hp hreq (promised_withMoves.2 hpr)

/-! ### DENY -/

theorem answer_deny
    (hreq : (s.status.phase = .allocWait ∧ ∃ w ht d r g b, s.svcOut = some (.alloc w ht d r g b)) ∨
      (s.status.phase = .cloneWait ∧ ∃ c, s.svcOut = some (.clone c))) :
    answerStep .deny s = .next (failDone .allocFailed s) := by
  rw [← denied_eq_failDone (hreq.imp And.left And.left)]
  rcases hreq with ⟨hp, w, ht, d, r, g, b, hs⟩ | ⟨hp, c, hs⟩ <;> simp only [answerStep, hp, hs]

/-- Settles O30: no destination is held yet, so the failure completes in the step of the answer. -/
theorem deniedRequestEndsTheRun : Obligations.DeniedRequestEndsTheRun := by
  intro s rest hm hreq
  refine ⟨failDone .allocFailed { s with moves := rest }, ?_, rfl, rfl⟩
  rw [step_move hm]
  exact answer_deny (s := { s with moves := rest }) hreq

/-! ### The duplicate and its metadata -/

theorem metaOf_of_find (hb : findBitmap s.bitmaps h = some b) : metaOf s h = b.info := by
  simp only [metaOf, hb]

/-- Settles O31: the duplication copies the source rows, and its bitmap is put under the handle of the grant. -/
theorem cloneGrantDuplicatesTheSource : Obligations.CloneGrantDuplicatesTheSource := by
  intro s rest h base pitch src hm hp hreq hpr hwf hin
  obtain ⟨m, hrows, -, hcopied, hothers⟩ :=
    cloneRows_ok (s := { s with moves := rest }) hpr.wide s.src.height.toNat hwf hin hpr.inside
  have hfind := find_put_same s.bitmaps (cloneBitmap s h base pitch)
  refine ⟨cloneGranted m h base pitch { s with moves := rest }, ?_, rfl, rfl, hcopied, hothers,
    (metaOf_of_find hfind).trans rfl, ⟨_, hfind⟩,
    fun h' hne => find_put_other s.bitmaps (cloneBitmap s h base pitch) hne, rfl⟩
  rw [step_move hm]
  exact answer_cloneGrant (s := { s with moves := rest }) hp hreq (promised_withMoves.2 hpr) hrows

/-! ### METACOPY -/

/-- The bitmap with its metadata replaced where it is the one of the handle. -/
def Bitmap.setInfo (dst : Word) (info : Nat) (b : Bitmap) : Bitmap :=
  if b.handle = dst then { b with info := info } else b

theorem copyMeta_eq_map (s : State) (dst src : Word) :
    copyMeta s dst src = s.bitmaps.map (Bitmap.setInfo dst (metaOf s src)) := rfl

@[simp] theorem Bitmap.setInfo_handle : (b.setInfo dst info).handle = b.handle := by
  unfold Bitmap.setInfo
  split <;> rfl

theorem findBitmap_handle (hb : findBitmap bs h = some b) : b.handle = h := by
  simpa using List.find?_some hb

theorem find_map_setInfo (bs : List Bitmap) (h : Word) :
    findBitmap (bs.map (Bitmap.setInfo dst info)) h = (findBitmap bs h).map (Bitmap.setInfo dst info) := by
  simp [findBitmap, List.find?_map]

theorem find_copyMeta_same (hb : findBitmap s.bitmaps dst = some b) :
    findBitmap (copyMeta s dst src) dst = some { b with info := metaOf s src } := by
  rw [copyMeta_eq_map, find_map_setInfo, hb, Option.map_some, Bitmap.setInfo, if_pos (findBitmap_handle hb)]

theorem find_copyMeta_none (hb : findBitmap s.bitmaps dst = none) : findBitmap (copyMeta s dst src) dst = none := by
  rw [copyMeta_eq_map, find_map_setInfo, hb, Option.map_none]

theorem find_copyMeta_other (hne : h ≠ dst) : findBitmap (copyMeta s dst src) h = findBitmap s.bitmaps h := by
  rw [copyMeta_eq_map, find_map_setInfo]
  cases hb : findBitmap s.bitmaps h with
  | none => rfl
  | some b => rw [Option.map_some, Bitmap.setInfo, if_neg (findBitmap_handle hb ▸ hne)]

/-- Settles O32: the acknowledgement replaces the metadata in the list of bitmaps and leaves every handle in place. -/
theorem metacopyGoesToSelect : Obligations.MetacopyGoesToSelect := by
  intro s rest dst src hm hp hreq
  refine ⟨metaCopied dst src { s with moves := rest }, ?_, rfl, fun b hb => ?_, find_copyMeta_none (s := s),
    fun h hne => find_copyMeta_other (s := s) hne⟩
  · rw [step_move hm]
    exact answer_metacopy (s := { s with moves := rest }) hp hreq
  · have hfind := find_copyMeta_same (src := src) hb
    exact ⟨hfind, (metaOf_of_find hfind).trans rfl⟩

/-! ### Answers that do not fit -/

/-- Every row of the answers but the last asks for a request and an answer of its kind, which is excluded here. -/
theorem answer_unfitting (hfit : s.svcOut = none ∨
      (a = .ack ∧ ((∃ w ht d r g b, s.svcOut = some (.alloc w ht d r g b)) ∨ ∃ h, s.svcOut = some (.clone h))) ∨
      (a ≠ .ack ∧ ((∃ d c, s.svcOut = some (.metacopy d c)) ∨ ∃ d, s.svcOut = some (.free d)))) :
    answerStep a s = .refused .answerDoesNotFit := by
  unfold answerStep
  split
  case h_7 => rfl
  all_goals simp_all

/-- Settles O34: the promises and the request do not depend on the moves still to come. -/
theorem unfittingAnswerIsRefused : Obligations.UnfittingAnswerIsRefused := by
  intro s rest a hm
  rw [step_move hm]
  refine ⟨?_, fun hfit => answer_unfitting (s := { s with moves := rest }) hfit⟩
  rintro h base pitch rfl hbroken hreq
  exact answer_brokenGrant (s := { s with moves := rest }) (fun hpr => hbroken (promised_withMoves.1 hpr)) hreq

end Sys2Proof.Machine
end

section
/-! The transition table (45_dispatcher_sequencer.md R237): every change of PHASE is one of its pairs, and from a state
of the invariant no party is left without a transition. -/

namespace Sys2Proof.Machine

variable {s t : State} {i : Instr} {op : Op}

/-! ### Changes of PHASE -/

/-- The pairs of distinct phases of the transition table. -/
def Transition (p q : Phase) : Prop :=
  (p, q) ∈ [(Phase.idle, Phase.check), (.check, .idle), (.check, .cloneWait), (.check, .allocWait),
    (.cloneWait, .idle), (.allocWait, .metaWait), (.allocWait, .idle), (.metaWait, .select),
    (.select, .convert), (.select, .freeWait), (.convert, .idle), (.convert, .freeWait), (.freeWait, .idle)]

@[simp] theorem regWrite_status (r : Reg) (d : Word) (s : State) : (regWrite r d s).status = s.status := by
  unfold regWrite
  split <;> rfl

theorem CoreKind.transition (hk : CoreKind s t) (hne : t.status.phase ≠ s.status.phase) :
    Transition s.status.phase t.status.phase := by
  cases hk with
  | stay | pixel | rowEnd => exact absurd rfl hne
  | failAtCheck c hp => simp [raiseFail_check hp, hp, Transition]
  | clone hp => simp [hp, Transition]
  | alloc hp => simp [hp, Transition]
  | select op hp => simp [hp, Transition]
  | noMatch hp => simp [raiseFail_held (.inl hp), hp, Transition]
  | done hp => simp [hp, Transition]
  | badIndex hat => simp [raiseFail_held (.inr hat.convert), hat.convert, Transition]

theorem StepKind.transition (hk : StepKind s t) (hne : t.status.phase ≠ s.status.phase) :
    Transition s.status.phase t.status.phase := by
  cases hk with
  | core hc => exact hc.transition hne
  | observe | memory => exact absurd rfl hne
  | write r d => simp at hne
  | reset hp => exact absurd hp.symm hne
  | start hp => simp [hp, Transition]
  | allocGranted _ _ _ hp => simp [hp, Transition]
  | denied hp => rcases hp with hp | hp <;> simp [denied_eq_failDone, hp, Transition]
  | cloneGranted _ _ _ _ hp => simp [hp, Transition]
  | metaCopied _ _ hp => simp [hp, Transition]
  | freed _ _ hp => simp [hp, Transition]

/-- Settles O54, by the cases of a step. -/
theorem phaseChangesFollowTheTransitionTable : Obligations.PhaseChangesFollowTheTransitionTable := by
  intro s t hstep hne
  obtain ⟨rest, -, hk⟩ := step_cases hstep
  exact hk.transition hne

/-! ### The core always has a transition -/

theorem ne_noTransition_of_next {r : Result} (h : ∃ t, r = .next t) : r ≠ .fault .noTransition := by
  obtain ⟨t, rfl⟩ := h
  exact nofun

theorem exec_check_next (hp : s.status.phase = .check) (hi : ∀ n, i ≠ .start n) : ∃ t, exec i s = .next t := by
  cases hop : convertingOp i with
  | some op => exact ⟨allocRequest s, by simp only [exec_converting hop, convertingStep, hp]⟩
  | none =>
    rcases exec_of_not_converting hop hi s with h | h
    · exact ⟨raiseFail .nullSource s, by simp only [h, execRejectNull, hp]⟩
    · exact ⟨cloneRequest s, by simp only [h, execClone24, hp]⟩

theorem coreStep_check_next (hp : s.status.phase = .check) : ∃ t, coreStep s = .next t := by
  cases hd : decode .dispatch (dispatchWord s) with
  | ok i =>
    rw [coreStep_check hp hd]
    exact exec_check_next hp fun n e => decode_dispatch_ne_start _ n (e ▸ hd)
  | error e => exact ⟨_, coreStep_check_error hp hd⟩

/-- Past the allocation the dispatch word selects a converting operation or no row at all. -/
theorem coreStep_select_next (hp : s.status.phase = .select) (hw : goesToAlloc s = true) :
    ∃ t, coreStep s = .next t := by
  cases hd : decode .dispatch (dispatchWord s) with
  | ok i =>
    obtain ⟨op, hop⟩ := convertingOp_of_goesToAlloc hw hd
    exact ⟨selectOp op s, by rw [coreStep_select hp hd, exec_select hop hp]⟩
  | error e => exact ⟨_, coreStep_select_error hp hd⟩

theorem putPixel_ne_noTransition (s : State) (y x : Nat) (p : Rgb) : putPixel s y x p ≠ .error .noTransition := by
  unfold putPixel
  split <;> simp

/-- A pixel step faults on an address only. -/
theorem pixelStep_ne_noTransition (op : Op) (s : State) : pixelStep (pixelFn op) s ≠ .fault .noTransition := by
  cases hpix : pixelFn op s s.seqRow.toNat s.seqCol.toNat with
  | error f =>
    obtain ⟨a, -, rfl⟩ := pixelFn_error hpix
    simp [pixelStep_error hpix]
  | ok q =>
    cases q with
    | badIndex => simp [pixelStep_badIndex hpix]
    | rgb p n =>
      have hput := putPixel_ne_noTransition s s.seqRow.toNat s.seqCol.toNat p
      simp only [pixelStep, hpix]
      split <;> simp_all

/-- Within the bounds of the bitmap one of R254, R255 and R257 is enabled. -/
theorem convertStep_ne_noTransition (op : Op) (hrow : s.seqRow.toNat ≤ s.src.height.toNat)
    (hcol : s.seqCol.toNat ≤ s.src.width.toNat) : convertStep (pixelFn op) s ≠ .fault .noTransition := by
  by_cases hend : s.seqRow = s.src.height
  · exact ne_noTransition_of_next ⟨_, convertStep_done _ hend⟩
  have hlt : s.seqRow.toNat < s.src.height.toNat := lt_of_le_of_ne hrow (mt BitVec.eq_of_toNat_eq hend)
  by_cases hpix : s.seqCol.toNat < s.src.width.toNat
  · rw [convertStep, if_neg hend, if_pos hlt, if_pos hpix]
    exact pixelStep_ne_noTransition op s
  · exact ne_noTransition_of_next ⟨_, convertStep_rowEnd _ hlt (BitVec.eq_of_toNat_eq (by omega))⟩

theorem Inv.coreStep_ne_noTransition (h : Inv s) : coreStep s ≠ .fault .noTransition := by
  cases hp : s.status.phase with
  | check => exact ne_noTransition_of_next (coreStep_check_next hp)
  | select => exact ne_noTransition_of_next (coreStep_select_next hp (h.word (.inr (.inr hp))))
  | convert =>
    obtain ⟨op, hop⟩ := Option.isSome_iff_exists.1 (h.op.1 hp).1
    obtain ⟨hrow, hcol⟩ := h.seqBound (.inl hp)
    rw [coreStep_convert hp hop]
    exact convertStep_ne_noTransition op hrow hcol
  | _ => exact ne_noTransition_of_next ⟨s, coreStep_waiting (by simp [hp])⟩

/-! ### The other parties -/

theorem answerStep_ne_noTransition {a : Answer} (hpend : s.status.phase = .freeWait → s.pend ≠ none) :
    answerStep a s ≠ .fault .noTransition := by
  unfold answerStep
  split
  case h_3 h base pitch _ _ =>
    split
    · cases hrows : cloneRows s base pitch s.src.height.toNat s.mem with
      | error f => simpa using cloneRows_err _ hrows
      | ok m => simp
    · simp
  case h_6 hp _ =>
    split
    · simp
    · next hnone => exact absurd hnone (hpend hp)
  case h_1 => split <;> simp
  all_goals simp

theorem exec_start_next (n : Nat) (s : State) : ∃ t, exec (.start n) s = .next t := by
  by_cases hp : s.status.phase = .idle
  · exact ⟨_, exec_start_idle hp n⟩
  · exact ⟨_, exec_start_running hp n⟩

theorem hostWrite_ne_fault (offset : Nat) (d : Word) (s : State) (f : Fault) : hostWrite offset d s ≠ .fault f := by
  unfold hostWrite
  split
  · split
    · simp
    · split
      · next i hi =>
        obtain ⟨n, rfl⟩ := decode_ctrl_eq_ok hi
        obtain ⟨t, ht⟩ := exec_start_next n s
        simp [ht]
      · simp
    · simp
  · simp

/-- The moves of the host, and the memory accesses and the reset of any party, are taken or refused. -/
theorem moveStep_fault {m : Move} {f : Fault} (h : moveStep m s = .fault f) : m = .core ∨ ∃ a, m = .ans a := by
  cases m with
  | core => exact .inl rfl
  | ans a => exact .inr ⟨a, rfl⟩
  | wr offset d => exact absurd h (hostWrite_ne_fault offset d s f)
  | rd offset =>
    simp only [moveStep, hostRead] at h
    split at h
    · split at h <;> cases h
    · cases h
  | memWr a b => simp only [moveStep, memoryWrite] at h; split_ifs at h
  | memRd a => simp only [moveStep, memoryRead] at h; split_ifs at h
  | reset => simp only [moveStep, hardReset] at h; split at h <;> cases h

theorem Inv.moveStep_ne_noTransition (h : Inv s) (m : Move) : moveStep m s ≠ .fault .noTransition := by
  intro hfault
  rcases moveStep_fault hfault with rfl | ⟨a, rfl⟩
  · exact h.coreStep_ne_noTransition hfault
  · refine answerStep_ne_noTransition (fun hp hnone => ?_) hfault
    simpa [hp, hnone] using h.pend

/-- Settles O53: only the core's move and an answer can fault, and each finds its row of the table. -/
theorem aTransitionAlwaysExists : Obligations.ATransitionAlwaysExists := by
  intro s h
  cases hm : s.moves with
  | nil =>
    rw [step_core (.inr ⟨hm, rfl⟩)]
    exact (h.observed [] s.rdData s.draws).coreStep_ne_noTransition
  | cons m rest =>
    rw [step_move hm]
    exact (h.observed rest s.rdData s.draws).moveStep_ne_noTransition m

end Sys2Proof.Machine
end

section
/-! A whole run (45_dispatcher_sequencer.md R261, R263): the conversion from (0,0), and the way to it from START. -/

namespace Sys2Proof.Machine

variable {s u : State} {base pitch : Word} {a : Nat}

/-- Settles O57: the premise says that every pixel is fixed. -/
theorem aConversionRunsToItsResult : Obligations.AConversionRunsToItsResult := by
  intro s op f hb hpix
  exact hb.converted fun y hy x hx u hu => hpix u y x hu.cfg hu.src hu.palette hu.memory hy hx

/-- No pixel byte of the destination, in the source's dimensions and the place of the grant. -/
theorem not_destPixelByte_iff (hsrc : u.src = s.src) (hbase : u.dst.base = base) (hpitch : u.dst.pitch = pitch) :
    ¬ destPixelByte u a ↔ ∀ y k, y < s.src.height.toNat → k < 3 * s.src.width.toNat →
      a ≠ base.toNat + y * pitch.toNat + k := by
  simp only [destPixelByte, dstAddr, hsrc, hbase, hpitch, not_exists, not_and, ne_eq]

/-- Settles O60: five steps lead to the conversion, which then runs to its result with no move to come. -/
theorem aRunFromStartEndsInItsResult : Obligations.ARunFromStartEndsInItsResult := by
  intro s op f h base pitch hidle hwf hsel hpr hm hpix
  obtain ⟨u, hrun, hmoves, hb, hcfg, hsrc, hpal, hmem, hdst⟩ := run_to_conversion hidle hwf hsel hpr hm
  have hplace (a : Nat) :=
    not_destPixelByte_iff (a := a) hsrc (congrArg DstRegs.base hdst) (congrArg DstRegs.pitch hdst)
  obtain ⟨t, hconv, ht⟩ := hb.converted (f := f) fun y hy x hx v hv =>
    hpix v y x (hv.cfg.trans hcfg) (hv.src.trans hsrc) (hv.palette.trans hpal)
      (fun a ha => hmem ▸ hv.memory a ((hplace a).2 ha)) (hsrc ▸ hy) (hsrc ▸ hx)
  rw [hsrc] at hconv
  refine ⟨t, ?_, ?_, ?_, ht.src.trans hsrc, fun y x hy hx => ht.pixels y x (hsrc ▸ hy) (hsrc ▸ hx),
    fun a ha => hmem ▸ ht.others a ((hplace a).2 ha)⟩
  · rw [hrun, run_core _ hmoves, hconv]
  · rw [ht.status]
    rfl
  · rw [ht.dst, hdst]

end Sys2Proof.Machine
end

section
/-! The completion of a failure that holds a destination (45_dispatcher_sequencer.md R250, 60_exceptions.md R292): the
answer to FREE, and STATUS as the host then reads it. -/

namespace Sys2Proof.Machine

variable {s : State} {dst : Word} {c : Cause}

theorem answer_free (hp : s.status.phase = .freeWait) (hreq : s.svcOut = some (.free dst)) (hpend : s.pend = some c) :
    answerStep .ack s = .next (freed dst c s) := by
  simp only [answerStep, hp, hreq, hpend]

/-- DONE and FAIL are bits 1 and 2, CAUSE begins at bit 4, and the code of IDLE is 0 (10_state.md R22, R41). -/
theorem failDone_word (c : Cause) (s : State) : (failDone c s).status.word = BitVec.ofNat 32 (6 + 16 * c.code) := by
  simp [Status.word, Phase.code]

/-- Settles O33: the pending failure completes over the environment's bitmaps without the destination's. -/
theorem freeCompletesThePendingFailure : Obligations.FreeCompletesThePendingFailure := by
  intro s rest dst c hm hp hreq hpend
  refine ⟨freed dst c { s with moves := rest }, ?_, rfl, failDone_word c _, find_drop_same s.bitmaps dst,
    fun h hne => find_drop_other s.bitmaps hne⟩
  rw [step_move hm]
  exact answer_free (s := { s with moves := rest }) hp hreq hpend

end Sys2Proof.Machine
end

section
/-! The reset input (70_reset_and_hazards.md R310, R312): the machine step of the reset move is the hardware reset of
the state without that move. -/

namespace Sys2Proof.Machine

variable {s : State} {rest : List Move}

theorem step_reset (hm : s.moves = .reset :: rest) : step s = hardReset { s with moves := rest } :=
  step_move hm

theorem hardReset_idle (hp : s.status.phase = .idle) :
    hardReset s = .next { s with
      status := Status.reset
      src := SrcRegs.reset
      dst := DstRegs.zero
      seqRow := 0
      seqCol := 0
      op := none
      pend := none
      svcOut := none } := by
  simp only [hardReset, hp]

theorem hardReset_running (hp : s.status.phase ≠ .idle) : hardReset s = .refused .resetDuringRun := by
  cases h : s.status.phase with
  | idle => exact absurd h hp
  | check | cloneWait | allocWait | metaWait | select | convert | freeWait => simp only [hardReset, h]

/-- Settles O42: the phase decides between the cleared state and the refusal. -/
theorem resetClearsTheRegistersOnly : Obligations.ResetClearsTheRegistersOnly := by
  intro s rest hm
  rw [step_reset hm]
  exact ⟨fun hp => hardReset_idle hp, fun hp => hardReset_running hp⟩

end Sys2Proof.Machine
end
